-- ==== Sys2Proof/Word.lean ====
section
/-! DEFINITION. The word types of the machine: bytes, the container of an XLEN-bit or FLEN-bit value, the register
fields of an encoding, and the fetched instruction word of 16 or 32 bits. -/

namespace Sys2Proof

/-- A byte of memory, the unit of addressing (10_state.md R34). -/
abbrev Byte := BitVec 8

/-- The container of one XLEN-bit (or FLEN-bit) value. DESIGN CHOICE (log 13): when the width is 32, bits 63:32 are
zero; safe, every read and every write of a register narrows to the width. -/
abbrev Word := BitVec 64

/-- A 5-bit register field (10_state.md R20). -/
abbrev Reg := BitVec 5

/-- A 3-bit register field of a compressed instruction, naming register 8 + field (10_state.md R23). -/
abbrev CReg := BitVec 3

/-- An instruction word as fetched or encoded: 16 bits or 32 bits (30_encoding.md R80; no other length exists). -/
inductive InstrWord where
  /-- A 16-bit instruction (ilen = 2). -/
  | half (w : BitVec 16)
  /-- A 32-bit instruction (ilen = 4). -/
  | full (w : BitVec 32)
deriving DecidableEq, Repr

/-- The instruction bits, zero-extended: the information value of IllegalInstruction (60_exceptions.md R280). -/
def InstrWord.bits : InstrWord → Word
  | .half w => w.setWidth 64
  | .full w => w.setWidth 64

/-- `ilen`, the length in bytes (30_encoding.md R80). -/
def InstrWord.ilen : InstrWord → Nat
  | .half _ => 2
  | .full _ => 4

end Sys2Proof
end

