-- ==== Sys2Proof/Config.lean ====
section
/-! DEFINITION. The parameters of the spec (00_scope.md R5) as plain data, and the configuration that State.reset
uses. -/

namespace Sys2Proof

/-- The parameter XLEN (00_scope.md R5, D1): RV32 has 32-bit registers, RV64 has 64-bit registers. -/
inductive XLen where
  | rv32
  | rv64
deriving DecidableEq, Repr

/-- The width in bits. -/
def XLen.bits : XLen → Nat
  | .rv32 => 32
  | .rv64 => 64

/-- The parameter EXT (00_scope.md R5, D2): which of M, A, F, D, C are present besides I. -/
structure Ext where
  m : Bool
  a : Bool
  f : Bool
  d : Bool
  c : Bool
deriving DecidableEq, Repr

/-- The access kinds of `mem_admit` (20_memory.md R54). -/
inductive AccessKind where
  | load
  | store
  | amo
  | fetch
deriving DecidableEq, Repr

/-- One window of `mem_admit` (20_memory.md R54): accesses of these kinds and sizes whose address lies from `first` to
`last` are admitted. Every function of R5's type (address, size, kind) to bool over a finite address space is one list
of such windows (log 4). -/
structure AdmitWindow where
  kinds : List AccessKind
  sizes : List Nat
  first : Nat
  last : Nat
deriving DecidableEq, Repr

/-- A run of byte addresses, for `code_region` (00_scope.md R5, 20_memory.md R67). -/
structure ByteRange where
  first : Nat
  len : Nat
deriving DecidableEq, Repr

/-! Parameters that are functions of the state (`csr_model`, `env`) are held as data too: terms that
Machine/Functions.lean evaluates in a state, with the function's own arguments at hand. The state of 10_state.md is
finite, so every function of R5's types is such a term; a leaf that is a free value stands beside them (log 23). -/

/-- The operations of a term, on 64-bit words; a comparison gives 1 or 0. -/
inductive FnOp where
  | add
  | sub
  | and
  | or
  | xor
  | shiftLeft
  | shiftRight
  | eq
  | less
deriving DecidableEq, Repr

/-- A function of the state with a word as its value. -/
inductive StateFn where
  | const (v : Word)
  /-- The function's argument of this number: what they are is said where the function is used. -/
  | arg (n : Nat)
  | x (r : Reg)
  | pc
  | f (r : Reg)
  | csr (addr : StateFn)
  | byte (addr : StateFn)
  /-- How many accesses CSRs with functions of their own have had: a read may change from read to read
  (60_exceptions.md R301). -/
  | tick
  | op (o : FnOp) (a b : StateFn)
  /-- `a` where `c` is not zero, else `b`. -/
  | cond (c a b : StateFn)
  /-- A free value: the opaque `Config.platformValue` of the whole state. -/
  | platform (id : Nat) (a b : StateFn)
deriving DecidableEq, Repr

/-- A place of the state that a function can give a new value. -/
inductive Place where
  | x (r : Reg)
  | f (r : Reg)
  | csr (addr : StateFn)
  | byte (addr : StateFn)
deriving DecidableEq, Repr

/-- Where `guard` is not zero, the place gets the value. A list of updates is a function from a state to a new state:
every term is evaluated in the old state, and the last update of a place counts. -/
structure Update where
  guard : StateFn
  place : Place
  value : StateFn
deriving DecidableEq, Repr

/-- Four of the five functions of `csr_model` for one CSR (10_state.md R30); the fifth, `exists`, is the list of windows.
Argument 0 is the CSR's address `a`, argument 1 of `write` the value `v`. -/
structure CsrFns where
  /-- `may_read(a, state)`: not zero. -/
  mayRead : StateFn
  /-- `may_write(a, state)`: not zero. -/
  mayWrite : StateFn
  /-- The value of `read(a, state)`. -/
  read : StateFn
  /-- The side effect of `read(a, state)`. -/
  readEffect : List Update
  /-- The new state of `write(a, v, state)`. -/
  write : List Update
deriving DecidableEq, Repr

/-- What `csr_model` says of one CSR (10_state.md R30). -/
inductive CsrDesc where
  /-- Plain storage with access rights; a write changes the bits set in `writable` and keeps the others. -/
  | storage (mayRead mayWrite : Bool) (writable : Word)
  /-- Any other: its functions of the state (log 6). -/
  | functions (fns : CsrFns)
deriving DecidableEq, Repr

/-- The CSRs at addresses `first` to `last` exist and are described by `desc`. -/
structure CsrWindow where
  first : Nat
  last : Nat
  desc : CsrDesc
deriving DecidableEq, Repr

/-- What `env` answers (60_exceptions.md R283). -/
inductive EnvAction where
  /-- `Stop`. -/
  | stop
  /-- `Continue(state')`: the updates make state' from the state of the trap, and the run goes on at `target`. -/
  | goOn (target : StateFn) (updates : List Update)
deriving DecidableEq, Repr

/-- One clause of `env`: the answer where `guard` is not zero. Argument 0 is the number of the exception (the last column
of 60_exceptions.md R280), argument 1 its information value. -/
structure EnvRule where
  guard : StateFn
  action : EnvAction
deriving DecidableEq, Repr

/-- One result of `div_spec` (46_divide.md R260) as a function of the dividend. -/
inductive DivResult where
  /-- An integer, modulo 2^N. -/
  | number (z : Int)
  | dividend
  /-- The integer `z` for the dividend `a`, else the other result. -/
  | onDividend (a : Word) (z : Int) (other : DivResult)
deriving DecidableEq, Repr

/-- The results of `div_spec` at one width. -/
structure DivResults where
  unsignedByZero : DivResult
  signedByZero : DivResult
  signedOverflow : DivResult
deriving DecidableEq, Repr

/-- The record `div_spec` (00_scope.md R5, 46_divide.md R260): the quotients of a division by zero and of the signed
overflow, for N = 32 and for N = 64. -/
structure DivSpec where
  narrow : DivResults
  wide : DivResults
deriving DecidableEq, Repr

/-- The results at width N. -/
def DivSpec.results (d : DivSpec) (n : Nat) : DivResults := if n = 32 then d.narrow else d.wide

/-- The results that R260 gives: all ones for a division by zero, the dividend for the signed overflow (log 24). -/
def DivResults.standard : DivResults := ⟨.number (-1), .number (-1), .dividend⟩

/-- The `div_spec` of R260. -/
def DivSpec.standard : DivSpec := ⟨.standard, .standard⟩

/-- The parameters of 00_scope.md R5 that a machine is built with. No instruction changes them (log 1). -/
structure Config where
  xlen : XLen
  ext : Ext
  /-- RESET_PC (10_state.md R28). -/
  resetPc : Word
  /-- mem_admit (20_memory.md R54). -/
  memAdmit : List AdmitWindow
  /-- code_region (20_memory.md R67). -/
  codeRegion : List ByteRange
  /-- csr_model (10_state.md R30); the first window that holds an address describes it. -/
  csrModel : List CsrWindow
  /-- env (60_exceptions.md R283): the first clause that holds answers; where none does, Stop. -/
  env : List EnvRule
  /-- div_spec (46_divide.md R260). -/
  divSpec : DivSpec
deriving DecidableEq, Repr

/-- FLEN, derived from EXT (00_scope.md R5, D3): 64 if D, else 32 if F, else 0 (no `f` file). -/
def Config.flen (c : Config) : Nat := if c.ext.d then 64 else if c.ext.f then 32 else 0

/-- IALIGN/8, derived from EXT (00_scope.md R5, D5): 2 with C, 4 without. -/
def Config.ialignBytes (c : Config) : Nat := if c.ext.c then 2 else 4

/-- The constraints R5 puts on the parameters: D present requires F present, RESET_PC is an XLEN-bit value. -/
def Config.wf (c : Config) : Bool :=
  (!c.ext.d || c.ext.f) && decide (c.resetPc.toNat < 2 ^ c.xlen.bits)

/-- All five extensions. -/
def Ext.all : Ext := ⟨true, true, true, true, true⟩

/-- `mem_admit` that admits every data access and every fetch (the convention of 95_test_vectors.md). -/
def admitAll : List AdmitWindow :=
  [⟨[.load, .store, .amo, .fetch], [2, 4, 8], 0, 2 ^ 64 - 1⟩]

/-- `csr_model` in which all 4096 addresses are plain storage with full rights. -/
def csrAllStorage : List CsrWindow := [⟨0, 4095, .storage true true (BitVec.allOnes 64)⟩]

/-- The configuration of State.reset. DESIGN CHOICE (log 2 to 6), unsafe: the spec leaves these parameters open. No env
is given, so every exception stops the run (R283); div_spec is R260's. -/
def Config.atReset : Config :=
  { xlen := .rv64, ext := Ext.all, resetPc := 0x1000, memAdmit := admitAll, codeRegion := [], csrModel := csrAllStorage,
    env := [], divSpec := DivSpec.standard }

/-- The same configuration at XLEN = 32 (log 18). -/
def Config.atReset32 : Config := { Config.atReset with xlen := .rv32 }

end Sys2Proof
end

