-- ==== Sys2Proof/Syntax.lean ====
section
/-! DEFINITION. The instructions: one constructor per row of spec/opcode_table.json, in the table's order. Immediates
are kept as the bits the encoding holds (30_encoding.md R92, R96 to R99), not yet scaled or extended. -/

namespace Sys2Proof

/-- The 84 encoded instructions (00_scope.md R3). -/
inductive Instr where
  /-- `add rd, rs1, rs2` (R121). -/
  | add (rd rs1 rs2 : Reg)
  /-- `addi rd, rs1, immediate` (R122). -/
  | addi (rd rs1 : Reg) (imm : BitVec 12)
  /-- `addiw rd, rs1, immediate` (R123). -/
  | addiw (rd rs1 : Reg) (imm : BitVec 12)
  /-- `addw rd, rs1, rs2` (R124). -/
  | addw (rd rs1 rs2 : Reg)
  /-- `and rd, rs1, rs2` (R125). -/
  | and (rd rs1 rs2 : Reg)
  /-- `andi rd, rs1, immediate` (R126). -/
  | andi (rd rs1 : Reg) (imm : BitVec 12)
  /-- `auipc rd, immediate` (R127); `imm` is immediate[31:12]. -/
  | auipc (rd : Reg) (imm : BitVec 20)
  /-- `amoadd.d rd, rs2, (rs1)` (R132). -/
  | amoaddD (aq rl : Bool) (rs2 rs1 rd : Reg)
  /-- `amoadd.w rd, rs2, (rs1)` (R133). -/
  | amoaddW (aq rl : Bool) (rs2 rs1 rd : Reg)
  /-- `amoand.d rd, rs2, (rs1)` (R134). -/
  | amoandD (aq rl : Bool) (rs2 rs1 rd : Reg)
  /-- `amoand.w rd, rs2, (rs1)` (R135). -/
  | amoandW (aq rl : Bool) (rs2 rs1 rd : Reg)
  /-- `amomax.d rd, rs2, (rs1)` (R136). -/
  | amomaxD (aq rl : Bool) (rs2 rs1 rd : Reg)
  /-- `amomax.w rd, rs2, (rs1)` (R137). -/
  | amomaxW (aq rl : Bool) (rs2 rs1 rd : Reg)
  /-- `amomaxu.d rd, rs2, (rs1)` (R138). -/
  | amomaxuD (aq rl : Bool) (rs2 rs1 rd : Reg)
  /-- `amomaxu.w rd, rs2, (rs1)` (R139). -/
  | amomaxuW (aq rl : Bool) (rs2 rs1 rd : Reg)
  /-- `amomin.d rd, rs2, (rs1)` (R140). -/
  | amominD (aq rl : Bool) (rs2 rs1 rd : Reg)
  /-- `amomin.w rd, rs2, (rs1)` (R141). -/
  | amominW (aq rl : Bool) (rs2 rs1 rd : Reg)
  /-- `amominu.d rd, rs2, (rs1)` (R142). -/
  | amominuD (aq rl : Bool) (rs2 rs1 rd : Reg)
  /-- `amominu.w rd, rs2, (rs1)` (R143). -/
  | amominuW (aq rl : Bool) (rs2 rs1 rd : Reg)
  /-- `amoor.d rd, rs2, (rs1)` (R144). -/
  | amoorD (aq rl : Bool) (rs2 rs1 rd : Reg)
  /-- `amoor.w rd, rs2, (rs1)` (R145). -/
  | amoorW (aq rl : Bool) (rs2 rs1 rd : Reg)
  /-- `amoswap.d rd, rs2, (rs1)` (R146). -/
  | amoswapD (aq rl : Bool) (rs2 rs1 rd : Reg)
  /-- `amoswap.w rd, rs2, (rs1)` (R147). -/
  | amoswapW (aq rl : Bool) (rs2 rs1 rd : Reg)
  /-- `amoxor.d rd, rs2, (rs1)` (R148). -/
  | amoxorD (aq rl : Bool) (rs2 rs1 rd : Reg)
  /-- `amoxor.w rd, rs2, (rs1)` (R149). -/
  | amoxorW (aq rl : Bool) (rs2 rs1 rd : Reg)
  /-- `beq rs1, rs2, offset` (R161); `off` is offset[12:1]. -/
  | beq (rs1 rs2 : Reg) (off : BitVec 12)
  /-- `bge rs1, rs2, offset` (R162); `off` is offset[12:1]. -/
  | bge (rs1 rs2 : Reg) (off : BitVec 12)
  /-- `bgeu rs1, rs2, offset` (R163); `off` is offset[12:1]. -/
  | bgeu (rs1 rs2 : Reg) (off : BitVec 12)
  /-- `blt rs1, rs2, offset` (R164); `off` is offset[12:1]. -/
  | blt (rs1 rs2 : Reg) (off : BitVec 12)
  /-- `bltu rs1, rs2, offset` (R165); `off` is offset[12:1]. -/
  | bltu (rs1 rs2 : Reg) (off : BitVec 12)
  /-- `bne rs1, rs2, offset` (R166); `off` is offset[12:1]. -/
  | bne (rs1 rs2 : Reg) (off : BitVec 12)
  /-- `csrrc rd, csr, rs1` (R245). -/
  | csrrc (rd : Reg) (csr : BitVec 12) (rs1 : Reg)
  /-- `csrrci rd, csr, zimm[4:0]` (R246). -/
  | csrrci (rd : Reg) (csr : BitVec 12) (zimm : BitVec 5)
  /-- `csrrs rd, csr, rs1` (R247). -/
  | csrrs (rd : Reg) (csr : BitVec 12) (rs1 : Reg)
  /-- `csrrsi rd, csr, zimm[4:0]` (R248). -/
  | csrrsi (rd : Reg) (csr : BitVec 12) (zimm : BitVec 5)
  /-- `csrrw rd, csr, rs1` (R249). -/
  | csrrw (rd : Reg) (csr : BitVec 12) (rs1 : Reg)
  /-- `csrrwi rd, csr, zimm[4:0]` (R250). -/
  | csrrwi (rd : Reg) (csr : BitVec 12) (zimm : BitVec 5)
  /-- `div rd, rs1, rs2` (R261). -/
  | div (rd rs1 rs2 : Reg)
  /-- `divu rd, rs1, rs2` (R262). -/
  | divu (rd rs1 rs2 : Reg)
  /-- `divuw rd, rs1, rs2` (R263). -/
  | divuw (rd rs1 rs2 : Reg)
  /-- `divw rd, rs1, rs2` (R264). -/
  | divw (rd rs1 rs2 : Reg)
  /-- `ebreak` (R270). -/
  | ebreak
  /-- `ecall` (R271). -/
  | ecall
  /-- `c.addi4spn rd', uimm` (R184); `uimm` is uimm[9:2]. -/
  | cAddi4spn (rd : CReg) (uimm : BitVec 8)
  /-- `c.fld rd', uimm(rs1')` (R192); `uimm` is uimm[7:3]. -/
  | cFld (rd rs1 : CReg) (uimm : BitVec 5)
  /-- `c.lw rd', uimm(rs1')` (R218); `uimm` is uimm[6:2]. -/
  | cLw (rd rs1 : CReg) (uimm : BitVec 5)
  /-- `c.flw rd', uimm(rs1')` (R194); `uimm` is uimm[6:2]. -/
  | cFlw (rd rs1 : CReg) (uimm : BitVec 5)
  /-- `c.ld rd', uimm(rs1')` (R214); `uimm` is uimm[7:3]. -/
  | cLd (rd rs1 : CReg) (uimm : BitVec 5)
  /-- `c.fsd rs2', uimm(rs1')` (R196); `uimm` is uimm[7:3]. -/
  | cFsd (rs2 rs1 : CReg) (uimm : BitVec 5)
  /-- `c.sw rs2', uimm(rs1')` (R229); `uimm` is uimm[6:2]. -/
  | cSw (rs2 rs1 : CReg) (uimm : BitVec 5)
  /-- `c.fsw rs2', uimm(rs1')` (R198); `uimm` is uimm[6:2]. -/
  | cFsw (rs2 rs1 : CReg) (uimm : BitVec 5)
  /-- `c.sd rs2', uimm(rs1')` (R222); `uimm` is uimm[7:3]. -/
  | cSd (rs2 rs1 : CReg) (uimm : BitVec 5)
  /-- `c.addi rd, imm` (R182). -/
  | cAddi (rd : Reg) (imm : BitVec 6)
  /-- `c.jal offset` (R211); `off` is offset[11:1]. -/
  | cJal (off : BitVec 11)
  /-- `c.addiw rd, imm` (R185). -/
  | cAddiw (rd : Reg) (imm : BitVec 6)
  /-- `c.li rd, imm` (R216). -/
  | cLi (rd : Reg) (imm : BitVec 6)
  /-- `c.addi16sp imm` (R183); `imm` is imm[9:4]. -/
  | cAddi16sp (imm : BitVec 6)
  /-- `c.lui rd, imm` (R217); `imm` is imm[17:12]. -/
  | cLui (rd : Reg) (imm : BitVec 6)
  /-- `c.srli rd', uimm` (R226). -/
  | cSrli (rd : CReg) (uimm : BitVec 6)
  /-- `c.srai rd', uimm` (R225). -/
  | cSrai (rd : CReg) (uimm : BitVec 6)
  /-- `c.andi rd', imm` (R188). -/
  | cAndi (rd : CReg) (imm : BitVec 6)
  /-- `c.sub rd', rs2'` (R227). -/
  | cSub (rd rs2 : CReg)
  /-- `c.xor rd', rs2'` (R231). -/
  | cXor (rd rs2 : CReg)
  /-- `c.or rd', rs2'` (R221). -/
  | cOr (rd rs2 : CReg)
  /-- `c.and rd', rs2'` (R186). -/
  | cAnd (rd rs2 : CReg)
  /-- `c.subw rd', rs2'` (R228). -/
  | cSubw (rd rs2 : CReg)
  /-- `c.addw rd', rs2'` (R187). -/
  | cAddw (rd rs2 : CReg)
  /-- `c.j offset` (R210); `off` is offset[11:1]. -/
  | cJ (off : BitVec 11)
  /-- `c.beqz rs1', offset` (R189); `off` is offset[8:1]. -/
  | cBeqz (rs1 : CReg) (off : BitVec 8)
  /-- `c.bnez rs1', offset` (R190); `off` is offset[8:1]. -/
  | cBnez (rs1 : CReg) (off : BitVec 8)
  /-- `c.slli rd, uimm` (R224). -/
  | cSlli (rd : Reg) (uimm : BitVec 6)
  /-- `c.fldsp rd, uimm(x2)` (R193); `uimm` is uimm[8:3]. -/
  | cFldsp (rd : Reg) (uimm : BitVec 6)
  /-- `c.lwsp rd, uimm(x2)` (R219); `uimm` is uimm[7:2]. -/
  | cLwsp (rd : Reg) (uimm : BitVec 6)
  /-- `c.flwsp rd, uimm(x2)` (R195); `uimm` is uimm[7:2]. -/
  | cFlwsp (rd : Reg) (uimm : BitVec 6)
  /-- `c.ldsp rd, uimm(x2)` (R215); `uimm` is uimm[8:3]. -/
  | cLdsp (rd : Reg) (uimm : BitVec 6)
  /-- `c.jr rs1` (R213). -/
  | cJr (rs1 : Reg)
  /-- `c.mv rd, rs2` (R220). -/
  | cMv (rd rs2 : Reg)
  /-- `c.ebreak` (R191). -/
  | cEbreak
  /-- `c.jalr rs1` (R212). -/
  | cJalr (rs1 : Reg)
  /-- `c.add rd, rs2` (R181). -/
  | cAdd (rd rs2 : Reg)
  /-- `c.fsdsp rs2, uimm(x2)` (R197); `uimm` is uimm[8:3]. -/
  | cFsdsp (rs2 : Reg) (uimm : BitVec 6)
  /-- `c.swsp rs2, uimm(x2)` (R230); `uimm` is uimm[7:2]. -/
  | cSwsp (rs2 : Reg) (uimm : BitVec 6)
  /-- `c.fswsp rs2, uimm(x2)` (R199); `uimm` is uimm[7:2]. -/
  | cFswsp (rs2 : Reg) (uimm : BitVec 6)
  /-- `c.sdsp rs2, uimm(x2)` (R223); `uimm` is uimm[8:3]. -/
  | cSdsp (rs2 : Reg) (uimm : BitVec 6)
deriving DecidableEq, Repr

end Sys2Proof
end

