-- ==== Sys2Proof/Decode.lean ====
section
/-! DEFINITION. The decoder (30_encoding.md R80 to R108), total on every word and every byte list, rejecting by name,
and the encoder beside it, both written from the layouts of R81 to R99. `w.extractLsb' lo len` is the slice
`w[lo+len-1:lo]` of the spec; `a ++ b` is `{a, b}`. -/

namespace Sys2Proof

/-- What the decoder answers (30_encoding.md R108). -/
inductive Decoded where
  /-- Exactly one row matches. -/
  | instr (i : Instr)
  /-- A word the source calls illegal and that no other entry claims (R101). -/
  | illegal
  /-- A word without meaning in this spec (R104). -/
  | notInSpec
deriving DecidableEq, Repr

/-! ## Presence under (XLEN, EXT): the column "present when" of R100 and R102 -/

/-- XLEN = 64. -/
def Config.is64 (c : Config) : Bool := c.xlen == .rv64

/-- XLEN = 32. -/
def Config.is32 (c : Config) : Bool := c.xlen == .rv32

/-- Whether the instruction is present under the configuration (R100, R102, 00_scope.md R2). -/
def Instr.present (c : Config) : Instr → Bool
  | .add _ _ _ | .addi _ _ _ | .and _ _ _ | .andi _ _ _ | .auipc _ _ => true
  | .addiw _ _ _ | .addw _ _ _ => c.is64
  | .amoaddD _ _ _ _ _ | .amoandD _ _ _ _ _ | .amomaxD _ _ _ _ _ | .amomaxuD _ _ _ _ _ | .amominD _ _ _ _ _
  | .amominuD _ _ _ _ _ | .amoorD _ _ _ _ _ | .amoswapD _ _ _ _ _ | .amoxorD _ _ _ _ _ => c.ext.a && c.is64
  | .amoaddW _ _ _ _ _ | .amoandW _ _ _ _ _ | .amomaxW _ _ _ _ _ | .amomaxuW _ _ _ _ _ | .amominW _ _ _ _ _
  | .amominuW _ _ _ _ _ | .amoorW _ _ _ _ _ | .amoswapW _ _ _ _ _ | .amoxorW _ _ _ _ _ => c.ext.a
  | .beq _ _ _ | .bge _ _ _ | .bgeu _ _ _ | .blt _ _ _ | .bltu _ _ _ | .bne _ _ _ => true
  | .csrrc _ _ _ | .csrrci _ _ _ | .csrrs _ _ _ | .csrrsi _ _ _ | .csrrw _ _ _ | .csrrwi _ _ _ => true
  | .div _ _ _ | .divu _ _ _ => c.ext.m
  | .divuw _ _ _ | .divw _ _ _ => c.ext.m && c.is64
  | .ebreak | .ecall => true
  | .cFld _ _ _ | .cFsd _ _ _ | .cFldsp _ _ | .cFsdsp _ _ => c.ext.c && c.ext.d
  | .cFlw _ _ _ | .cFsw _ _ _ | .cFlwsp _ _ | .cFswsp _ _ => c.ext.c && c.ext.f && c.is32
  | .cJal _ => c.ext.c && c.is32
  | .cLd _ _ _ | .cSd _ _ _ | .cLdsp _ _ | .cSdsp _ _ | .cAddiw _ _ | .cSubw _ _ | .cAddw _ _ => c.ext.c && c.is64
  | .cAddi4spn _ _ | .cLw _ _ _ | .cSw _ _ _ | .cAddi _ _ | .cLi _ _ | .cAddi16sp _ | .cLui _ _ | .cSrli _ _
  | .cSrai _ _ | .cAndi _ _ | .cSub _ _ | .cXor _ _ | .cOr _ _ | .cAnd _ _ | .cJ _ | .cBeqz _ _ | .cBnez _ _
  | .cSlli _ _ | .cLwsp _ _ | .cJr _ | .cMv _ _ | .cEbreak | .cJalr _ | .cAdd _ _ | .cSwsp _ _ => c.ext.c

/-! ## The 32-bit instructions (R81 to R86, R96 to R100) -/

/-- Opcodes 0110011 and 0111011: R-type (R81). -/
def decodeRegReg (op32 : Bool) (f7 : BitVec 7) (f3 : BitVec 3) (rd rs1 rs2 : Reg) : Option Instr :=
  if f7 = 0b0000000#7 then
    if f3 = 0b000#3 then some (if op32 then .addw rd rs1 rs2 else .add rd rs1 rs2)
    else if f3 = 0b111#3 ∧ op32 = false then some (.and rd rs1 rs2)
    else none
  else if f7 = 0b0000001#7 then
    if f3 = 0b100#3 then some (if op32 then .divw rd rs1 rs2 else .div rd rs1 rs2)
    else if f3 = 0b101#3 then some (if op32 then .divuw rd rs1 rs2 else .divu rd rs1 rs2)
    else none
  else none

/-- Opcode 0101111: the AMOs (R82); funct3 010 is `.w`, 011 is `.d`. -/
def decodeAmo (f5 : BitVec 5) (aq rl : Bool) (rs2 rs1 : Reg) (f3 : BitVec 3) (rd : Reg) : Option Instr :=
  if f3 = 0b010#3 then
    if f5 = 0b00000#5 then some (.amoaddW aq rl rs2 rs1 rd)
    else if f5 = 0b00001#5 then some (.amoswapW aq rl rs2 rs1 rd)
    else if f5 = 0b00100#5 then some (.amoxorW aq rl rs2 rs1 rd)
    else if f5 = 0b01000#5 then some (.amoorW aq rl rs2 rs1 rd)
    else if f5 = 0b01100#5 then some (.amoandW aq rl rs2 rs1 rd)
    else if f5 = 0b10000#5 then some (.amominW aq rl rs2 rs1 rd)
    else if f5 = 0b10100#5 then some (.amomaxW aq rl rs2 rs1 rd)
    else if f5 = 0b11000#5 then some (.amominuW aq rl rs2 rs1 rd)
    else if f5 = 0b11100#5 then some (.amomaxuW aq rl rs2 rs1 rd)
    else none
  else if f3 = 0b011#3 then
    if f5 = 0b00000#5 then some (.amoaddD aq rl rs2 rs1 rd)
    else if f5 = 0b00001#5 then some (.amoswapD aq rl rs2 rs1 rd)
    else if f5 = 0b00100#5 then some (.amoxorD aq rl rs2 rs1 rd)
    else if f5 = 0b01000#5 then some (.amoorD aq rl rs2 rs1 rd)
    else if f5 = 0b01100#5 then some (.amoandD aq rl rs2 rs1 rd)
    else if f5 = 0b10000#5 then some (.amominD aq rl rs2 rs1 rd)
    else if f5 = 0b10100#5 then some (.amomaxD aq rl rs2 rs1 rd)
    else if f5 = 0b11000#5 then some (.amominuD aq rl rs2 rs1 rd)
    else if f5 = 0b11100#5 then some (.amomaxuD aq rl rs2 rs1 rd)
    else none
  else none

/-- Opcode 1100011: the branches (R86); `off` is offset[12:1]. -/
def decodeBranch (f3 : BitVec 3) (rs1 rs2 : Reg) (off : BitVec 12) : Option Instr :=
  if f3 = 0b000#3 then some (.beq rs1 rs2 off)
  else if f3 = 0b001#3 then some (.bne rs1 rs2 off)
  else if f3 = 0b100#3 then some (.blt rs1 rs2 off)
  else if f3 = 0b101#3 then some (.bge rs1 rs2 off)
  else if f3 = 0b110#3 then some (.bltu rs1 rs2 off)
  else if f3 = 0b111#3 then some (.bgeu rs1 rs2 off)
  else none

/-- Opcode 1110011: csrr*, ecall, ebreak (R84); every other word of funct3 000 and 100 has no entry (47_environment.md
R272). -/
def decodeSystem (csr : BitVec 12) (rs1 : Reg) (f3 : BitVec 3) (rd : Reg) : Option Instr :=
  if f3 = 0b000#3 then
    if rs1 = 0 ∧ rd = 0 ∧ csr = 0 then some .ecall
    else if rs1 = 0 ∧ rd = 0 ∧ csr = 1 then some .ebreak
    else none
  else if f3 = 0b001#3 then some (.csrrw rd csr rs1)
  else if f3 = 0b010#3 then some (.csrrs rd csr rs1)
  else if f3 = 0b011#3 then some (.csrrc rd csr rs1)
  else if f3 = 0b101#3 then some (.csrrwi rd csr rs1)
  else if f3 = 0b110#3 then some (.csrrsi rd csr rs1)
  else if f3 = 0b111#3 then some (.csrrci rd csr rs1)
  else none

/-- The row of R100 that a 32-bit word matches, presence apart. -/
def decode32 (w : BitVec 32) : Option Instr :=
  let op := w.extractLsb' 0 7
  let rd := w.extractLsb' 7 5
  let f3 := w.extractLsb' 12 3
  let rs1 := w.extractLsb' 15 5
  let rs2 := w.extractLsb' 20 5
  let imm := w.extractLsb' 20 12
  if op = 0b0110011#7 then decodeRegReg false (w.extractLsb' 25 7) f3 rd rs1 rs2
  else if op = 0b0111011#7 then decodeRegReg true (w.extractLsb' 25 7) f3 rd rs1 rs2
  else if op = 0b0010011#7 then
    if f3 = 0b000#3 then some (.addi rd rs1 imm) else if f3 = 0b111#3 then some (.andi rd rs1 imm) else none
  else if op = 0b0011011#7 then
    if f3 = 0b000#3 then some (.addiw rd rs1 imm) else none
  else if op = 0b0010111#7 then some (.auipc rd (w.extractLsb' 12 20))
  else if op = 0b0101111#7 then
    decodeAmo (w.extractLsb' 27 5) (w.extractLsb' 26 1 == 1#1) (w.extractLsb' 25 1 == 1#1) rs2 rs1 f3 rd
  else if op = 0b1100011#7 then
    decodeBranch f3 rs1 rs2 (w.extractLsb' 31 1 ++ w.extractLsb' 7 1 ++ w.extractLsb' 25 6 ++ w.extractLsb' 8 4)
  else if op = 0b1110011#7 then decodeSystem imm rs1 f3 rd
  else none

/-! ## The 16-bit instructions (R87 to R95, R101, R102) -/

/-- uimm[7:3] of c.ld, c.sd, c.fld, c.fsd (R92). -/
def cDoubleImm (w : BitVec 16) : BitVec 5 := w.extractLsb' 5 2 ++ w.extractLsb' 10 3

/-- uimm[6:2] of c.lw, c.sw, c.flw, c.fsw (R92). -/
def cWordImm (w : BitVec 16) : BitVec 5 := w.extractLsb' 5 1 ++ w.extractLsb' 10 3 ++ w.extractLsb' 6 1

/-- imm[5:0] held in bit 12 and bits 6:2 (R92). -/
def cImm6 (w : BitVec 16) : BitVec 6 := w.extractLsb' 12 1 ++ w.extractLsb' 2 5

/-- offset[11:1] of c.j and c.jal (R92). -/
def cJumpOff (w : BitVec 16) : BitVec 11 :=
  w.extractLsb' 12 1 ++ w.extractLsb' 8 1 ++ w.extractLsb' 9 2 ++ w.extractLsb' 6 1 ++ w.extractLsb' 7 1
    ++ w.extractLsb' 2 1 ++ w.extractLsb' 11 1 ++ w.extractLsb' 3 3

/-- offset[8:1] of c.beqz and c.bnez (R92). -/
def cBranchOff (w : BitVec 16) : BitVec 8 :=
  w.extractLsb' 12 1 ++ w.extractLsb' 5 2 ++ w.extractLsb' 2 1 ++ w.extractLsb' 10 2 ++ w.extractLsb' 3 2

/-- uimm[9:2] of c.addi4spn (R90, R92). -/
def cAddi4spnImm (w : BitVec 16) : BitVec 8 :=
  w.extractLsb' 7 4 ++ w.extractLsb' 11 2 ++ w.extractLsb' 5 1 ++ w.extractLsb' 6 1

/-- imm[9:4] of c.addi16sp (R92). -/
def cAddi16spImm (w : BitVec 16) : BitVec 6 :=
  w.extractLsb' 12 1 ++ w.extractLsb' 3 2 ++ w.extractLsb' 5 1 ++ w.extractLsb' 2 1 ++ w.extractLsb' 6 1

/-- uimm[7:2] of c.lwsp and c.flwsp (R92). -/
def cLwspImm (w : BitVec 16) : BitVec 6 := w.extractLsb' 2 2 ++ w.extractLsb' 12 1 ++ w.extractLsb' 4 3

/-- uimm[8:3] of c.ldsp and c.fldsp (R92). -/
def cLdspImm (w : BitVec 16) : BitVec 6 := w.extractLsb' 2 3 ++ w.extractLsb' 12 1 ++ w.extractLsb' 5 2

/-- uimm[7:2] of c.swsp and c.fswsp (R92). -/
def cSwspImm (w : BitVec 16) : BitVec 6 := w.extractLsb' 7 2 ++ w.extractLsb' 9 4

/-- uimm[8:3] of c.sdsp and c.fsdsp (R92). -/
def cSdspImm (w : BitVec 16) : BitVec 6 := w.extractLsb' 7 3 ++ w.extractLsb' 10 3

/-- An instruction, unless the source calls the field value illegal (R101). -/
def unlessIllegal (bad : Bool) (i : Instr) : Decoded := if bad then .illegal else .instr i

/-- Quadrant 00 (R102). -/
def decodeQ0 (xl : XLen) (w : BitVec 16) : Decoded :=
  let f3 := w.extractLsb' 13 3
  let r2 := w.extractLsb' 2 3
  let r1 := w.extractLsb' 7 3
  if f3 = 0b000#3 then unlessIllegal (cAddi4spnImm w == 0) (.cAddi4spn r2 (cAddi4spnImm w))
  else if f3 = 0b001#3 then .instr (.cFld r2 r1 (cDoubleImm w))
  else if f3 = 0b010#3 then .instr (.cLw r2 r1 (cWordImm w))
  else if f3 = 0b011#3 then
    match xl with
    | .rv32 => .instr (.cFlw r2 r1 (cWordImm w))
    | .rv64 => .instr (.cLd r2 r1 (cDoubleImm w))
  else if f3 = 0b101#3 then .instr (.cFsd r2 r1 (cDoubleImm w))
  else if f3 = 0b110#3 then .instr (.cSw r2 r1 (cWordImm w))
  else if f3 = 0b111#3 then
    match xl with
    | .rv32 => .instr (.cFsw r2 r1 (cWordImm w))
    | .rv64 => .instr (.cSd r2 r1 (cDoubleImm w))
  else .notInSpec

/-- Quadrant 01, funct3 100: the CB arithmetic and CA shapes (R93, R94). -/
def decodeQ1Arith (w : BitVec 16) : Decoded :=
  let f2 := w.extractLsb' 10 2
  let rd := w.extractLsb' 7 3
  let rs2 := w.extractLsb' 2 3
  let g := w.extractLsb' 5 2
  if f2 = 0b00#2 then .instr (.cSrli rd (cImm6 w))
  else if f2 = 0b01#2 then .instr (.cSrai rd (cImm6 w))
  else if f2 = 0b10#2 then .instr (.cAndi rd (cImm6 w))
  else if w.extractLsb' 12 1 = 0#1 then
    if g = 0b00#2 then .instr (.cSub rd rs2)
    else if g = 0b01#2 then .instr (.cXor rd rs2)
    else if g = 0b10#2 then .instr (.cOr rd rs2)
    else .instr (.cAnd rd rs2)
  else if g = 0b00#2 then .instr (.cSubw rd rs2)
  else if g = 0b01#2 then .instr (.cAddw rd rs2)
  else .notInSpec

/-- Quadrant 01 (R102); funct3 011 with rd = 2 is c.addi16sp, not c.lui (90_conflicts.md C9). -/
def decodeQ1 (xl : XLen) (w : BitVec 16) : Decoded :=
  let f3 := w.extractLsb' 13 3
  let rd := w.extractLsb' 7 5
  let r1 := w.extractLsb' 7 3
  if f3 = 0b000#3 then .instr (.cAddi rd (cImm6 w))
  else if f3 = 0b001#3 then
    match xl with
    | .rv32 => .instr (.cJal (cJumpOff w))
    | .rv64 => unlessIllegal (rd == 0) (.cAddiw rd (cImm6 w))
  else if f3 = 0b010#3 then .instr (.cLi rd (cImm6 w))
  else if f3 = 0b011#3 then
    if rd = 2 then unlessIllegal (cAddi16spImm w == 0) (.cAddi16sp (cAddi16spImm w))
    else unlessIllegal (cImm6 w == 0) (.cLui rd (cImm6 w))
  else if f3 = 0b100#3 then decodeQ1Arith w
  else if f3 = 0b101#3 then .instr (.cJ (cJumpOff w))
  else if f3 = 0b110#3 then .instr (.cBeqz r1 (cBranchOff w))
  else .instr (.cBnez r1 (cBranchOff w))

/-- Quadrant 10 (R102). Funct3 100: rs2 = 0 is c.jr, c.jalr or c.ebreak, not c.mv or c.add (90_conflicts.md C8, C9). -/
def decodeQ2 (xl : XLen) (w : BitVec 16) : Decoded :=
  let f3 := w.extractLsb' 13 3
  let rd := w.extractLsb' 7 5
  let rs2 := w.extractLsb' 2 5
  if f3 = 0b000#3 then .instr (.cSlli rd (cImm6 w))
  else if f3 = 0b001#3 then .instr (.cFldsp rd (cLdspImm w))
  else if f3 = 0b010#3 then unlessIllegal (rd == 0) (.cLwsp rd (cLwspImm w))
  else if f3 = 0b011#3 then
    match xl with
    | .rv32 => .instr (.cFlwsp rd (cLwspImm w))
    | .rv64 => unlessIllegal (rd == 0) (.cLdsp rd (cLdspImm w))
  else if f3 = 0b100#3 then
    if w.extractLsb' 12 1 = 0#1 then
      if rs2 = 0 then unlessIllegal (rd == 0) (.cJr rd) else .instr (.cMv rd rs2)
    else if rs2 = 0 then
      if rd = 0 then .instr .cEbreak else .instr (.cJalr rd)
    else unlessIllegal (rd == 0) (.cAdd rd rs2)
  else if f3 = 0b101#3 then .instr (.cFsdsp rs2 (cSdspImm w))
  else if f3 = 0b110#3 then .instr (.cSwsp rs2 (cSwspImm w))
  else
    match xl with
    | .rv32 => .instr (.cFswsp rs2 (cSwspImm w))
    | .rv64 => .instr (.cSdsp rs2 (cSdspImm w))

/-- The row of R102 that a 16-bit word matches, or an illegal word of R101, presence apart. Quadrant 11 is no 16-bit
instruction (20_memory.md R56). -/
def decode16 (xl : XLen) (w : BitVec 16) : Decoded :=
  let q := w.extractLsb' 0 2
  if q = 0b00#2 then decodeQ0 xl w
  else if q = 0b01#2 then decodeQ1 xl w
  else if q = 0b10#2 then decodeQ2 xl w
  else .notInSpec

/-! ## Decode (R108) -/

/-- Keeps a row only where it is present, and an illegal word only where C is in EXT (R108). -/
def Decoded.restrict (c : Config) : Decoded → Decoded
  | .instr i => if i.present c then .instr i else .notInSpec
  | .illegal => if c.ext.c then .illegal else .notInSpec
  | .notInSpec => .notInSpec

/-- `Decode(w, ilen, XLEN, EXT)` of R108. -/
def decode (c : Config) : InstrWord → Decoded
  | .half w => (decode16 c.xlen w).restrict c
  | .full w => (match decode32 w with | some i => Decoded.instr i | none => Decoded.notInSpec).restrict c

/-! ## Bytes and words (20_memory.md R50, R56, R57) -/

/-- The 16-bit parcel of two bytes, the byte at the lower address first (R51). -/
def parcelOfBytes (b0 b1 : Byte) : BitVec 16 := b1 ++ b0

/-- Bits 1:0 of the first parcel tell the length: 11 is 32 bits, anything else 16 bits (R56). -/
def isLong (lo : BitVec 16) : Bool := lo.extractLsb' 0 2 == 0b11#2

/-- The instruction word at the start of a byte list, in the order of R57; none where bytes are missing. -/
def wordOfBytes : List Byte → Option InstrWord
  | b0 :: b1 :: rest =>
    if isLong (parcelOfBytes b0 b1) then
      match rest with
      | b2 :: b3 :: _ => some (.full (parcelOfBytes b2 b3 ++ parcelOfBytes b0 b1))
      | _ => none
    else some (.half (parcelOfBytes b0 b1))
  | _ => none

/-- The bytes of an instruction word, lowest address first (R50, R57). -/
def bytesOfWord : InstrWord → List Byte
  | .half w => [w.extractLsb' 0 8, w.extractLsb' 8 8]
  | .full w => [w.extractLsb' 0 8, w.extractLsb' 8 8, w.extractLsb' 16 8, w.extractLsb' 24 8]

/-- Decoding the bytes at the start of a list. -/
def decodeBytes (c : Config) (bs : List Byte) : Decoded :=
  match wordOfBytes bs with
  | some w => decode c w
  | none => .notInSpec

/-- The instruction that a byte list holds, if it holds one. -/
def instrOfBytes (c : Config) (bs : List Byte) : Option Instr :=
  match decodeBytes c bs with
  | .instr i => some i
  | .illegal => none
  | .notInSpec => none

/-- The four bytes that hold a table row's word of `nbits` bits, the bits above `nbits` zero. -/
def tableBytes (nbits w : Nat) : List Byte := bytesOfWord (.full (BitVec.ofNat 32 (w % 2 ^ nbits)))

/-- The configuration under which a table row's word is read: `c` where the word is an instruction of `c`, else the
reset configuration at XLEN = 64, else at XLEN = 32, where it is one there. DESIGN CHOICE (log 18): the table holds
rows of both widths (30_encoding.md R102, 90_conflicts.md C19). -/
def tableConfig (c : Config) (nbits w : Nat) : Config :=
  if (instrOfBytes c (tableBytes nbits w)).isSome then c
  else if (instrOfBytes Config.atReset (tableBytes nbits w)).isSome then
    { c with xlen := Config.atReset.xlen, ext := Config.atReset.ext }
  else if (instrOfBytes Config.atReset32 (tableBytes nbits w)).isSome then
    { c with xlen := Config.atReset32.xlen, ext := Config.atReset32.ext }
  else c

/-- The instruction the decoder reads from a table row's word. -/
def decodeTableWord (nbits w : Nat) : Option Instr :=
  instrOfBytes (tableConfig Config.atReset nbits w) (tableBytes nbits w)

/-! ## The encoder, from the same layouts -/

/-- R-type (R81). -/
def encR (f7 : BitVec 7) (rs2 rs1 : Reg) (f3 : BitVec 3) (rd : Reg) (op : BitVec 7) : InstrWord :=
  .full (f7 ++ rs2 ++ rs1 ++ f3 ++ rd ++ op)

/-- One bit of an encoding. -/
def bit1 (b : Bool) : BitVec 1 := if b then 1#1 else 0#1

/-- R-type of an AMO (R82). -/
def encAmo (f5 : BitVec 5) (aq rl : Bool) (rs2 rs1 : Reg) (f3 : BitVec 3) (rd : Reg) : InstrWord :=
  .full (f5 ++ bit1 aq ++ bit1 rl ++ rs2 ++ rs1 ++ f3 ++ rd ++ 0b0101111#7)

/-- I-type (R83, R84). -/
def encI (imm : BitVec 12) (rs1 : Reg) (f3 : BitVec 3) (rd : Reg) (op : BitVec 7) : InstrWord :=
  .full (imm ++ rs1 ++ f3 ++ rd ++ op)

/-- B-type (R86); bit k of `off` is offset[k+1]. -/
def encB (off : BitVec 12) (rs2 rs1 : Reg) (f3 : BitVec 3) : InstrWord :=
  .full (off.extractLsb' 11 1 ++ off.extractLsb' 4 6 ++ rs2 ++ rs1 ++ f3 ++ off.extractLsb' 0 4 ++ off.extractLsb' 10 1
    ++ 0b1100011#7)

/-- CR (R87). -/
def encCR (b12 : BitVec 1) (r1 r2 : Reg) : InstrWord := .half (0b100#3 ++ b12 ++ r1 ++ r2 ++ 0b10#2)

/-- CI with imm[5] in bit 12 and imm[4:0] in bits 6:2 (R88, R92). -/
def encCI (f3 : BitVec 3) (rd : Reg) (imm : BitVec 6) (q : BitVec 2) : InstrWord :=
  .half (f3 ++ imm.extractLsb' 5 1 ++ rd ++ imm.extractLsb' 0 5 ++ q)

/-- CI of c.addi16sp (R92); bit k of `imm` is imm[k+4]. -/
def encAddi16sp (imm : BitVec 6) : InstrWord :=
  .half (0b011#3 ++ imm.extractLsb' 5 1 ++ 0b00010#5 ++ imm.extractLsb' 0 1 ++ imm.extractLsb' 2 1 ++ imm.extractLsb' 3 2
    ++ imm.extractLsb' 1 1 ++ 0b01#2)

/-- CI of c.lwsp and c.flwsp (R92); bit k of `u` is uimm[k+2]. -/
def encLwsp (f3 : BitVec 3) (rd : Reg) (u : BitVec 6) : InstrWord :=
  .half (f3 ++ u.extractLsb' 3 1 ++ rd ++ u.extractLsb' 0 3 ++ u.extractLsb' 4 2 ++ 0b10#2)

/-- CI of c.ldsp and c.fldsp (R92); bit k of `u` is uimm[k+3]. -/
def encLdsp (f3 : BitVec 3) (rd : Reg) (u : BitVec 6) : InstrWord :=
  .half (f3 ++ u.extractLsb' 2 1 ++ rd ++ u.extractLsb' 0 2 ++ u.extractLsb' 3 3 ++ 0b10#2)

/-- CSS of c.swsp and c.fswsp (R89, R92). -/
def encSwsp (f3 : BitVec 3) (rs2 : Reg) (u : BitVec 6) : InstrWord :=
  .half (f3 ++ u.extractLsb' 0 4 ++ u.extractLsb' 4 2 ++ rs2 ++ 0b10#2)

/-- CSS of c.sdsp and c.fsdsp (R89, R92). -/
def encSdsp (f3 : BitVec 3) (rs2 : Reg) (u : BitVec 6) : InstrWord :=
  .half (f3 ++ u.extractLsb' 0 3 ++ u.extractLsb' 3 3 ++ rs2 ++ 0b10#2)

/-- CIW (R90); bit k of `u` is uimm[k+2]. -/
def encCIW (rd : CReg) (u : BitVec 8) : InstrWord :=
  .half (0b000#3 ++ u.extractLsb' 2 2 ++ u.extractLsb' 4 4 ++ u.extractLsb' 0 1 ++ u.extractLsb' 1 1 ++ rd ++ 0b00#2)

/-- CL and CS, word-sized (R91, R92); bit k of `u` is uimm[k+2]. -/
def encWordMem (f3 : BitVec 3) (r1 r2 : CReg) (u : BitVec 5) : InstrWord :=
  .half (f3 ++ u.extractLsb' 1 3 ++ r1 ++ u.extractLsb' 0 1 ++ u.extractLsb' 4 1 ++ r2 ++ 0b00#2)

/-- CL and CS, doubleword-sized (R91, R92); bit k of `u` is uimm[k+3]. -/
def encDoubleMem (f3 : BitVec 3) (r1 r2 : CReg) (u : BitVec 5) : InstrWord :=
  .half (f3 ++ u.extractLsb' 0 3 ++ r1 ++ u.extractLsb' 3 2 ++ r2 ++ 0b00#2)

/-- CA (R93). -/
def encCA (f6 : BitVec 6) (rd : CReg) (f2 : BitVec 2) (rs2 : CReg) : InstrWord :=
  .half (f6 ++ rd ++ f2 ++ rs2 ++ 0b01#2)

/-- CB, arithmetic shape (R94). -/
def encCBArith (f2 : BitVec 2) (rd : CReg) (imm : BitVec 6) : InstrWord :=
  .half (0b100#3 ++ imm.extractLsb' 5 1 ++ f2 ++ rd ++ imm.extractLsb' 0 5 ++ 0b01#2)

/-- CB, branch shape (R94, R92); bit k of `off` is offset[k+1]. -/
def encCBBranch (f3 : BitVec 3) (rs1 : CReg) (off : BitVec 8) : InstrWord :=
  .half (f3 ++ off.extractLsb' 7 1 ++ off.extractLsb' 2 2 ++ rs1 ++ off.extractLsb' 5 2 ++ off.extractLsb' 0 2
    ++ off.extractLsb' 4 1 ++ 0b01#2)

/-- CJ (R95, R92); bit k of `off` is offset[k+1]. -/
def encCJ (f3 : BitVec 3) (off : BitVec 11) : InstrWord :=
  .half (f3 ++ off.extractLsb' 10 1 ++ off.extractLsb' 3 1 ++ off.extractLsb' 7 2 ++ off.extractLsb' 9 1
    ++ off.extractLsb' 5 1 ++ off.extractLsb' 6 1 ++ off.extractLsb' 0 3 ++ off.extractLsb' 4 1 ++ 0b01#2)

/-- The word of an instruction (R100, R102). -/
def encode : Instr → InstrWord
  | .add rd rs1 rs2 => encR 0b0000000 rs2 rs1 0b000 rd 0b0110011
  | .addi rd rs1 imm => encI imm rs1 0b000 rd 0b0010011
  | .addiw rd rs1 imm => encI imm rs1 0b000 rd 0b0011011
  | .addw rd rs1 rs2 => encR 0b0000000 rs2 rs1 0b000 rd 0b0111011
  | .and rd rs1 rs2 => encR 0b0000000 rs2 rs1 0b111 rd 0b0110011
  | .andi rd rs1 imm => encI imm rs1 0b111 rd 0b0010011
  | .auipc rd imm => .full (imm ++ rd ++ 0b0010111#7)
  | .amoaddD aq rl rs2 rs1 rd => encAmo 0b00000 aq rl rs2 rs1 0b011 rd
  | .amoaddW aq rl rs2 rs1 rd => encAmo 0b00000 aq rl rs2 rs1 0b010 rd
  | .amoandD aq rl rs2 rs1 rd => encAmo 0b01100 aq rl rs2 rs1 0b011 rd
  | .amoandW aq rl rs2 rs1 rd => encAmo 0b01100 aq rl rs2 rs1 0b010 rd
  | .amomaxD aq rl rs2 rs1 rd => encAmo 0b10100 aq rl rs2 rs1 0b011 rd
  | .amomaxW aq rl rs2 rs1 rd => encAmo 0b10100 aq rl rs2 rs1 0b010 rd
  | .amomaxuD aq rl rs2 rs1 rd => encAmo 0b11100 aq rl rs2 rs1 0b011 rd
  | .amomaxuW aq rl rs2 rs1 rd => encAmo 0b11100 aq rl rs2 rs1 0b010 rd
  | .amominD aq rl rs2 rs1 rd => encAmo 0b10000 aq rl rs2 rs1 0b011 rd
  | .amominW aq rl rs2 rs1 rd => encAmo 0b10000 aq rl rs2 rs1 0b010 rd
  | .amominuD aq rl rs2 rs1 rd => encAmo 0b11000 aq rl rs2 rs1 0b011 rd
  | .amominuW aq rl rs2 rs1 rd => encAmo 0b11000 aq rl rs2 rs1 0b010 rd
  | .amoorD aq rl rs2 rs1 rd => encAmo 0b01000 aq rl rs2 rs1 0b011 rd
  | .amoorW aq rl rs2 rs1 rd => encAmo 0b01000 aq rl rs2 rs1 0b010 rd
  | .amoswapD aq rl rs2 rs1 rd => encAmo 0b00001 aq rl rs2 rs1 0b011 rd
  | .amoswapW aq rl rs2 rs1 rd => encAmo 0b00001 aq rl rs2 rs1 0b010 rd
  | .amoxorD aq rl rs2 rs1 rd => encAmo 0b00100 aq rl rs2 rs1 0b011 rd
  | .amoxorW aq rl rs2 rs1 rd => encAmo 0b00100 aq rl rs2 rs1 0b010 rd
  | .beq rs1 rs2 off => encB off rs2 rs1 0b000
  | .bge rs1 rs2 off => encB off rs2 rs1 0b101
  | .bgeu rs1 rs2 off => encB off rs2 rs1 0b111
  | .blt rs1 rs2 off => encB off rs2 rs1 0b100
  | .bltu rs1 rs2 off => encB off rs2 rs1 0b110
  | .bne rs1 rs2 off => encB off rs2 rs1 0b001
  | .csrrc rd csr rs1 => encI csr rs1 0b011 rd 0b1110011
  | .csrrci rd csr zimm => encI csr zimm 0b111 rd 0b1110011
  | .csrrs rd csr rs1 => encI csr rs1 0b010 rd 0b1110011
  | .csrrsi rd csr zimm => encI csr zimm 0b110 rd 0b1110011
  | .csrrw rd csr rs1 => encI csr rs1 0b001 rd 0b1110011
  | .csrrwi rd csr zimm => encI csr zimm 0b101 rd 0b1110011
  | .div rd rs1 rs2 => encR 0b0000001 rs2 rs1 0b100 rd 0b0110011
  | .divu rd rs1 rs2 => encR 0b0000001 rs2 rs1 0b101 rd 0b0110011
  | .divuw rd rs1 rs2 => encR 0b0000001 rs2 rs1 0b101 rd 0b0111011
  | .divw rd rs1 rs2 => encR 0b0000001 rs2 rs1 0b100 rd 0b0111011
  | .ebreak => encI 1 0 0b000 0 0b1110011
  | .ecall => encI 0 0 0b000 0 0b1110011
  | .cAddi4spn rd uimm => encCIW rd uimm
  | .cFld rd rs1 uimm => encDoubleMem 0b001 rs1 rd uimm
  | .cLw rd rs1 uimm => encWordMem 0b010 rs1 rd uimm
  | .cFlw rd rs1 uimm => encWordMem 0b011 rs1 rd uimm
  | .cLd rd rs1 uimm => encDoubleMem 0b011 rs1 rd uimm
  | .cFsd rs2 rs1 uimm => encDoubleMem 0b101 rs1 rs2 uimm
  | .cSw rs2 rs1 uimm => encWordMem 0b110 rs1 rs2 uimm
  | .cFsw rs2 rs1 uimm => encWordMem 0b111 rs1 rs2 uimm
  | .cSd rs2 rs1 uimm => encDoubleMem 0b111 rs1 rs2 uimm
  | .cAddi rd imm => encCI 0b000 rd imm 0b01
  | .cJal off => encCJ 0b001 off
  | .cAddiw rd imm => encCI 0b001 rd imm 0b01
  | .cLi rd imm => encCI 0b010 rd imm 0b01
  | .cAddi16sp imm => encAddi16sp imm
  | .cLui rd imm => encCI 0b011 rd imm 0b01
  | .cSrli rd uimm => encCBArith 0b00 rd uimm
  | .cSrai rd uimm => encCBArith 0b01 rd uimm
  | .cAndi rd imm => encCBArith 0b10 rd imm
  | .cSub rd rs2 => encCA 0b100011 rd 0b00 rs2
  | .cXor rd rs2 => encCA 0b100011 rd 0b01 rs2
  | .cOr rd rs2 => encCA 0b100011 rd 0b10 rs2
  | .cAnd rd rs2 => encCA 0b100011 rd 0b11 rs2
  | .cSubw rd rs2 => encCA 0b100111 rd 0b00 rs2
  | .cAddw rd rs2 => encCA 0b100111 rd 0b01 rs2
  | .cJ off => encCJ 0b101 off
  | .cBeqz rs1 off => encCBBranch 0b110 rs1 off
  | .cBnez rs1 off => encCBBranch 0b111 rs1 off
  | .cSlli rd uimm => encCI 0b000 rd uimm 0b10
  | .cFldsp rd uimm => encLdsp 0b001 rd uimm
  | .cLwsp rd uimm => encLwsp 0b010 rd uimm
  | .cFlwsp rd uimm => encLwsp 0b011 rd uimm
  | .cLdsp rd uimm => encLdsp 0b011 rd uimm
  | .cJr rs1 => encCR 0b0 rs1 0
  | .cMv rd rs2 => encCR 0b0 rd rs2
  | .cEbreak => encCR 0b1 0 0
  | .cJalr rs1 => encCR 0b1 rs1 0
  | .cAdd rd rs2 => encCR 0b1 rd rs2
  | .cFsdsp rs2 uimm => encSdsp 0b101 rs2 uimm
  | .cSwsp rs2 uimm => encSwsp 0b110 rs2 uimm
  | .cFswsp rs2 uimm => encSwsp 0b111 rs2 uimm
  | .cSdsp rs2 uimm => encSdsp 0b111 rs2 uimm

end Sys2Proof
end

