-- ==== Sys2Proof/Machine/State.lean ====
section
/-! DEFINITION. The state of the machine (10_state.md R20 to R36), the reasons a step can stop, and the state after
reset. -/

namespace Sys2Proof.Machine

/-- The exceptions with their information values (60_exceptions.md R280). No other exists. -/
inductive Exception where
  /-- A fetch at, or a taken branch to, an address that is not a multiple of IALIGN/8 (20_memory.md R58). -/
  | instructionAddressMisaligned (target : Word)
  /-- `mem_admit(addr, 2, fetch)` is false (20_memory.md R52, R57). -/
  | instructionAccessFault (addr : Word)
  /-- An illegal word, or a CSR access that csr_model does not allow (60_exceptions.md R281). -/
  | illegalInstruction (bits : Word)
  /-- ebreak and c.ebreak (47_environment.md R270); the address of the instruction. -/
  | breakpoint (pc : Word)
  /-- A load at an address that is not a multiple of its size (20_memory.md R55). -/
  | loadAddressMisaligned (addr : Word)
  /-- `mem_admit(addr, n, load)` is false. -/
  | loadAccessFault (addr : Word)
  /-- A store or AMO at an address that is not a multiple of its size. -/
  | storeAMOAddressMisaligned (addr : Word)
  /-- `mem_admit(addr, n, store or amo)` is false. -/
  | storeAMOAccessFault (addr : Word)
  /-- ecall (47_environment.md R271). -/
  | environmentCall
deriving DecidableEq, Repr

/-- Why a step ends the run with a fault. -/
inductive Fault where
  /-- Raised by `raise` when env answers Stop: the step's outcome is `Trap(E, info, state)` with the state before the
  instruction, and the run ends (60_exceptions.md R282, R283). Safe: nothing is claimed of what follows. -/
  | trap (e : Exception)
deriving DecidableEq, Repr

/-- Why a step is refused: the spec does not know the behaviour (00_scope.md R9). -/
inductive Refusal where
  /-- Raised by exec for an instruction that has no meaning yet; no arm does. Safe. -/
  | notModelled (mnemonic : String)
  /-- Raised for a word that matches no row present under (XLEN, EXT) and is no illegal word (30_encoding.md R104).
  Safe. -/
  | notInSpec (word : InstrWord)
  /-- Raised by a store or AMO, or an answer of env, into code_region (20_memory.md R67). Safe. -/
  | storeToCode
  /-- Raised by a fetch outside code_region (20_memory.md R67). Safe. -/
  | fetchOutsideCode
  /-- Raised by c.slli, c.srli, c.srai with uimm[5] = 1 at XLEN = 32 (30_encoding.md R103). Safe. -/
  | shiftAmountTooWide
  /-- Raised by a pseudo-instruction's effect only, never by exec: a call with rd = x0 or out of reach
  (45_call_and_csr.md R240), fabs without its extension (48_fp_pseudo.md R275, R276). Safe. -/
  | noPseudoMeaning
deriving DecidableEq, Repr

/-- A new state as the writes that make it from the old one; the last write to a place counts. -/
structure Writes where
  x : List (Reg × Word)
  f : List (Reg × Word)
  csrs : List (BitVec 12 × Word)
  mem : List (Word × Byte)
deriving DecidableEq, Repr

/-- One answer `Continue(state')` of env (60_exceptions.md R283): the writes that make state' from the state of the trap,
and the pc to go on at. -/
structure EnvAnswer extends Writes where
  pc : Word
deriving DecidableEq, Repr

/-- The state: the tuple `(x, pc, f, CSRs, M)` of 10_state.md, then the model's own fields (log 1, 23). -/
structure State where
  /-- The integer registers (R20); slot 0 is never read and never written (R21). -/
  x : Vector Word 32
  /-- The program counter (R25). -/
  pc : Word
  /-- The floating-point registers (R32). -/
  f : Vector Word 32
  /-- The CSR file (R30): addresses rising, no entry zero, an unlisted CSR holds zero. -/
  csrs : List (Nat × Word)
  /-- The memory (R34): addresses rising, no entry zero, an unlisted byte is zero (log 10). -/
  mem : List Host.Cell
  /-- MODEL's own: how many accesses CSRs with functions of their own have had; read by those functions only. -/
  tick : Nat
  /-- MODEL's own: the parameters (00_scope.md R5), which no step changes. -/
  cfg : Config
deriving DecidableEq, Repr

/-- The state after reset (10_state.md R36): pc at RESET_PC, x[0] zero, and DESIGN CHOICE (log 7 to 10), unsafe: zero
in every register, CSR and byte, which the spec leaves unspecified. No program is loaded (log 5). -/
def State.reset : State :=
  { x := Vector.replicate 32 0
    pc := Config.atReset.resetPc
    f := Vector.replicate 32 0
    csrs := []
    mem := []
    tick := 0
    cfg := Config.atReset }

/-- The state as the parameters that are functions of it see it: the spec's tuple with its values narrowed to their
widths, and the count of accesses. It holds no parameter. -/
structure View where
  xlen : XLen
  x : List Word
  pc : Word
  f : List Word
  csrs : List (Nat × Word)
  mem : List Host.Cell
  tick : Nat
deriving DecidableEq, Repr

/-- The outcome of a step. -/
abbrev Out := Host.Outcome State Fault Refusal

end Sys2Proof.Machine

namespace Sys2Proof

/-- FREE VALUE (log 23): what a function of the platform that no term describes gives for two arguments and the whole
state. -/
opaque Config.platformValue (id : Nat) (a b : Word) (v : Machine.View) : Word

end Sys2Proof
end

