-- ==== Sys2Proof/Machine/Operands.lean ====
section
/-! DEFINITION. XLEN-bit values and the operand forms: narrowing, extension, XLEN-wide operations, primed registers,
immediates (00_scope.md R7, 30_encoding.md R92, R96 to R99). -/

namespace Sys2Proof.Machine

/-- The low XLEN bits of a container, the rest zero. -/
def wrap (xl : XLen) (v : Word) : Word :=
  match xl with
  | .rv32 => (v.setWidth 32).setWidth 64
  | .rv64 => v

/-- `sext_XLEN(v)` (00_scope.md R7). -/
def sextX (xl : XLen) {k : Nat} (v : BitVec k) : Word :=
  match xl with
  | .rv32 => (v.signExtend 32).setWidth 64
  | .rv64 => v.signExtend 64

/-- An operation on two XLEN-bit values, done at width XLEN. -/
def onX (xl : XLen) (op : (w : Nat) → BitVec w → BitVec w → BitVec w) (a b : Word) : Word :=
  match xl with
  | .rv32 => (op 32 (a.setWidth 32) (b.setWidth 32)).setWidth 64
  | .rv64 => op 64 a b

/-- A comparison of two XLEN-bit values, done at width XLEN. -/
def testX (xl : XLen) (p : (w : Nat) → BitVec w → BitVec w → Bool) (a b : Word) : Bool :=
  match xl with
  | .rv32 => p 32 (a.setWidth 32) (b.setWidth 32)
  | .rv64 => p 64 a b

/-- `a + b` modulo 2^XLEN (10_state.md R27, 40_integer_computational.md R120). -/
def addX (xl : XLen) (a b : Word) : Word := onX xl (fun _ a b => a + b) a b

/-- `a - b` modulo 2^XLEN. -/
def subX (xl : XLen) (a b : Word) : Word := onX xl (fun _ a b => a - b) a b

/-- `a & b`. -/
def andX (xl : XLen) (a b : Word) : Word := onX xl (fun _ a b => a &&& b) a b

/-- `a | b`. -/
def orX (xl : XLen) (a b : Word) : Word := onX xl (fun _ a b => a ||| b) a b

/-- `a ^ b`. -/
def xorX (xl : XLen) (a b : Word) : Word := onX xl (fun _ a b => a ^^^ b) a b

/-- `a & ~b`, the new value of csrrc and csrrci (45_call_and_csr.md R245, R246). -/
def andNotX (xl : XLen) (a b : Word) : Word := onX xl (fun _ a b => a &&& ~~~b) a b

/-- `a << n` (00_scope.md R7). -/
def shlX (xl : XLen) (n : Nat) (a : Word) : Word := onX xl (fun _ a _ => a <<< n) a 0

/-- `a >>u n`. -/
def shrX (xl : XLen) (n : Nat) (a : Word) : Word := onX xl (fun _ a _ => a >>> n) a 0

/-- `a >>s n`. -/
def sarX (xl : XLen) (n : Nat) (a : Word) : Word := onX xl (fun _ a _ => a.sshiftRight n) a 0

/-- `sext_XLEN(v[31:0])`: the result of the `w` forms, of 32-bit loads and of `.w` AMOs. -/
def sextWord (xl : XLen) (v : Word) : Word := sextX xl (v.setWidth 32)

/-- Clears bit 0: the target of c.jr and c.jalr (44_compressed_2.md R212, R213). -/
def clearBit0 (v : Word) : Word := v &&& ~~~1#64

/-! ## Registers -/

/-- The register a primed field names, 8 + field (10_state.md R23). -/
def creg (r : CReg) : Reg := 0b01#2 ++ r

/-- The stack pointer x[2] (10_state.md R22). -/
def spReg : Reg := 2

/-- The link register x[1] of c.jal and c.jalr (10_state.md R22). -/
def linkReg : Reg := 1

/-! ## Immediates, extended and scaled -/

/-- I-type immediate (R96), and any sign-extended immediate without scale (R92). -/
def immI (xl : XLen) {k : Nat} (imm : BitVec k) : Word := sextX xl imm

/-- U-type immediate (R97): the 20 bits at bits 31:12, sign-extended. -/
def immU (xl : XLen) (imm : BitVec 20) : Word := sextX xl (imm ++ 0#12)

/-- B-type offset (R98), and the offsets of c.beqz, c.bnez, c.j, c.jal (R92): bit 0 is zero. -/
def offset (xl : XLen) {k : Nat} (off : BitVec k) : Word := sextX xl (off ++ 0#1)

/-- `zimm`, zero-extended (R99). -/
def zimmX (zimm : BitVec 5) : Word := zimm.setWidth 64

/-- imm of c.addi16sp (R92): imm[9:4] << 4, sign-extended. -/
def immAddi16sp (xl : XLen) (imm : BitVec 6) : Word := sextX xl (imm ++ 0#4)

/-- imm of c.lui (R92, 44_compressed_2.md R217): imm[17:12] << 12, sign-extended from bit 17. -/
def immCLui (xl : XLen) (imm : BitVec 6) : Word := sextX xl (imm ++ 0#12)

/-- A word-scaled uimm (R92): the field << 2, zero-extended. -/
def uimm4 {k : Nat} (u : BitVec k) : Word := (u ++ 0#2).setWidth 64

/-- A doubleword-scaled uimm (R92): the field << 3, zero-extended. -/
def uimm8 {k : Nat} (u : BitVec k) : Word := (u ++ 0#3).setWidth 64

end Sys2Proof.Machine
end

