-- ==== Sys2Proof/Machine/Flags.lean ====
section
/-! DEFINITION. There are no flags and no condition codes (10_state.md R29): every conditional instruction compares two
values itself. The comparisons of the branches (42_branches.md R160 to R166), at any width; MIN and MAX of the AMOs use
the same four (41_atomics.md R130). -/

namespace Sys2Proof.Machine

/-- `a == b`. -/
def cmpEq (w : Nat) (a b : BitVec w) : Bool := decide (a = b)

/-- `a != b`. -/
def cmpNe (w : Nat) (a b : BitVec w) : Bool := !cmpEq w a b

/-- `a <s b`, both read as two's complement. -/
def cmpLt (w : Nat) (a b : BitVec w) : Bool := decide (a.toInt < b.toInt)

/-- `a >=s b`. -/
def cmpGe (w : Nat) (a b : BitVec w) : Bool := decide (b.toInt ≤ a.toInt)

/-- `a <u b`, both read as unsigned. -/
def cmpLtu (w : Nat) (a b : BitVec w) : Bool := decide (a.toNat < b.toNat)

/-- `a >=u b`. -/
def cmpGeu (w : Nat) (a b : BitVec w) : Bool := decide (b.toNat ≤ a.toNat)

end Sys2Proof.Machine
end

