-- ==== Sys2Proof/Machine/Sparse.lean ====
section
/-! DEFINITION. A finite map from addresses to values that are zero where nothing is listed, in one canonical form:
addresses strictly rising, no entry zero. The memory and the CSR file are two of them. -/

namespace Sys2Proof.Machine

/-- The value at an address: the entry's, or zero where none is listed. -/
def sparseRead {w : Nat} : List (Nat × BitVec w) → Nat → BitVec w
  | [], _ => 0
  | (k, v) :: rest, a => if k = a then v else sparseRead rest a

/-- The entry for an address in front of a map; none where the value is zero. -/
def sparseCons {w : Nat} (a : Nat) (v : BitVec w) (rest : List (Nat × BitVec w)) : List (Nat × BitVec w) :=
  if v = 0 then rest else (a, v) :: rest

/-- Stores a value at an address, keeping the canonical form: storing zero removes the entry. -/
def sparseWrite {w : Nat} : List (Nat × BitVec w) → Nat → BitVec w → List (Nat × BitVec w)
  | [], a, v => sparseCons a v []
  | (k, u) :: rest, a, v =>
    if a < k then sparseCons a v ((k, u) :: rest)
    else if a = k then sparseCons a v rest
    else (k, u) :: sparseWrite rest a v

/-- Every address of the map is above `lo`, addresses rise strictly, and no entry is zero. -/
def sparseAbove {w : Nat} : Nat → List (Nat × BitVec w) → Bool
  | _, [] => true
  | lo, (k, v) :: rest => decide (lo < k) && v != 0 && sparseAbove k rest

/-- The canonical form. -/
def sparseWf {w : Nat} : List (Nat × BitVec w) → Bool
  | [] => true
  | (k, v) :: rest => v != 0 && sparseAbove k rest

/-- Every address of the map is below a bound. -/
def sparseBelow {w : Nat} (bound : Nat) (m : List (Nat × BitVec w)) : Bool := m.all fun e => decide (e.1 < bound)

/-- The canonical form of the memory (log 10). -/
def Memory.wf (m : List Host.Cell) : Bool := sparseWf m

end Sys2Proof.Machine
end

