-- ==== Sys2Proof/Machine/Functions.lean ====
section
/-! DEFINITION. The evaluation of the parameters that are functions (00_scope.md R5): terms of the state for csr_model and
env, results of div_spec. -/

namespace Sys2Proof.Machine

/-- 1 for true, 0 for false. -/
def flagWord (b : Bool) : Word := if b then 1 else 0

/-- The operations of a term. -/
def fnOp (o : FnOp) (a b : Word) : Word :=
  match o with
  | .add => a + b
  | .sub => a - b
  | .and => a &&& b
  | .or => a ||| b
  | .xor => a ^^^ b
  | .shiftLeft => a <<< b.toNat
  | .shiftRight => a >>> b.toNat
  | .eq => flagWord (a == b)
  | .less => flagWord (decide (a.toNat < b.toNat))

/-- The value of a term in a state, with the function's arguments; an argument it does not have is zero. -/
def fnValue (v : View) (args : List Word) : StateFn → Word
  | .const w => w
  | .arg n => args.getD n 0
  | .x r => if r = 0 then 0 else v.x.getD r.toNat 0
  | .pc => v.pc
  | .f r => v.f.getD r.toNat 0
  | .csr a => sparseRead v.csrs ((fnValue v args a).setWidth 12).toNat
  | .byte a => (sparseRead v.mem (wrap v.xlen (fnValue v args a)).toNat).setWidth 64
  | .tick => BitVec.ofNat 64 v.tick
  | .op o a b => fnOp o (fnValue v args a) (fnValue v args b)
  | .cond c a b => if fnValue v args c = 0 then fnValue v args b else fnValue v args a
  | .platform id a b => Config.platformValue id (fnValue v args a) (fnValue v args b) v

/-- Whether a term is not zero. -/
def fnHolds (v : View) (args : List Word) (t : StateFn) : Bool := fnValue v args t != 0

/-- The writes with one more before them. -/
def addWrite (v : View) (args : List Word) (u : Update) (w : Writes) : Writes :=
  if fnHolds v args u.guard then
    match u.place with
    | .x r => { w with x := (r, fnValue v args u.value) :: w.x }
    | .f r => { w with f := (r, fnValue v args u.value) :: w.f }
    | .csr a => { w with csrs := ((fnValue v args a).setWidth 12, fnValue v args u.value) :: w.csrs }
    | .byte a => { w with mem := (fnValue v args a, (fnValue v args u.value).setWidth 8) :: w.mem }
  else w

/-- The writes that updates make, in their order, every term evaluated in the state before them. -/
def fnWrites (v : View) (args : List Word) (us : List Update) : Writes :=
  us.foldr (addWrite v args) ⟨[], [], [], []⟩

/-- The result of `div_spec` for a dividend of width `w`. -/
def divResult (w : Nat) (a : BitVec w) : DivResult → BitVec w
  | .number z => BitVec.ofInt w z
  | .dividend => a
  | .onDividend b z other => if a.toNat = b.toNat then BitVec.ofInt w z else divResult w a other

/-- The number of an exception, the last column of 60_exceptions.md R280; with the one mode of R300 EnvironmentCall is
8. -/
def Exception.number : Exception → Word
  | .instructionAddressMisaligned _ => 0
  | .instructionAccessFault _ => 1
  | .illegalInstruction _ => 2
  | .breakpoint _ => 3
  | .loadAddressMisaligned _ => 4
  | .loadAccessFault _ => 5
  | .storeAMOAddressMisaligned _ => 6
  | .storeAMOAccessFault _ => 7
  | .environmentCall => 8

/-- The information value of an exception (R280); EnvironmentCall has none, and zero stands for it. -/
def Exception.info : Exception → Word
  | .instructionAddressMisaligned a => a
  | .instructionAccessFault a => a
  | .illegalInstruction bits => bits
  | .breakpoint a => a
  | .loadAddressMisaligned a => a
  | .loadAccessFault a => a
  | .storeAMOAddressMisaligned a => a
  | .storeAMOAccessFault a => a
  | .environmentCall => 0

end Sys2Proof.Machine
end

