-- ==== Sys2Proof/Machine/Ops.lean ====
section
/-! DEFINITION. The shared operations: registers, memory with its checks, CSRs, the advance of pc, control transfer,
and taking an exception with the return from it. -/

namespace Sys2Proof.Machine

/-! ## Registers -/

/-- XLEN of the machine. -/
abbrev State.xl (s : State) : XLen := s.cfg.xlen

/-- `x[i]` (10_state.md R20, R21): an XLEN-bit value, zero for x[0]. -/
def State.readX (s : State) (r : Reg) : Word :=
  if r = 0 then 0 else wrap s.xl (s.x[r.toNat]'(by simpa using r.isLt))

/-- `x[i] <- v` (10_state.md R21): discarded for x[0]. -/
def State.writeX (s : State) (r : Reg) (v : Word) : State :=
  if r = 0 then s else { s with x := s.x.set r.toNat (wrap s.xl v) (by simpa using r.isLt) }

/-- `pc`, an XLEN-bit value (10_state.md R25). -/
def State.readPc (s : State) : Word := wrap s.xl s.pc

/-- `pc <- t`. -/
def State.writePc (s : State) (t : Word) : State := { s with pc := wrap s.xl t }

/-- `pc <- pc + n`, modulo 2^XLEN (10_state.md R26, R27; 00_scope.md R8). -/
def State.advance (s : State) (n : Nat) : State := s.writePc (addX s.xl s.readPc (BitVec.ofNat 64 n))

/-- The low FLEN bits of a container (00_scope.md R5). -/
def wrapF (c : Config) (v : Word) : Word :=
  if c.ext.d then v else if c.ext.f then (v.setWidth 32).setWidth 64 else 0

/-- `f[i]` (10_state.md R32); f[0] is an ordinary register. -/
def State.readF (s : State) (r : Reg) : Word := wrapF s.cfg (s.f[r.toNat]'(by simpa using r.isLt))

/-- `f[i] <- v` for an FLEN-bit value. -/
def State.writeF (s : State) (r : Reg) (v : Word) : State :=
  { s with f := s.f.set r.toNat (wrapF s.cfg v) (by simpa using r.isLt) }

/-- A 32-bit value in an f register (10_state.md R33): bits 63:32 are ones when FLEN = 64. -/
def boxF (c : Config) (v : BitVec 32) : Word :=
  if c.ext.d then BitVec.allOnes 32 ++ v else v.setWidth 64

/-! ## Taking an exception, and going on after it (60_exceptions.md R282 to R285) -/

/-- Whether a byte address lies in code_region (20_memory.md R67). -/
def Config.inCode (c : Config) (a : Nat) : Bool :=
  c.codeRegion.any fun r => decide (r.first ≤ a) && decide (a < r.first + r.len)

/-- One byte of memory, `M[a]`. -/
def State.byte (s : State) (a : Nat) : Byte := sparseRead s.mem a

/-- Stores one byte. -/
def State.setByte (s : State) (a : Nat) (b : Byte) : State := { s with mem := sparseWrite s.mem a b }

/-- `CSRs[a]` as the file holds it. -/
def State.csr (s : State) (a : BitVec 12) : Word := wrap s.xl (sparseRead s.csrs a.toNat)

/-- Sets `CSRs[a]` in the file. -/
def State.setCsr (s : State) (a : BitVec 12) (v : Word) : State :=
  { s with csrs := sparseWrite s.csrs a.toNat (wrap s.xl v) }

/-- The state as the functions of csr_model and env see it. -/
def State.view (s : State) : View :=
  { xlen := s.xl
    x := s.x.toList.map (wrap s.xl)
    pc := s.readPc
    f := s.f.toList.map (wrapF s.cfg)
    csrs := s.csrs.map fun e => (e.1, wrap s.xl e.2)
    mem := s.mem
    tick := s.tick }

/-- The new state that writes make. -/
def State.applyWrites (s : State) (w : Writes) : State :=
  let s1 := w.x.foldl (fun t e => t.writeX e.1 e.2) s
  let s2 := w.f.foldl (fun t e => t.writeF e.1 e.2) s1
  let s3 := w.csrs.foldl (fun t e => t.setCsr e.1 e.2) s2
  w.mem.foldl (fun t e => t.setByte (wrap t.xl e.1).toNat e.2) s3

/-- Whether writes reach program text, which stays constant during a run (20_memory.md R67; log 12). -/
def Writes.writesCode (c : Config) (w : Writes) : Bool :=
  w.mem.any fun e => Config.inCode c (wrap c.xlen e.1).toNat

/-- The state' of an answer `Continue(state')`: the answer's writes, and pc. -/
def State.continueWith (s : State) (a : EnvAnswer) : State := (s.applyWrites a.toWrites).writePc a.pc

/-- The arguments of env besides the state. -/
def Exception.args (e : Exception) : List Word := [e.number, e.info]

/-- `env(E, info, state)` (60_exceptions.md R283): none is Stop. -/
def envAnswer (s : State) (e : Exception) : Option EnvAnswer :=
  match s.cfg.env.find? fun r => fnHolds s.view e.args r.guard with
  | none => none
  | some r =>
    match r.action with
    | .stop => none
    | .goOn target us => some { toWrites := fnWrites s.view e.args us, pc := fnValue s.view e.args target }

/-- `raise E(info)` (60_exceptions.md R282): no write of the instruction takes place; the trap is handed to env (R283),
whose answer is Stop, or Continue(state'), the only return from a trap (R285). -/
def raise (s : State) (e : Exception) : Out :=
  match envAnswer s e with
  | none => .fault (.trap e)
  | some a => if a.writesCode s.cfg then .refused .storeToCode else .next (s.continueWith a)

/-- How an operation ends an instruction early. -/
inductive Stop where
  /-- By raising an exception. -/
  | trap (e : Exception)
  /-- By a refusal (00_scope.md R9). -/
  | refuse (r : Refusal)
deriving DecidableEq, Repr

/-- The outcome of ending early. -/
def stopOut (s : State) : Stop → Out
  | .trap e => raise s e
  | .refuse r => .refused r

/-- Goes on with a result, or ends early. -/
def orStop {α : Type} (s : State) (r : Except Stop α) (k : α → Out) : Out :=
  match r with
  | .ok a => k a
  | .error e => stopOut s e

/-- An instruction that is not present under (XLEN, EXT) has no meaning (30_encoding.md R104 (b); log 16). -/
def ifPresent (i : Instr) (s : State) (k : Out) : Out :=
  if i.present s.cfg then k else .refused (.notInSpec (encode i))

/-! ## Memory (20_memory.md R50 to R55, R67) -/

/-- Whether a window of mem_admit admits an access. -/
def windowAdmits (a n : Nat) (k : AccessKind) (w : AdmitWindow) : Bool :=
  w.kinds.contains k && w.sizes.contains n && decide (w.first ≤ a) && decide (a ≤ w.last)

/-- `mem_admit(addr, n, kind)` (20_memory.md R54). -/
def memAdmit (c : Config) (a : Word) (n : Nat) (k : AccessKind) : Bool :=
  c.memAdmit.any (windowAdmits a.toNat n k)

/-- The exception of a misaligned address, by the kind of access (20_memory.md R55, R58). -/
def misaligned (k : AccessKind) (a : Word) : Exception :=
  match k with
  | .load => .loadAddressMisaligned a
  | .store => .storeAMOAddressMisaligned a
  | .amo => .storeAMOAddressMisaligned a
  | .fetch => .instructionAddressMisaligned a

/-- The access fault, by the kind of access (20_memory.md R52, R53). -/
def accessFault (k : AccessKind) (a : Word) : Exception :=
  match k with
  | .load => .loadAccessFault a
  | .store => .storeAMOAccessFault a
  | .amo => .storeAMOAccessFault a
  | .fetch => .instructionAccessFault a

/-- The byte addresses of an access, `(addr + i) mod 2^XLEN` for i from 0 to n - 1 (20_memory.md R52). -/
def accessBytes (xl : XLen) (a : Word) (n : Nat) : List Nat :=
  (List.range n).map fun i => (addX xl a (BitVec.ofNat 64 i)).toNat

/-- The value of bytes, the first lowest (20_memory.md R50). -/
def leValue : List Byte → Word
  | [] => 0
  | b :: bs => (leValue bs <<< 8) ||| b.setWidth 64

/-- The `n` bytes of a value, the lowest first (20_memory.md R50). -/
def leBytes : Nat → Word → List Byte
  | 0, _ => []
  | n + 1, v => v.setWidth 8 :: leBytes n (v >>> 8)

/-- The value that the `n` bytes at an address hold, unchecked. -/
def State.peek (s : State) (a : Word) (n : Nat) : Word := leValue ((accessBytes s.xl a n).map s.byte)

/-- Stores bytes at addresses, pair by pair. -/
def State.setBytes (s : State) (cells : List (Nat × Byte)) : State := cells.foldl (fun t c => t.setByte c.1 c.2) s

/-- Stores the `n` bytes of a value at an address, unchecked. -/
def State.poke (s : State) (a : Word) (n : Nat) (v : Word) : State :=
  s.setBytes ((accessBytes s.xl a n).zip (leBytes n v))

/-- The checks common to every access: alignment, then admission (20_memory.md R52, R53; 60_exceptions.md R287). -/
def checkAccess (s : State) (k : AccessKind) (a : Word) (n : Nat) : Except Stop Unit :=
  if a.toNat % n ≠ 0 then .error (.trap (misaligned k a))
  else if memAdmit s.cfg a n k then .ok ()
  else .error (.trap (accessFault k a))

/-- `MemRead(addr, n)` with its kind (20_memory.md R52), zero-extended. -/
def memRead (s : State) (k : AccessKind) (a : Word) (n : Nat) : Except Stop Word :=
  match checkAccess s k a n with
  | .ok () => .ok (s.peek a n)
  | .error e => .error e

/-- `MemWrite(addr, n, v)` (20_memory.md R53): every check comes before the first byte. -/
def memWrite (s : State) (a : Word) (n : Nat) (v : Word) : Except Stop State :=
  match checkAccess s .store a n with
  | .ok () =>
    if (accessBytes s.xl a n).any (Config.inCode s.cfg) then .error (.refuse .storeToCode)
    else .ok (s.poke a n v)
  | .error e => .error e

/-! ## Control transfer (42_branches.md R160, 20_memory.md R58) -/

/-- `pc <- target`, or InstructionAddressMisaligned(target) where target is not a multiple of IALIGN/8. -/
def jumpChecked (s : State) (target : Word) : Out :=
  if target.toNat % s.cfg.ialignBytes ≠ 0 then raise s (.instructionAddressMisaligned target)
  else .next (s.writePc target)

/-! ## CSRs (10_state.md R30, 45_call_and_csr.md R241) -/

/-- What csr_model says of an address; none where no CSR exists there. -/
def csrDesc (c : Config) (a : BitVec 12) : Option CsrDesc :=
  (c.csrModel.find? fun w => decide (w.first ≤ a.toNat) && decide (a.toNat ≤ w.last)).map CsrWindow.desc

/-- The argument `a` of csr_model's functions. -/
def csrArg (a : BitVec 12) : Word := a.setWidth 64

/-- `exists(a)` and `may_read(a, state)`. -/
def csrReadable (s : State) (a : BitVec 12) : Bool :=
  match csrDesc s.cfg a with
  | none => false
  | some (.storage r _ _) => r
  | some (.functions d) => fnHolds s.view [csrArg a] d.mayRead

/-- `exists(a)` and `may_write(a, state)`. -/
def csrWritable (s : State) (a : BitVec 12) : Bool :=
  match csrDesc s.cfg a with
  | none => false
  | some (.storage _ w _) => w
  | some (.functions d) => fnHolds s.view [csrArg a] d.mayWrite

/-- The new state that a function of csr_model gives; `tick` counts the access. Program text stays constant (log 12), and
pc is the instruction's to advance (45_call_and_csr.md R241 item 6). -/
def csrEffect (s : State) (w : Writes) : Except Stop State :=
  if w.writesCode s.cfg then .error (.refuse .storeToCode) else .ok { s.applyWrites w with tick := s.tick + 1 }

/-- `read(a, state)`: the value and the state after any side effect. -/
def csrGet (s : State) (a : BitVec 12) : Except Stop (Word × State) :=
  match csrDesc s.cfg a with
  | some (.functions d) =>
    match csrEffect s (fnWrites s.view [csrArg a] d.readEffect) with
    | .ok t => .ok (wrap s.xl (fnValue s.view [csrArg a] d.read), t)
    | .error e => .error e
  | some (.storage _ _ _) => .ok (s.csr a, s)
  | none => .ok (s.csr a, s)

/-- `write(a, v, state)`. -/
def csrSet (s : State) (a : BitVec 12) (v : Word) : Except Stop State :=
  match csrDesc s.cfg a with
  | some (.functions d) => csrEffect s (fnWrites s.view [csrArg a, wrap s.xl v] d.write)
  | some (.storage _ _ m) => .ok (s.setCsr a ((s.csr a &&& ~~~m) ||| (v &&& m)))
  | none => .ok s

/-- The read and the write that take place: the value read and the new state. `new` is the value written, from the state
that the read leaves (00_scope.md R8) and the value read. -/
def csrAccess (s : State) (a : BitVec 12) (doRead doWrite : Bool) (new : State → Word → Word) : Except Stop (Word × State) :=
  match if doRead then csrGet s a else .ok (0, s) with
  | .error e => .error e
  | .ok got =>
    match if doWrite then csrSet got.2 a (new got.2 got.1) else .ok got.2 with
    | .error e => .error e
    | .ok t => .ok (got.1, t)

/-- Whether an access may take place: the CSR exists, and the read and the write that take place are permitted
(45_call_and_csr.md R241 item 5). -/
def csrAllowed (s : State) (a : BitVec 12) (doRead doWrite : Bool) : Bool :=
  (csrDesc s.cfg a).isSome && (!doRead || csrReadable s a) && (!doWrite || csrWritable s a)

/-- The read, the write and the copy to x[rd] as one step (45_call_and_csr.md R241 items 2 to 5); all checks come
first. -/
def csrInstr (i : Instr) (s : State) (rd : Reg) (a : BitVec 12) (doRead doWrite : Bool) (new : State → Word → Word) : Out :=
  if csrAllowed s a doRead doWrite then
    orStop s (csrAccess s a doRead doWrite new) fun r => .next ((r.2.writeX rd r.1).advance 4)
  else raise s (.illegalInstruction (encode i).bits)

end Sys2Proof.Machine
end

