-- ==== Sys2Proof/Machine/Atomic.lean ====
section
/-! DEFINITION. The atomic memory operations (41_atomics.md R130 to R150). -/

namespace Sys2Proof.Machine

/-! ## The operations `op(t, b)` of R130, at any width -/

/-- `+`. -/
def amoAdd (w : Nat) (t b : BitVec w) : BitVec w := t + b

/-- `&`. -/
def amoAnd (w : Nat) (t b : BitVec w) : BitVec w := t &&& b

/-- `|`. -/
def amoOr (w : Nat) (t b : BitVec w) : BitVec w := t ||| b

/-- `^`. -/
def amoXor (w : Nat) (t b : BitVec w) : BitVec w := t ^^^ b

/-- SWAP. -/
def amoSwap (w : Nat) (_t b : BitVec w) : BitVec w := b

/-- MAX, two's complement. -/
def amoMax (w : Nat) (t b : BitVec w) : BitVec w := if cmpGe w t b then t else b

/-- MAXU, unsigned. -/
def amoMaxu (w : Nat) (t b : BitVec w) : BitVec w := if cmpGeu w t b then t else b

/-- MIN, two's complement. -/
def amoMin (w : Nat) (t b : BitVec w) : BitVec w := if cmpLt w t b then t else b

/-- MINU, unsigned. -/
def amoMinu (w : Nat) (t b : BitVec w) : BitVec w := if cmpLtu w t b then t else b

/-- The read and the write of an AMO (R130): the old value with the state after the write. The read is admitted as an
amo access, the write as a store (log 15). -/
def amoUpdate (s : State) (a : Word) (n : Nat) (new : Word → Word) : Except Stop (Word × State) :=
  match memRead s .amo a n with
  | .error e => .error e
  | .ok t =>
    match memWrite s a n (new t) with
    | .error e => .error e
    | .ok s' => .ok (t, s')

/-- AMO32 (R130): the operation on 32 bits, the old word sign-extended into x[rd]. -/
def amo32 (s : State) (rs2 rs1 rd : Reg) (op : (w : Nat) → BitVec w → BitVec w → BitVec w) : Out :=
  orStop s
    (amoUpdate s (s.readX rs1) 4 fun t => (op 32 (t.setWidth 32) ((s.readX rs2).setWidth 32)).setWidth 64)
    fun r => .next ((r.2.writeX rd (sextWord s.xl r.1)).advance 4)

/-- AMO64 (R130): the operation on 64 bits, the old doubleword into x[rd]. -/
def amo64 (s : State) (rs2 rs1 rd : Reg) (op : (w : Nat) → BitVec w → BitVec w → BitVec w) : Out :=
  orStop s (amoUpdate s (s.readX rs1) 8 fun t => op 64 t (s.readX rs2))
    fun r => .next ((r.2.writeX rd r.1).advance 4)

/-! ## The instructions; `aq` and `rl` are carried and have no effect (R131) -/

/-- `amoadd.d` (R132). -/
def execAmoaddD (aq rl : Bool) (rs2 rs1 rd : Reg) (s : State) : Out :=
  ifPresent (.amoaddD aq rl rs2 rs1 rd) s (amo64 s rs2 rs1 rd amoAdd)

/-- `amoadd.w` (R133). -/
def execAmoaddW (aq rl : Bool) (rs2 rs1 rd : Reg) (s : State) : Out :=
  ifPresent (.amoaddW aq rl rs2 rs1 rd) s (amo32 s rs2 rs1 rd amoAdd)

/-- `amoand.d` (R134). -/
def execAmoandD (aq rl : Bool) (rs2 rs1 rd : Reg) (s : State) : Out :=
  ifPresent (.amoandD aq rl rs2 rs1 rd) s (amo64 s rs2 rs1 rd amoAnd)

/-- `amoand.w` (R135). -/
def execAmoandW (aq rl : Bool) (rs2 rs1 rd : Reg) (s : State) : Out :=
  ifPresent (.amoandW aq rl rs2 rs1 rd) s (amo32 s rs2 rs1 rd amoAnd)

/-- `amomax.d` (R136). -/
def execAmomaxD (aq rl : Bool) (rs2 rs1 rd : Reg) (s : State) : Out :=
  ifPresent (.amomaxD aq rl rs2 rs1 rd) s (amo64 s rs2 rs1 rd amoMax)

/-- `amomax.w` (R137). -/
def execAmomaxW (aq rl : Bool) (rs2 rs1 rd : Reg) (s : State) : Out :=
  ifPresent (.amomaxW aq rl rs2 rs1 rd) s (amo32 s rs2 rs1 rd amoMax)

/-- `amomaxu.d` (R138). -/
def execAmomaxuD (aq rl : Bool) (rs2 rs1 rd : Reg) (s : State) : Out :=
  ifPresent (.amomaxuD aq rl rs2 rs1 rd) s (amo64 s rs2 rs1 rd amoMaxu)

/-- `amomaxu.w` (R139). -/
def execAmomaxuW (aq rl : Bool) (rs2 rs1 rd : Reg) (s : State) : Out :=
  ifPresent (.amomaxuW aq rl rs2 rs1 rd) s (amo32 s rs2 rs1 rd amoMaxu)

/-- `amomin.d` (R140). -/
def execAmominD (aq rl : Bool) (rs2 rs1 rd : Reg) (s : State) : Out :=
  ifPresent (.amominD aq rl rs2 rs1 rd) s (amo64 s rs2 rs1 rd amoMin)

/-- `amomin.w` (R141). -/
def execAmominW (aq rl : Bool) (rs2 rs1 rd : Reg) (s : State) : Out :=
  ifPresent (.amominW aq rl rs2 rs1 rd) s (amo32 s rs2 rs1 rd amoMin)

/-- `amominu.d` (R142). -/
def execAmominuD (aq rl : Bool) (rs2 rs1 rd : Reg) (s : State) : Out :=
  ifPresent (.amominuD aq rl rs2 rs1 rd) s (amo64 s rs2 rs1 rd amoMinu)

/-- `amominu.w` (R143). -/
def execAmominuW (aq rl : Bool) (rs2 rs1 rd : Reg) (s : State) : Out :=
  ifPresent (.amominuW aq rl rs2 rs1 rd) s (amo32 s rs2 rs1 rd amoMinu)

/-- `amoor.d` (R144). -/
def execAmoorD (aq rl : Bool) (rs2 rs1 rd : Reg) (s : State) : Out :=
  ifPresent (.amoorD aq rl rs2 rs1 rd) s (amo64 s rs2 rs1 rd amoOr)

/-- `amoor.w` (R145). -/
def execAmoorW (aq rl : Bool) (rs2 rs1 rd : Reg) (s : State) : Out :=
  ifPresent (.amoorW aq rl rs2 rs1 rd) s (amo32 s rs2 rs1 rd amoOr)

/-- `amoswap.d` (R146). -/
def execAmoswapD (aq rl : Bool) (rs2 rs1 rd : Reg) (s : State) : Out :=
  ifPresent (.amoswapD aq rl rs2 rs1 rd) s (amo64 s rs2 rs1 rd amoSwap)

/-- `amoswap.w` (R147). -/
def execAmoswapW (aq rl : Bool) (rs2 rs1 rd : Reg) (s : State) : Out :=
  ifPresent (.amoswapW aq rl rs2 rs1 rd) s (amo32 s rs2 rs1 rd amoSwap)

/-- `amoxor.d` (R148). -/
def execAmoxorD (aq rl : Bool) (rs2 rs1 rd : Reg) (s : State) : Out :=
  ifPresent (.amoxorD aq rl rs2 rs1 rd) s (amo64 s rs2 rs1 rd amoXor)

/-- `amoxor.w` (R149). -/
def execAmoxorW (aq rl : Bool) (rs2 rs1 rd : Reg) (s : State) : Out :=
  ifPresent (.amoxorW aq rl rs2 rs1 rd) s (amo32 s rs2 rs1 rd amoXor)

end Sys2Proof.Machine
end

