-- ==== Sys2Proof/Machine/Branch.lean ====
section
/-! DEFINITION. The conditional branches (42_branches.md R160 to R166). -/

namespace Sys2Proof.Machine

/-- The shape common to the six (R160); a branch that is not taken never checks its target. -/
def branch (s : State) (rs1 rs2 : Reg) (off : BitVec 12) (cond : (w : Nat) → BitVec w → BitVec w → Bool) : Out :=
  if testX s.xl cond (s.readX rs1) (s.readX rs2) then jumpChecked s (addX s.xl s.readPc (offset s.xl off))
  else .next (s.advance 4)

/-- `beq` (R161). -/
def execBeq (rs1 rs2 : Reg) (off : BitVec 12) (s : State) : Out := branch s rs1 rs2 off cmpEq

/-- `bge` (R162). -/
def execBge (rs1 rs2 : Reg) (off : BitVec 12) (s : State) : Out := branch s rs1 rs2 off cmpGe

/-- `bgeu` (R163). -/
def execBgeu (rs1 rs2 : Reg) (off : BitVec 12) (s : State) : Out := branch s rs1 rs2 off cmpGeu

/-- `blt` (R164). -/
def execBlt (rs1 rs2 : Reg) (off : BitVec 12) (s : State) : Out := branch s rs1 rs2 off cmpLt

/-- `bltu` (R165). -/
def execBltu (rs1 rs2 : Reg) (off : BitVec 12) (s : State) : Out := branch s rs1 rs2 off cmpLtu

/-- `bne` (R166). -/
def execBne (rs1 rs2 : Reg) (off : BitVec 12) (s : State) : Out := branch s rs1 rs2 off cmpNe

end Sys2Proof.Machine
end

