-- ==== Sys2Proof/Machine/Integer.lean ====
section
/-! DEFINITION. The integer computational instructions (40_integer_computational.md R120 to R127). -/

namespace Sys2Proof.Machine

/-- Writes a result to x[rd] and goes on at pc + ilen (R120). -/
def finish (s : State) (rd : Reg) (v : Word) (ilen : Nat) : Out := .next ((s.writeX rd v).advance ilen)

/-- `add` (R121). -/
def execAdd (rd rs1 rs2 : Reg) (s : State) : Out :=
  finish s rd (addX s.xl (s.readX rs1) (s.readX rs2)) 4

/-- `addi` (R122). -/
def execAddi (rd rs1 : Reg) (imm : BitVec 12) (s : State) : Out :=
  finish s rd (addX s.xl (s.readX rs1) (immI s.xl imm)) 4

/-- `addiw` (R123). -/
def execAddiw (rd rs1 : Reg) (imm : BitVec 12) (s : State) : Out :=
  ifPresent (.addiw rd rs1 imm) s (finish s rd (sextWord s.xl (addX s.xl (s.readX rs1) (immI s.xl imm))) 4)

/-- `addw` (R124). -/
def execAddw (rd rs1 rs2 : Reg) (s : State) : Out :=
  ifPresent (.addw rd rs1 rs2) s (finish s rd (sextWord s.xl (addX s.xl (s.readX rs1) (s.readX rs2))) 4)

/-- `and` (R125). -/
def execAnd (rd rs1 rs2 : Reg) (s : State) : Out :=
  finish s rd (andX s.xl (s.readX rs1) (s.readX rs2)) 4

/-- `andi` (R126). -/
def execAndi (rd rs1 : Reg) (imm : BitVec 12) (s : State) : Out :=
  finish s rd (andX s.xl (s.readX rs1) (immI s.xl imm)) 4

/-- `auipc` (R127). -/
def execAuipc (rd : Reg) (imm : BitVec 20) (s : State) : Out :=
  finish s rd (addX s.xl s.readPc (immU s.xl imm)) 4

end Sys2Proof.Machine
end

