-- ==== Sys2Proof/Machine/CompressedInteger.lean ====
section
/-! DEFINITION. The compressed integer computational instructions (43_compressed_1.md R181 to R188, 44_compressed_2.md
R216, R217, R220, R221, R224 to R228, R231), each from its own register-transfer line (R180 item 5). -/

namespace Sys2Proof.Machine

/-- A shift by uimm; at XLEN = 32 an amount with uimm[5] = 1 is refused (30_encoding.md R103). -/
def shiftBy (s : State) (rd : Reg) (uimm : BitVec 6) (sh : XLen → Nat → Word → Word) : Out :=
  if s.xl = .rv32 ∧ 32 ≤ uimm.toNat then .refused .shiftAmountTooWide
  else finish s rd (sh s.xl uimm.toNat (s.readX rd)) 2

/-- `c.add` (R181). -/
def execCAdd (rd rs2 : Reg) (s : State) : Out :=
  ifPresent (.cAdd rd rs2) s (finish s rd (addX s.xl (s.readX rd) (s.readX rs2)) 2)

/-- `c.addi` (R182). -/
def execCAddi (rd : Reg) (imm : BitVec 6) (s : State) : Out :=
  ifPresent (.cAddi rd imm) s (finish s rd (addX s.xl (s.readX rd) (immI s.xl imm)) 2)

/-- `c.addi16sp` (R183). -/
def execCAddi16sp (imm : BitVec 6) (s : State) : Out :=
  ifPresent (.cAddi16sp imm) s (finish s spReg (addX s.xl (s.readX spReg) (immAddi16sp s.xl imm)) 2)

/-- `c.addi4spn` (R184). -/
def execCAddi4spn (rd : CReg) (uimm : BitVec 8) (s : State) : Out :=
  ifPresent (.cAddi4spn rd uimm) s (finish s (creg rd) (addX s.xl (s.readX spReg) (uimm4 uimm)) 2)

/-- `c.addiw` (R185). -/
def execCAddiw (rd : Reg) (imm : BitVec 6) (s : State) : Out :=
  ifPresent (.cAddiw rd imm) s (finish s rd (sextWord s.xl (addX s.xl (s.readX rd) (immI s.xl imm))) 2)

/-- `c.and` (R186). -/
def execCAnd (rd rs2 : CReg) (s : State) : Out :=
  ifPresent (.cAnd rd rs2) s (finish s (creg rd) (andX s.xl (s.readX (creg rd)) (s.readX (creg rs2))) 2)

/-- `c.or` (R221). -/
def execCOr (rd rs2 : CReg) (s : State) : Out :=
  ifPresent (.cOr rd rs2) s (finish s (creg rd) (orX s.xl (s.readX (creg rd)) (s.readX (creg rs2))) 2)

/-- `c.xor` (R231). -/
def execCXor (rd rs2 : CReg) (s : State) : Out :=
  ifPresent (.cXor rd rs2) s (finish s (creg rd) (xorX s.xl (s.readX (creg rd)) (s.readX (creg rs2))) 2)

/-- `c.sub` (R227). -/
def execCSub (rd rs2 : CReg) (s : State) : Out :=
  ifPresent (.cSub rd rs2) s (finish s (creg rd) (subX s.xl (s.readX (creg rd)) (s.readX (creg rs2))) 2)

/-- `c.addw` (R187). -/
def execCAddw (rd rs2 : CReg) (s : State) : Out :=
  ifPresent (.cAddw rd rs2) s
    (finish s (creg rd) (sextWord s.xl (addX s.xl (s.readX (creg rd)) (s.readX (creg rs2)))) 2)

/-- `c.subw` (R228). -/
def execCSubw (rd rs2 : CReg) (s : State) : Out :=
  ifPresent (.cSubw rd rs2) s
    (finish s (creg rd) (sextWord s.xl (subX s.xl (s.readX (creg rd)) (s.readX (creg rs2)))) 2)

/-- `c.andi` (R188). -/
def execCAndi (rd : CReg) (imm : BitVec 6) (s : State) : Out :=
  ifPresent (.cAndi rd imm) s (finish s (creg rd) (andX s.xl (s.readX (creg rd)) (immI s.xl imm)) 2)

/-- `c.li` (R216). -/
def execCLi (rd : Reg) (imm : BitVec 6) (s : State) : Out :=
  ifPresent (.cLi rd imm) s (finish s rd (immI s.xl imm) 2)

/-- `c.lui` (R217). -/
def execCLui (rd : Reg) (imm : BitVec 6) (s : State) : Out :=
  ifPresent (.cLui rd imm) s (finish s rd (immCLui s.xl imm) 2)

/-- `c.mv` (R220). -/
def execCMv (rd rs2 : Reg) (s : State) : Out :=
  ifPresent (.cMv rd rs2) s (finish s rd (s.readX rs2) 2)

/-- `c.slli` (R224). -/
def execCSlli (rd : Reg) (uimm : BitVec 6) (s : State) : Out :=
  ifPresent (.cSlli rd uimm) s (shiftBy s rd uimm shlX)

/-- `c.srai` (R225). -/
def execCSrai (rd : CReg) (uimm : BitVec 6) (s : State) : Out :=
  ifPresent (.cSrai rd uimm) s (shiftBy s (creg rd) uimm sarX)

/-- `c.srli` (R226). -/
def execCSrli (rd : CReg) (uimm : BitVec 6) (s : State) : Out :=
  ifPresent (.cSrli rd uimm) s (shiftBy s (creg rd) uimm shrX)

end Sys2Proof.Machine
end

