-- ==== Sys2Proof/Machine/CompressedJump.lean ====
section
/-! DEFINITION. The compressed control transfers (43_compressed_1.md R189, R190; 44_compressed_2.md R210 to R213). C is
present, so every target is aligned (20_memory.md R58) and none is checked. -/

namespace Sys2Proof.Machine

/-- Jumps by an offset from the instruction's own address when a condition on x[rs1] holds, else goes on at pc + 2. -/
def cBranch (s : State) (rs1 : CReg) (off : BitVec 8) (cond : (w : Nat) → BitVec w → BitVec w → Bool) : Out :=
  if testX s.xl cond (s.readX (creg rs1)) 0 then .next (s.writePc (addX s.xl s.readPc (offset s.xl off)))
  else .next (s.advance 2)

/-- `c.beqz` (R189). -/
def execCBeqz (rs1 : CReg) (off : BitVec 8) (s : State) : Out :=
  ifPresent (.cBeqz rs1 off) s (cBranch s rs1 off cmpEq)

/-- `c.bnez` (R190). -/
def execCBnez (rs1 : CReg) (off : BitVec 8) (s : State) : Out :=
  ifPresent (.cBnez rs1 off) s (cBranch s rs1 off cmpNe)

/-- `c.j` (R210). -/
def execCJ (off : BitVec 11) (s : State) : Out :=
  ifPresent (.cJ off) s (.next (s.writePc (addX s.xl s.readPc (offset s.xl off))))

/-- `c.jal` (R211). -/
def execCJal (off : BitVec 11) (s : State) : Out :=
  ifPresent (.cJal off) s
    (.next ((s.writeX linkReg (addX s.xl s.readPc 2)).writePc (addX s.xl s.readPc (offset s.xl off))))

/-- `c.jalr` (R212). -/
def execCJalr (rs1 : Reg) (s : State) : Out :=
  ifPresent (.cJalr rs1) s (.next ((s.writePc (clearBit0 (s.readX rs1))).writeX linkReg (addX s.xl s.readPc 2)))

/-- `c.jr` (R213). -/
def execCJr (rs1 : Reg) (s : State) : Out :=
  ifPresent (.cJr rs1) s (.next (s.writePc (clearBit0 (s.readX rs1))))

end Sys2Proof.Machine
end

