-- ==== Sys2Proof/Machine/CompressedMemory.lean ====
section
/-! DEFINITION. The compressed loads and stores (43_compressed_1.md R180 item 7, R192 to R199; 44_compressed_2.md R214,
R215, R218, R219, R222, R223, R229, R230). -/

namespace Sys2Proof.Machine

/-- The address of a primed-register form, `x[8+rs1'] + uimm`. -/
def cAddr (s : State) (rs1 : CReg) (uimm : Word) : Word := addX s.xl (s.readX (creg rs1)) uimm

/-- The address of a stack-pointer form, `x[2] + uimm`. -/
def spAddr (s : State) (uimm : Word) : Word := addX s.xl (s.readX spReg) uimm

/-- A 4-byte load into x[rd], sign-extended (20_memory.md R59). -/
def loadWord (s : State) (rd : Reg) (a : Word) : Out :=
  orStop s (memRead s .load a 4) fun v => .next ((s.writeX rd (sextWord s.xl v)).advance 2)

/-- An 8-byte load into x[rd]. -/
def loadDouble (s : State) (rd : Reg) (a : Word) : Out :=
  orStop s (memRead s .load a 8) fun v => .next ((s.writeX rd v).advance 2)

/-- A 4-byte load into f[rd], boxed when FLEN = 64 (10_state.md R33). -/
def loadFWord (s : State) (rd : Reg) (a : Word) : Out :=
  orStop s (memRead s .load a 4) fun v => .next ((s.writeF rd (boxF s.cfg (v.setWidth 32))).advance 2)

/-- An 8-byte load into f[rd]. -/
def loadFDouble (s : State) (rd : Reg) (a : Word) : Out :=
  orStop s (memRead s .load a 8) fun v => .next ((s.writeF rd v).advance 2)

/-- A store of `n` bytes of a value. -/
def storeBytes (s : State) (a : Word) (n : Nat) (v : Word) : Out :=
  orStop s (memWrite s a n v) fun t => .next (t.advance 2)

/-- `c.fld` (R192). -/
def execCFld (rd rs1 : CReg) (uimm : BitVec 5) (s : State) : Out :=
  ifPresent (.cFld rd rs1 uimm) s (loadFDouble s (creg rd) (cAddr s rs1 (uimm8 uimm)))

/-- `c.flw` (R194). -/
def execCFlw (rd rs1 : CReg) (uimm : BitVec 5) (s : State) : Out :=
  ifPresent (.cFlw rd rs1 uimm) s (loadFWord s (creg rd) (cAddr s rs1 (uimm4 uimm)))

/-- `c.ld` (R214). -/
def execCLd (rd rs1 : CReg) (uimm : BitVec 5) (s : State) : Out :=
  ifPresent (.cLd rd rs1 uimm) s (loadDouble s (creg rd) (cAddr s rs1 (uimm8 uimm)))

/-- `c.lw` (R218). -/
def execCLw (rd rs1 : CReg) (uimm : BitVec 5) (s : State) : Out :=
  ifPresent (.cLw rd rs1 uimm) s (loadWord s (creg rd) (cAddr s rs1 (uimm4 uimm)))

/-- `c.fldsp` (R193). -/
def execCFldsp (rd : Reg) (uimm : BitVec 6) (s : State) : Out :=
  ifPresent (.cFldsp rd uimm) s (loadFDouble s rd (spAddr s (uimm8 uimm)))

/-- `c.flwsp` (R195). -/
def execCFlwsp (rd : Reg) (uimm : BitVec 6) (s : State) : Out :=
  ifPresent (.cFlwsp rd uimm) s (loadFWord s rd (spAddr s (uimm4 uimm)))

/-- `c.ldsp` (R215). -/
def execCLdsp (rd : Reg) (uimm : BitVec 6) (s : State) : Out :=
  ifPresent (.cLdsp rd uimm) s (loadDouble s rd (spAddr s (uimm8 uimm)))

/-- `c.lwsp` (R219). -/
def execCLwsp (rd : Reg) (uimm : BitVec 6) (s : State) : Out :=
  ifPresent (.cLwsp rd uimm) s (loadWord s rd (spAddr s (uimm4 uimm)))

/-- `c.fsd` (R196). -/
def execCFsd (rs2 rs1 : CReg) (uimm : BitVec 5) (s : State) : Out :=
  ifPresent (.cFsd rs2 rs1 uimm) s (storeBytes s (cAddr s rs1 (uimm8 uimm)) 8 (s.readF (creg rs2)))

/-- `c.fsw` (R198). -/
def execCFsw (rs2 rs1 : CReg) (uimm : BitVec 5) (s : State) : Out :=
  ifPresent (.cFsw rs2 rs1 uimm) s (storeBytes s (cAddr s rs1 (uimm4 uimm)) 4 (s.readF (creg rs2)))

/-- `c.sd` (R222). -/
def execCSd (rs2 rs1 : CReg) (uimm : BitVec 5) (s : State) : Out :=
  ifPresent (.cSd rs2 rs1 uimm) s (storeBytes s (cAddr s rs1 (uimm8 uimm)) 8 (s.readX (creg rs2)))

/-- `c.sw` (R229). -/
def execCSw (rs2 rs1 : CReg) (uimm : BitVec 5) (s : State) : Out :=
  ifPresent (.cSw rs2 rs1 uimm) s (storeBytes s (cAddr s rs1 (uimm4 uimm)) 4 (s.readX (creg rs2)))

/-- `c.fsdsp` (R197). -/
def execCFsdsp (rs2 : Reg) (uimm : BitVec 6) (s : State) : Out :=
  ifPresent (.cFsdsp rs2 uimm) s (storeBytes s (spAddr s (uimm8 uimm)) 8 (s.readF rs2))

/-- `c.fswsp` (R199). -/
def execCFswsp (rs2 : Reg) (uimm : BitVec 6) (s : State) : Out :=
  ifPresent (.cFswsp rs2 uimm) s (storeBytes s (spAddr s (uimm4 uimm)) 4 (s.readF rs2))

/-- `c.sdsp` (R223). -/
def execCSdsp (rs2 : Reg) (uimm : BitVec 6) (s : State) : Out :=
  ifPresent (.cSdsp rs2 uimm) s (storeBytes s (spAddr s (uimm8 uimm)) 8 (s.readX rs2))

/-- `c.swsp` (R230). -/
def execCSwsp (rs2 : Reg) (uimm : BitVec 6) (s : State) : Out :=
  ifPresent (.cSwsp rs2 uimm) s (storeBytes s (spAddr s (uimm4 uimm)) 4 (s.readX rs2))

end Sys2Proof.Machine
end

