-- ==== Sys2Proof/Machine/Csr.lean ====
section
/-! DEFINITION. The CSR instructions (45_call_and_csr.md R241, R245 to R250). The suppressed accesses are those of R241
item 4: the test is on the register number or on zimm, not on a register's value. -/

namespace Sys2Proof.Machine

/-- `csrrc` (R245). x[rs1] stands in the statement after CsrRead and sees its side effect (00_scope.md R8). -/
def execCsrrc (rd : Reg) (csr : BitVec 12) (rs1 : Reg) (s : State) : Out :=
  csrInstr (.csrrc rd csr rs1) s rd csr true (rs1 != 0) fun got t => andNotX s.xl t (got.readX rs1)

/-- `csrrci` (R246). -/
def execCsrrci (rd : Reg) (csr : BitVec 12) (zimm : BitVec 5) (s : State) : Out :=
  csrInstr (.csrrci rd csr zimm) s rd csr true (zimm != 0) fun _ t => andNotX s.xl t (zimmX zimm)

/-- `csrrs` (R247). x[rs1] stands in the statement after CsrRead and sees its side effect (00_scope.md R8). -/
def execCsrrs (rd : Reg) (csr : BitVec 12) (rs1 : Reg) (s : State) : Out :=
  csrInstr (.csrrs rd csr rs1) s rd csr true (rs1 != 0) fun got t => orX s.xl t (got.readX rs1)

/-- `csrrsi` (R248). -/
def execCsrrsi (rd : Reg) (csr : BitVec 12) (zimm : BitVec 5) (s : State) : Out :=
  csrInstr (.csrrsi rd csr zimm) s rd csr true (zimm != 0) fun _ t => orX s.xl t (zimmX zimm)

/-- `csrrw` (R249): x[rs1] is taken before the CSR is read; with rd = x0 the CSR is not read. -/
def execCsrrw (rd : Reg) (csr : BitVec 12) (rs1 : Reg) (s : State) : Out :=
  csrInstr (.csrrw rd csr rs1) s rd csr (rd != 0) true fun _ _ => s.readX rs1

/-- `csrrwi` (R250): with rd = x0 the CSR is not read. -/
def execCsrrwi (rd : Reg) (csr : BitVec 12) (zimm : BitVec 5) (s : State) : Out :=
  csrInstr (.csrrwi rd csr zimm) s rd csr (rd != 0) true fun _ _ => zimmX zimm

end Sys2Proof.Machine
end

