-- ==== Sys2Proof/Machine/Divide.lean ====
section
/-! DEFINITION. The divide instructions (46_divide.md R260 to R264). -/

namespace Sys2Proof.Machine

/-- `divu_N(a, b)` (R260), with the results of div_spec. -/
def divu (d : DivSpec) (w : Nat) (a b : BitVec w) : BitVec w :=
  if b = 0 then divResult w a (d.results w).unsignedByZero else BitVec.ofNat w (a.toNat / b.toNat)

/-- `divs_N(a, b)` (R260), rounded toward zero, with the results of div_spec. -/
def divs (d : DivSpec) (w : Nat) (a b : BitVec w) : BitVec w :=
  if b = 0 then divResult w a (d.results w).signedByZero
  else if a = BitVec.intMin w ∧ b = BitVec.allOnes w then divResult w a (d.results w).signedOverflow
  else BitVec.ofInt w (a.toInt.tdiv b.toInt)

/-- `div` (R261). -/
def execDiv (rd rs1 rs2 : Reg) (s : State) : Out :=
  ifPresent (.div rd rs1 rs2) s (finish s rd (onX s.xl (divs s.cfg.divSpec) (s.readX rs1) (s.readX rs2)) 4)

/-- `divu` (R262). -/
def execDivu (rd rs1 rs2 : Reg) (s : State) : Out :=
  ifPresent (.divu rd rs1 rs2) s (finish s rd (onX s.xl (divu s.cfg.divSpec) (s.readX rs1) (s.readX rs2)) 4)

/-- `divuw` (R263): the low words, the quotient sign-extended. -/
def execDivuw (rd rs1 rs2 : Reg) (s : State) : Out :=
  ifPresent (.divuw rd rs1 rs2) s
    (finish s rd (sextX s.xl (divu s.cfg.divSpec 32 ((s.readX rs1).setWidth 32) ((s.readX rs2).setWidth 32))) 4)

/-- `divw` (R264): the low words, the quotient sign-extended. -/
def execDivw (rd rs1 rs2 : Reg) (s : State) : Out :=
  ifPresent (.divw rd rs1 rs2) s
    (finish s rd (sextX s.xl (divs s.cfg.divSpec 32 ((s.readX rs1).setWidth 32) ((s.readX rs2).setWidth 32))) 4)

end Sys2Proof.Machine
end

