-- ==== Sys2Proof/Machine/Environment.lean ====
section
/-! DEFINITION. The environment instructions (47_environment.md R270, R271; 43_compressed_1.md R191). Each raises its
exception; whether and where the run goes on is env's answer (60_exceptions.md R283). -/

namespace Sys2Proof.Machine

/-- `ebreak` (R270). -/
def execEbreak (s : State) : Out := raise s (.breakpoint s.readPc)

/-- `ecall` (R271). -/
def execEcall (s : State) : Out := raise s .environmentCall

/-- `c.ebreak` (R191). -/
def execCEbreak (s : State) : Out := ifPresent .cEbreak s (raise s (.breakpoint s.readPc))

end Sys2Proof.Machine
end

