-- ==== Sys2Proof/Machine/Dispatch.lean ====
section
/-! DEFINITION. The meaning of every instruction: one arm per constructor. -/

namespace Sys2Proof.Machine

def exec (i : Instr) (s : State) : Host.Outcome State Fault Refusal :=
  match i with
  | .add rd rs1 rs2 => Sys2Proof.Machine.execAdd rd rs1 rs2 s
  | .addi rd rs1 imm => Sys2Proof.Machine.execAddi rd rs1 imm s
  | .addiw rd rs1 imm => Sys2Proof.Machine.execAddiw rd rs1 imm s
  | .addw rd rs1 rs2 => Sys2Proof.Machine.execAddw rd rs1 rs2 s
  | .and rd rs1 rs2 => Sys2Proof.Machine.execAnd rd rs1 rs2 s
  | .andi rd rs1 imm => Sys2Proof.Machine.execAndi rd rs1 imm s
  | .auipc rd imm => Sys2Proof.Machine.execAuipc rd imm s
  | .amoaddD aq rl rs2 rs1 rd => Sys2Proof.Machine.execAmoaddD aq rl rs2 rs1 rd s
  | .amoaddW aq rl rs2 rs1 rd => Sys2Proof.Machine.execAmoaddW aq rl rs2 rs1 rd s
  | .amoandD aq rl rs2 rs1 rd => Sys2Proof.Machine.execAmoandD aq rl rs2 rs1 rd s
  | .amoandW aq rl rs2 rs1 rd => Sys2Proof.Machine.execAmoandW aq rl rs2 rs1 rd s
  | .amomaxD aq rl rs2 rs1 rd => Sys2Proof.Machine.execAmomaxD aq rl rs2 rs1 rd s
  | .amomaxW aq rl rs2 rs1 rd => Sys2Proof.Machine.execAmomaxW aq rl rs2 rs1 rd s
  | .amomaxuD aq rl rs2 rs1 rd => Sys2Proof.Machine.execAmomaxuD aq rl rs2 rs1 rd s
  | .amomaxuW aq rl rs2 rs1 rd => Sys2Proof.Machine.execAmomaxuW aq rl rs2 rs1 rd s
  | .amominD aq rl rs2 rs1 rd => Sys2Proof.Machine.execAmominD aq rl rs2 rs1 rd s
  | .amominW aq rl rs2 rs1 rd => Sys2Proof.Machine.execAmominW aq rl rs2 rs1 rd s
  | .amominuD aq rl rs2 rs1 rd => Sys2Proof.Machine.execAmominuD aq rl rs2 rs1 rd s
  | .amominuW aq rl rs2 rs1 rd => Sys2Proof.Machine.execAmominuW aq rl rs2 rs1 rd s
  | .amoorD aq rl rs2 rs1 rd => Sys2Proof.Machine.execAmoorD aq rl rs2 rs1 rd s
  | .amoorW aq rl rs2 rs1 rd => Sys2Proof.Machine.execAmoorW aq rl rs2 rs1 rd s
  | .amoswapD aq rl rs2 rs1 rd => Sys2Proof.Machine.execAmoswapD aq rl rs2 rs1 rd s
  | .amoswapW aq rl rs2 rs1 rd => Sys2Proof.Machine.execAmoswapW aq rl rs2 rs1 rd s
  | .amoxorD aq rl rs2 rs1 rd => Sys2Proof.Machine.execAmoxorD aq rl rs2 rs1 rd s
  | .amoxorW aq rl rs2 rs1 rd => Sys2Proof.Machine.execAmoxorW aq rl rs2 rs1 rd s
  | .beq rs1 rs2 off => Sys2Proof.Machine.execBeq rs1 rs2 off s
  | .bge rs1 rs2 off => Sys2Proof.Machine.execBge rs1 rs2 off s
  | .bgeu rs1 rs2 off => Sys2Proof.Machine.execBgeu rs1 rs2 off s
  | .blt rs1 rs2 off => Sys2Proof.Machine.execBlt rs1 rs2 off s
  | .bltu rs1 rs2 off => Sys2Proof.Machine.execBltu rs1 rs2 off s
  | .bne rs1 rs2 off => Sys2Proof.Machine.execBne rs1 rs2 off s
  | .csrrc rd csr rs1 => Sys2Proof.Machine.execCsrrc rd csr rs1 s
  | .csrrci rd csr zimm => Sys2Proof.Machine.execCsrrci rd csr zimm s
  | .csrrs rd csr rs1 => Sys2Proof.Machine.execCsrrs rd csr rs1 s
  | .csrrsi rd csr zimm => Sys2Proof.Machine.execCsrrsi rd csr zimm s
  | .csrrw rd csr rs1 => Sys2Proof.Machine.execCsrrw rd csr rs1 s
  | .csrrwi rd csr zimm => Sys2Proof.Machine.execCsrrwi rd csr zimm s
  | .div rd rs1 rs2 => Sys2Proof.Machine.execDiv rd rs1 rs2 s
  | .divu rd rs1 rs2 => Sys2Proof.Machine.execDivu rd rs1 rs2 s
  | .divuw rd rs1 rs2 => Sys2Proof.Machine.execDivuw rd rs1 rs2 s
  | .divw rd rs1 rs2 => Sys2Proof.Machine.execDivw rd rs1 rs2 s
  | .ebreak => Sys2Proof.Machine.execEbreak s
  | .ecall => Sys2Proof.Machine.execEcall s
  | .cAddi4spn rd uimm => Sys2Proof.Machine.execCAddi4spn rd uimm s
  | .cFld rd rs1 uimm => Sys2Proof.Machine.execCFld rd rs1 uimm s
  | .cLw rd rs1 uimm => Sys2Proof.Machine.execCLw rd rs1 uimm s
  | .cFlw rd rs1 uimm => Sys2Proof.Machine.execCFlw rd rs1 uimm s
  | .cLd rd rs1 uimm => Sys2Proof.Machine.execCLd rd rs1 uimm s
  | .cFsd rs2 rs1 uimm => Sys2Proof.Machine.execCFsd rs2 rs1 uimm s
  | .cSw rs2 rs1 uimm => Sys2Proof.Machine.execCSw rs2 rs1 uimm s
  | .cFsw rs2 rs1 uimm => Sys2Proof.Machine.execCFsw rs2 rs1 uimm s
  | .cSd rs2 rs1 uimm => Sys2Proof.Machine.execCSd rs2 rs1 uimm s
  | .cAddi rd imm => Sys2Proof.Machine.execCAddi rd imm s
  | .cJal off => Sys2Proof.Machine.execCJal off s
  | .cAddiw rd imm => Sys2Proof.Machine.execCAddiw rd imm s
  | .cLi rd imm => Sys2Proof.Machine.execCLi rd imm s
  | .cAddi16sp imm => Sys2Proof.Machine.execCAddi16sp imm s
  | .cLui rd imm => Sys2Proof.Machine.execCLui rd imm s
  | .cSrli rd uimm => Sys2Proof.Machine.execCSrli rd uimm s
  | .cSrai rd uimm => Sys2Proof.Machine.execCSrai rd uimm s
  | .cAndi rd imm => Sys2Proof.Machine.execCAndi rd imm s
  | .cSub rd rs2 => Sys2Proof.Machine.execCSub rd rs2 s
  | .cXor rd rs2 => Sys2Proof.Machine.execCXor rd rs2 s
  | .cOr rd rs2 => Sys2Proof.Machine.execCOr rd rs2 s
  | .cAnd rd rs2 => Sys2Proof.Machine.execCAnd rd rs2 s
  | .cSubw rd rs2 => Sys2Proof.Machine.execCSubw rd rs2 s
  | .cAddw rd rs2 => Sys2Proof.Machine.execCAddw rd rs2 s
  | .cJ off => Sys2Proof.Machine.execCJ off s
  | .cBeqz rs1 off => Sys2Proof.Machine.execCBeqz rs1 off s
  | .cBnez rs1 off => Sys2Proof.Machine.execCBnez rs1 off s
  | .cSlli rd uimm => Sys2Proof.Machine.execCSlli rd uimm s
  | .cFldsp rd uimm => Sys2Proof.Machine.execCFldsp rd uimm s
  | .cLwsp rd uimm => Sys2Proof.Machine.execCLwsp rd uimm s
  | .cFlwsp rd uimm => Sys2Proof.Machine.execCFlwsp rd uimm s
  | .cLdsp rd uimm => Sys2Proof.Machine.execCLdsp rd uimm s
  | .cJr rs1 => Sys2Proof.Machine.execCJr rs1 s
  | .cMv rd rs2 => Sys2Proof.Machine.execCMv rd rs2 s
  | .cEbreak => Sys2Proof.Machine.execCEbreak s
  | .cJalr rs1 => Sys2Proof.Machine.execCJalr rs1 s
  | .cAdd rd rs2 => Sys2Proof.Machine.execCAdd rd rs2 s
  | .cFsdsp rs2 uimm => Sys2Proof.Machine.execCFsdsp rs2 uimm s
  | .cSwsp rs2 uimm => Sys2Proof.Machine.execCSwsp rs2 uimm s
  | .cFswsp rs2 uimm => Sys2Proof.Machine.execCFswsp rs2 uimm s
  | .cSdsp rs2 uimm => Sys2Proof.Machine.execCSdsp rs2 uimm s

end Sys2Proof.Machine
end

