-- ==== Sys2Proof/Machine/Fetch.lean ====
section
/-! DEFINITION. Instruction fetch (20_memory.md R56 to R58, R67) and the loading of a program word from outside the
machine (70_reset_and_hazards.md R311; log 5, 18). -/

namespace Sys2Proof.Machine

/-- One parcel: MemRead with kind fetch, then the check against code_region (R57; 60_exceptions.md R287 item 2). -/
def fetchParcel (s : State) (a : Word) : Except Stop (BitVec 16) :=
  match memRead s .fetch a 2 with
  | .error e => .error e
  | .ok v =>
    if (accessBytes s.xl a 2).all (Config.inCode s.cfg) then .ok (v.setWidth 16)
    else .error (.refuse .fetchOutsideCode)

/-- The address of the second parcel, `(pc + 2) mod 2^XLEN` (R57). -/
def secondParcel (s : State) : Word := addX s.xl s.readPc 2

/-- `Fetch(pc)` (R57); the second parcel is read only when the first says that the instruction is 32 bits long. -/
def fetch (s : State) : Except Stop InstrWord :=
  if s.readPc.toNat % s.cfg.ialignBytes ≠ 0 then .error (.trap (.instructionAddressMisaligned s.readPc))
  else
    match fetchParcel s s.readPc with
    | .error e => .error e
    | .ok lo =>
      if isLong lo then
        match fetchParcel s (secondParcel s) with
        | .error e => .error e
        | .ok hi => .ok (.full (hi ++ lo))
      else .ok (.half lo)

/-- What a step does with a fetched word that is no instruction (30_encoding.md R101, R104; 60_exceptions.md R281 (a)). -/
def illegalOut (s : State) (w : InstrWord) : Out := raise s (.illegalInstruction w.bits)

/-- The configuration with the four bytes at an address made program text that a fetch may read. -/
def loadConfig (c : Config) (a : Word) : Config :=
  { c with
    codeRegion := (accessBytes c.xlen a 4).map (fun b => ⟨b, 1⟩) ++ c.codeRegion
    memAdmit :=
      if memAdmit c a 2 .fetch && memAdmit c (addX c.xlen a 2) 2 .fetch then c.memAdmit
      else ⟨[.fetch], [2], a.toNat, a.toNat⟩ :: ⟨[.fetch], [2], (addX c.xlen a 2).toNat, (addX c.xlen a 2).toNat⟩
        :: c.memAdmit }

/-- A table row's word, its bits above `nbits` zero, stored as program text at pc, under a configuration in which it is
an instruction (log 18). -/
def loadWordAtPc (s : State) (nbits w : Nat) : State :=
  let s0 := { s with cfg := tableConfig s.cfg nbits w }
  let s1 := { s0 with cfg := loadConfig s0.cfg s0.readPc }
  s1.setBytes ((accessBytes s1.xl s1.readPc 4).zip (tableBytes nbits w))

end Sys2Proof.Machine
end

