-- ==== Sys2Proof/Machine/Step.lean ====
section
/-! DEFINITION. One step of the machine (00_scope.md R9): fetch, decode, and the meaning of the instruction decoded. -/

namespace Sys2Proof.Machine

/-- One step. -/
def step (s : State) : Host.Outcome State Fault Refusal :=
  match fetch s with
  | .error e => stopOut s e
  | .ok w =>
    match decode s.cfg w with
    | .instr i => exec i s
    | .illegal => illegalOut s w
    | .notInSpec => .refused (.notInSpec w)

/-- The state with a table row's word stored where step fetches its next instruction, as program text that a fetch may
read; the configuration's XLEN and EXT change only where the word is no instruction under them (log 5, 18). -/
def State.withFetchWord (s : State) (nbits w : Nat) : State := loadWordAtPc s nbits w

end Sys2Proof.Machine
end

