-- ==== Sys2Proof/Machine/Pseudo.lean ====
section
/-! DEFINITION. The 20 pseudo-instructions (30_encoding.md R107): assembler spellings without an encoding. Seventeen of
them expand to one instruction of the opcode map; call and fabs expand to words the spec does not hold, and
have the effect the spec states (45_call_and_csr.md R240, 48_fp_pseudo.md R275, R276). Log 19. -/

namespace Sys2Proof.Machine

/-- The pseudo-instructions of R107, operands as the assembler writes them; `off` as in the branches of Instr. -/
inductive Pseudo where
  | beqz (rs1 : Reg) (off : BitVec 12)
  | bgez (rs1 : Reg) (off : BitVec 12)
  | bgt (rs1 rs2 : Reg) (off : BitVec 12)
  | bgtu (rs1 rs2 : Reg) (off : BitVec 12)
  | bgtz (rs2 : Reg) (off : BitVec 12)
  | ble (rs1 rs2 : Reg) (off : BitVec 12)
  | bleu (rs1 rs2 : Reg) (off : BitVec 12)
  | blez (rs2 : Reg) (off : BitVec 12)
  | bltz (rs1 : Reg) (off : BitVec 12)
  | bnez (rs1 : Reg) (off : BitVec 12)
  | call (rd : Reg) (symbol : Word)
  | csrr (rd : Reg) (csr : BitVec 12)
  | csrc (csr : BitVec 12) (rs1 : Reg)
  | csrci (csr : BitVec 12) (zimm : BitVec 5)
  | csrs (csr : BitVec 12) (rs1 : Reg)
  | csrsi (csr : BitVec 12) (zimm : BitVec 5)
  | csrw (csr : BitVec 12) (rs1 : Reg)
  | csrwi (csr : BitVec 12) (zimm : BitVec 5)
  | fabsD (rd rs1 : Reg)
  | fabsS (rd rs1 : Reg)
deriving DecidableEq, Repr

/-- The one instruction a pseudo-instruction expands to (R107, R167 to R176, R242 to R244, R251 to R254); none for call
and fabs, whose expansions hold words absent from the spec. -/
def expansion : Pseudo → Option Instr
  | .beqz rs1 off => some (.beq rs1 0 off)
  | .bgez rs1 off => some (.bge rs1 0 off)
  | .bgt rs1 rs2 off => some (.blt rs2 rs1 off)
  | .bgtu rs1 rs2 off => some (.bltu rs2 rs1 off)
  | .bgtz rs2 off => some (.blt 0 rs2 off)
  | .ble rs1 rs2 off => some (.bge rs2 rs1 off)
  | .bleu rs1 rs2 off => some (.bgeu rs2 rs1 off)
  | .blez rs2 off => some (.bge 0 rs2 off)
  | .bltz rs1 off => some (.blt rs1 0 off)
  | .bnez rs1 off => some (.bne rs1 0 off)
  | .call _ _ => none
  | .csrr rd csr => some (.csrrs rd csr 0)
  | .csrc csr rs1 => some (.csrrc 0 csr rs1)
  | .csrci csr zimm => some (.csrrci 0 csr zimm)
  | .csrs csr rs1 => some (.csrrs 0 csr rs1)
  | .csrsi csr zimm => some (.csrrsi 0 csr zimm)
  | .csrw csr rs1 => some (.csrrw 0 csr rs1)
  | .csrwi csr zimm => some (.csrrwi 0 csr zimm)
  | .fabsD _ _ => none
  | .fabsS _ _ => none

/-- `offset = &symbol - pc` of a call (R240). -/
def callOffset (s : State) (symbol : Word) : Word := subX s.xl symbol s.readPc

/-- `offsetLo = offset[11:0]` (R240). -/
def callLo (s : State) (symbol : Word) : BitVec 12 := (callOffset s symbol).extractLsb' 0 12

/-- `offsetHi = (offset + 0x800)[31:12]` (R240), the immediate of the call's auipc. -/
def callHi (s : State) (symbol : Word) : BitVec 20 := (addX s.xl (callOffset s symbol) 0x800).extractLsb' 12 20

/-- Whether the pair reaches the symbol: `(offsetHi << 12) + sext(offsetLo) = offset` (R240). -/
def callReaches (s : State) (symbol : Word) : Bool :=
  addX s.xl (immU s.xl (callHi s symbol)) (immI s.xl (callLo s symbol)) == callOffset s symbol

/-- `call rd, symbol` (R240): the pair's effect, `x[rd] <- pc + 8; pc <- &symbol`. A misaligned symbol raises at the
jalr, after the auipc. DESIGN CHOICE (log 25, unsafe): an odd symbol raises too, also with C; bit 0 is not cleared as
93_implementation_defined.md G20 has jalr do. No meaning with rd = x0 or out of reach. -/
def execCall (rd : Reg) (symbol : Word) (s : State) : Out :=
  if rd ≠ 0 ∧ callReaches s symbol = true then
    if symbol.toNat % s.cfg.ialignBytes ≠ 0 then
      raise ((s.writeX rd (addX s.xl s.readPc (immU s.xl (callHi s symbol)))).advance 4)
        (.instructionAddressMisaligned symbol)
    else .next ((s.writeX rd (addX s.xl s.readPc 8)).writePc symbol)
  else .refused .noPseudoMeaning

/-- `|f|` of a double (48_fp_pseudo.md R275): bit 63 cleared. -/
def absDouble (v : Word) : Word := 0#1 ++ v.setWidth 63

/-- `|f|` of a single (R276): bit 31 cleared. -/
def absSingle (v : BitVec 32) : BitVec 32 := 0#1 ++ v.setWidth 31

/-- The single held in an f register (R276): at FLEN = 64 the low word where the value is boxed, else the canonical NaN. -/
def unboxF (c : Config) (v : Word) : BitVec 32 :=
  if c.ext.d && v.extractLsb' 32 32 != BitVec.allOnes 32 then 0x7FC00000 else v.setWidth 32

/-- `fabs.d rd, rs1` (R275). -/
def execFabsD (rd rs1 : Reg) (s : State) : Out :=
  if s.cfg.ext.d then .next ((s.writeF rd (absDouble (s.readF rs1))).advance 4) else .refused .noPseudoMeaning

/-- `fabs.s rd, rs1` (R276). -/
def execFabsS (rd rs1 : Reg) (s : State) : Out :=
  if s.cfg.ext.f then .next ((s.writeF rd (boxF s.cfg (absSingle (unboxF s.cfg (s.readF rs1))))).advance 4)
  else .refused .noPseudoMeaning

/-- The effect of a pseudo-instruction. -/
def execPseudo (p : Pseudo) (s : State) : Out :=
  match p with
  | .call rd symbol => execCall rd symbol s
  | .fabsD rd rs1 => execFabsD rd rs1 s
  | .fabsS rd rs1 => execFabsS rd rs1 s
  | .beqz _ _ | .bgez _ _ | .bgt _ _ _ | .bgtu _ _ _ | .bgtz _ _ | .ble _ _ _ | .bleu _ _ _ | .blez _ _ | .bltz _ _
  | .bnez _ _ | .csrr _ _ | .csrc _ _ | .csrci _ _ | .csrs _ _ | .csrsi _ _ | .csrw _ _ | .csrwi _ _ =>
    match expansion p with
    | some i => exec i s
    | none => .refused .noPseudoMeaning

end Sys2Proof.Machine
end

