-- ==== Sys2Proof/WellFormed.lean ====
section
/-! DEFINITION. Well-formed instructions: the field values an entry of the source does not call illegal
(30_encoding.md R101, the "cond" column of R102). Register and immediate ranges are in the fields' types. -/

namespace Sys2Proof

/-- The conditions on an instruction's own fields. Presence under (XLEN, EXT) is `Instr.present`. -/
def Instr.wf : Instr → Bool
  | .cAddi4spn _ uimm => uimm != 0
  | .cAddiw rd _ => rd != 0
  | .cAddi16sp imm => imm != 0
  | .cLui rd imm => rd != 2 && imm != 0
  | .cLwsp rd _ => rd != 0
  | .cLdsp rd _ => rd != 0
  | .cJr rs1 => rs1 != 0
  | .cMv _ rs2 => rs2 != 0
  | .cJalr rs1 => rs1 != 0
  | .cAdd rd rs2 => rd != 0 && rs2 != 0
  | .add _ _ _ | .addi _ _ _ | .addiw _ _ _ | .addw _ _ _ | .and _ _ _ | .andi _ _ _ | .auipc _ _
  | .amoaddD _ _ _ _ _ | .amoaddW _ _ _ _ _ | .amoandD _ _ _ _ _ | .amoandW _ _ _ _ _ | .amomaxD _ _ _ _ _
  | .amomaxW _ _ _ _ _ | .amomaxuD _ _ _ _ _ | .amomaxuW _ _ _ _ _ | .amominD _ _ _ _ _ | .amominW _ _ _ _ _
  | .amominuD _ _ _ _ _ | .amominuW _ _ _ _ _ | .amoorD _ _ _ _ _ | .amoorW _ _ _ _ _ | .amoswapD _ _ _ _ _
  | .amoswapW _ _ _ _ _ | .amoxorD _ _ _ _ _ | .amoxorW _ _ _ _ _ | .beq _ _ _ | .bge _ _ _ | .bgeu _ _ _
  | .blt _ _ _ | .bltu _ _ _ | .bne _ _ _ | .csrrc _ _ _ | .csrrci _ _ _ | .csrrs _ _ _ | .csrrsi _ _ _
  | .csrrw _ _ _ | .csrrwi _ _ _ | .div _ _ _ | .divu _ _ _ | .divuw _ _ _ | .divw _ _ _ | .ebreak | .ecall
  | .cFld _ _ _ | .cLw _ _ _ | .cFlw _ _ _ | .cLd _ _ _ | .cFsd _ _ _ | .cSw _ _ _ | .cFsw _ _ _
  | .cSd _ _ _ | .cAddi _ _ | .cJal _ | .cLi _ _ | .cSrli _ _ | .cSrai _ _ | .cAndi _ _ | .cSub _ _
  | .cXor _ _ | .cOr _ _ | .cAnd _ _ | .cSubw _ _ | .cAddw _ _ | .cJ _ | .cBeqz _ _ | .cBnez _ _
  | .cSlli _ _ | .cFldsp _ _ | .cFlwsp _ _ | .cEbreak | .cFsdsp _ _ | .cSwsp _ _ | .cFswsp _ _ | .cSdsp _ _ => true

end Sys2Proof
end

