-- ==== Sys2Proof/Safety.lean ====
section
/-! DEFINITION. The terms in which claims are stated: values as integers, what a step leaves unchanged, what an access
needs, the launch states and the invariants. Nothing here is used by the machine. -/

namespace Sys2Proof.Machine

/-! ## Values -/

/-- The XLEN-bit value congruent to an integer modulo 2^XLEN (00_scope.md R7). -/
def xval (xl : XLen) (z : Int) : Word := BitVec.ofInt 64 (z % 2 ^ xl.bits)

/-- An XLEN-bit value read as a two's-complement integer (00_scope.md R7). -/
def sgn (xl : XLen) (v : Word) : Int :=
  if v.toNat < 2 ^ (xl.bits - 1) then (v.toNat : Int) else (v.toNat : Int) - 2 ^ xl.bits

/-- The low 32 bits of an integer, read as two's complement. -/
def low32 (z : Int) : Int := (BitVec.ofInt 32 z).toInt

/-- An `n`-bit number read as two's complement. -/
def signed (n v : Nat) : Int := if v < 2 ^ (n - 1) then (v : Int) else (v : Int) - 2 ^ n

/-- The value of bytes as a number, the first lowest (20_memory.md R50). -/
def littleEndian : List Byte → Nat
  | [] => 0
  | b :: bs => b.toNat + 256 * littleEndian bs

/-! ## What changes and what does not -/

/-- No integer register changes. -/
def SameX (s t : State) : Prop := ∀ r, t.readX r = s.readX r

/-- No floating-point register changes. -/
def SameF (s t : State) : Prop := ∀ r, t.readF r = s.readF r

/-- No CSR changes. -/
def SameCsrs (s t : State) : Prop := ∀ a, t.csr a = s.csr a

/-- No byte of memory changes. -/
def SameMem (s t : State) : Prop := ∀ a, t.byte a = s.byte a

/-- No field of the model's own changes. -/
def SameModel (s t : State) : Prop := t.cfg = s.cfg ∧ t.tick = s.tick

/-- Every place that writes give a value holds the last one, narrowed to its width, and every other what it held; x[0]
stays zero; the parameters stay. -/
def AfterWrites (s t : State) (w : Writes) : Prop :=
  (∀ r, t.readX r = if r = 0 then 0 else ((w.x.reverse.lookup r).map (wrap s.xl)).getD (s.readX r)) ∧
    (∀ r, t.readF r = ((w.f.reverse.lookup r).map (wrapF s.cfg)).getD (s.readF r)) ∧
    (∀ c, t.csr c = ((w.csrs.reverse.lookup c).map (wrap s.xl)).getD (s.csr c)) ∧
    (∀ b : Word, t.byte (wrap s.xl b).toNat =
      ((w.mem.map fun e => (wrap s.xl e.1, e.2)).reverse.lookup (wrap s.xl b)).getD (s.byte (wrap s.xl b).toNat)) ∧
    t.cfg = s.cfg

/-- The state of a machine with another env. -/
def State.withEnv (s : State) (env : List EnvRule) : State := { s with cfg := { s.cfg with env := env } }

/-- Only pc changes. -/
def OnlyPc (s t : State) (pc : Word) : Prop :=
  t.readPc = pc ∧ SameX s t ∧ SameF s t ∧ SameCsrs s t ∧ SameMem s t ∧ SameModel s t

/-- Only x[rd], to a value (nothing for x[0]), and pc change. -/
def OnlyX (s t : State) (rd : Reg) (v pc : Word) : Prop :=
  t.readX rd = (if rd = 0 then 0 else v) ∧ (∀ r, r ≠ rd → t.readX r = s.readX r) ∧ t.readPc = pc ∧
    SameF s t ∧ SameCsrs s t ∧ SameMem s t ∧ SameModel s t

/-- Only f[rd], to a value, and pc change. -/
def OnlyF (s t : State) (rd : Reg) (v pc : Word) : Prop :=
  t.readF rd = v ∧ (∀ r, r ≠ rd → t.readF r = s.readF r) ∧ t.readPc = pc ∧
    SameX s t ∧ SameCsrs s t ∧ SameMem s t ∧ SameModel s t

/-- The `n` bytes at an address hold the low bytes of a value, the lowest first, and every other byte is unchanged. -/
def StoredAt (s t : State) (a : Word) (n : Nat) (v : Word) : Prop :=
  (∀ i : Nat, i < n → t.byte (xval s.xl (a.toNat + i)).toNat = v.extractLsb' (8 * i) 8) ∧
    (∀ b, (∀ i : Nat, i < n → b ≠ (xval s.xl (a.toNat + i)).toNat) → t.byte b = s.byte b)

/-- Only the `n` bytes stored at an address and pc change. -/
def OnlyStore (s t : State) (a : Word) (n : Nat) (v pc : Word) : Prop :=
  StoredAt s t a n v ∧ t.readPc = pc ∧ SameX s t ∧ SameF s t ∧ SameCsrs s t ∧ SameModel s t

/-- Only x[rd], the `n` bytes stored at an address and pc change. -/
def OnlyXStore (s t : State) (rd : Reg) (v a : Word) (n : Nat) (w pc : Word) : Prop :=
  t.readX rd = (if rd = 0 then 0 else v) ∧ (∀ r, r ≠ rd → t.readX r = s.readX r) ∧ StoredAt s t a n w ∧
    t.readPc = pc ∧ SameF s t ∧ SameCsrs s t ∧ SameModel s t

/-- Only CSR `a`, to a value, x[rd] and pc change. -/
def OnlyCsrX (s t : State) (a : BitVec 12) (new : Word) (rd : Reg) (v pc : Word) : Prop :=
  t.csr a = new ∧ (∀ b, b ≠ a → t.csr b = s.csr b) ∧ t.readX rd = (if rd = 0 then 0 else v) ∧
    (∀ r, r ≠ rd → t.readX r = s.readX r) ∧ t.readPc = pc ∧ SameF s t ∧ SameMem s t ∧ SameModel s t

/-- The next address in sequence, `pc + n` modulo 2^XLEN (10_state.md R26, R27). -/
def seqPc (s : State) (n : Nat) : Word := xval s.xl (s.readPc.toNat + n)

/-- The address at a signed distance from pc, modulo 2^XLEN. -/
def relPc (s : State) (d : Int) : Word := xval s.xl (s.readPc.toNat + d)

/-- The instruction completes, changing only x[rd] and pc. -/
def CompletesX (i : Instr) (s : State) (rd : Reg) (v pc : Word) : Prop := ∃ t, exec i s = .next t ∧ OnlyX s t rd v pc

/-- The instruction completes, changing only f[rd] and pc. -/
def CompletesF (i : Instr) (s : State) (rd : Reg) (v pc : Word) : Prop := ∃ t, exec i s = .next t ∧ OnlyF s t rd v pc

/-- The instruction completes, changing only pc. -/
def CompletesPc (i : Instr) (s : State) (pc : Word) : Prop := ∃ t, exec i s = .next t ∧ OnlyPc s t pc

/-- The instruction completes, changing only the stored bytes and pc. -/
def CompletesStore (i : Instr) (s : State) (a : Word) (n : Nat) (v pc : Word) : Prop :=
  ∃ t, exec i s = .next t ∧ OnlyStore s t a n v pc

/-! ## The families of the opcode table -/

/-- What an instruction does besides writing x[rd] and advancing pc. -/
inductive Kind where
  | compute
  | atomic
  | branch
  | jump
  | csr
  | environment
  | load
  | floatLoad
  | store
deriving DecidableEq, Repr

/-- The kind of each instruction. -/
def Instr.kind : Instr → Kind
  | .add _ _ _ | .addi _ _ _ | .addiw _ _ _ | .addw _ _ _ | .and _ _ _ | .andi _ _ _ | .auipc _ _ => .compute
  | .amoaddD _ _ _ _ _ | .amoaddW _ _ _ _ _ | .amoandD _ _ _ _ _ | .amoandW _ _ _ _ _ | .amomaxD _ _ _ _ _
  | .amomaxW _ _ _ _ _ | .amomaxuD _ _ _ _ _ | .amomaxuW _ _ _ _ _ | .amominD _ _ _ _ _ | .amominW _ _ _ _ _
  | .amominuD _ _ _ _ _ | .amominuW _ _ _ _ _ | .amoorD _ _ _ _ _ | .amoorW _ _ _ _ _ | .amoswapD _ _ _ _ _
  | .amoswapW _ _ _ _ _ | .amoxorD _ _ _ _ _ | .amoxorW _ _ _ _ _ => .atomic
  | .beq _ _ _ | .bge _ _ _ | .bgeu _ _ _ | .blt _ _ _ | .bltu _ _ _ | .bne _ _ _ => .branch
  | .csrrc _ _ _ | .csrrci _ _ _ | .csrrs _ _ _ | .csrrsi _ _ _ | .csrrw _ _ _ | .csrrwi _ _ _ => .csr
  | .div _ _ _ | .divu _ _ _ | .divuw _ _ _ | .divw _ _ _ => .compute
  | .ebreak | .ecall | .cEbreak => .environment
  | .cFld _ _ _ | .cFlw _ _ _ | .cFldsp _ _ | .cFlwsp _ _ => .floatLoad
  | .cLw _ _ _ | .cLd _ _ _ | .cLwsp _ _ | .cLdsp _ _ => .load
  | .cFsd _ _ _ | .cSw _ _ _ | .cFsw _ _ _ | .cSd _ _ _ | .cFsdsp _ _ | .cSwsp _ _ | .cFswsp _ _ | .cSdsp _ _ => .store
  | .cJal _ | .cJ _ | .cBeqz _ _ | .cBnez _ _ | .cJr _ | .cJalr _ => .jump
  | .cAddi4spn _ _ | .cAddi _ _ | .cAddiw _ _ | .cLi _ _ | .cAddi16sp _ | .cLui _ _ | .cSrli _ _ | .cSrai _ _
  | .cAndi _ _ | .cSub _ _ | .cXor _ _ | .cOr _ _ | .cAnd _ _ | .cSubw _ _ | .cAddw _ _ | .cSlli _ _ | .cMv _ _
  | .cAdd _ _ => .compute

/-- The nine operations of the AMOs (41_atomics.md R130). -/
inductive AmoOp where
  | add
  | and
  | or
  | xor
  | swap
  | max
  | maxu
  | min
  | minu
deriving DecidableEq, Repr

/-- `op(t, b)` on `n`-bit numbers, by the table of R130. -/
def AmoOp.apply (n t b : Nat) : AmoOp → Nat
  | .add => (t + b) % 2 ^ n
  | .and => t &&& b
  | .or => t ||| b
  | .xor => t ^^^ b
  | .swap => b
  | .max => if signed n b ≤ signed n t then t else b
  | .maxu => if b ≤ t then t else b
  | .min => if signed n t < signed n b then t else b
  | .minu => if t < b then t else b

/-- funct5 of the operation (30_encoding.md R100). -/
def AmoOp.funct5 : AmoOp → BitVec 5
  | .add => 0b00000
  | .and => 0b01100
  | .or => 0b01000
  | .xor => 0b00100
  | .swap => 0b00001
  | .max => 0b10100
  | .maxu => 0b11100
  | .min => 0b10000
  | .minu => 0b11000

/-- The `.w` instruction of the operation (R133 to R149, odd). -/
def AmoOp.word (aq rl : Bool) (rs2 rs1 rd : Reg) : AmoOp → Instr
  | .add => .amoaddW aq rl rs2 rs1 rd
  | .and => .amoandW aq rl rs2 rs1 rd
  | .or => .amoorW aq rl rs2 rs1 rd
  | .xor => .amoxorW aq rl rs2 rs1 rd
  | .swap => .amoswapW aq rl rs2 rs1 rd
  | .max => .amomaxW aq rl rs2 rs1 rd
  | .maxu => .amomaxuW aq rl rs2 rs1 rd
  | .min => .amominW aq rl rs2 rs1 rd
  | .minu => .amominuW aq rl rs2 rs1 rd

/-- The `.d` instruction of the operation (R132 to R148, even). -/
def AmoOp.double (aq rl : Bool) (rs2 rs1 rd : Reg) : AmoOp → Instr
  | .add => .amoaddD aq rl rs2 rs1 rd
  | .and => .amoandD aq rl rs2 rs1 rd
  | .or => .amoorD aq rl rs2 rs1 rd
  | .xor => .amoxorD aq rl rs2 rs1 rd
  | .swap => .amoswapD aq rl rs2 rs1 rd
  | .max => .amomaxD aq rl rs2 rs1 rd
  | .maxu => .amomaxuD aq rl rs2 rs1 rd
  | .min => .amominD aq rl rs2 rs1 rd
  | .minu => .amominuD aq rl rs2 rs1 rd

/-- The six conditions of the branches (42_branches.md R161 to R166). -/
inductive BranchOp where
  | eq
  | ge
  | geu
  | lt
  | ltu
  | ne
deriving DecidableEq, Repr

/-- `cond(a, b)` on two XLEN-bit values. -/
abbrev BranchOp.holds (xl : XLen) (a b : Word) : BranchOp → Prop
  | .eq => a = b
  | .ge => sgn xl b ≤ sgn xl a
  | .geu => b.toNat ≤ a.toNat
  | .lt => sgn xl a < sgn xl b
  | .ltu => a.toNat < b.toNat
  | .ne => a ≠ b

/-- funct3 of the branch (30_encoding.md R100). -/
def BranchOp.funct3 : BranchOp → BitVec 3
  | .eq => 0b000
  | .ge => 0b101
  | .geu => 0b111
  | .lt => 0b100
  | .ltu => 0b110
  | .ne => 0b001

/-- The branch with the condition. -/
def BranchOp.instr (rs1 rs2 : Reg) (off : BitVec 12) : BranchOp → Instr
  | .eq => .beq rs1 rs2 off
  | .ge => .bge rs1 rs2 off
  | .geu => .bgeu rs1 rs2 off
  | .lt => .blt rs1 rs2 off
  | .ltu => .bltu rs1 rs2 off
  | .ne => .bne rs1 rs2 off

/-- A result of div_spec for an `n`-bit dividend, modulo 2^n. -/
def resultOf (n : Nat) (a : Int) : DivResult → Int
  | .number z => z
  | .dividend => a
  | .onDividend b z other => if a % 2 ^ n = b.toNat then z else resultOf n a other

/-- The quotient of two signed `n`-bit numbers (46_divide.md R260) with the results of a div_spec. -/
def quotSBy (n : Nat) (d : DivResults) (a b : Int) : Int :=
  if b = 0 then resultOf n a d.signedByZero
  else if a = -2 ^ (n - 1) ∧ b = -1 then resultOf n a d.signedOverflow else a.tdiv b

/-- The quotient of two unsigned `n`-bit numbers (R260) with the results of a div_spec. -/
def quotUBy (n : Nat) (d : DivResults) (a b : Nat) : Int :=
  if b = 0 then resultOf n a d.unsignedByZero else (a / b : Nat)

/-- The signed quotient with the results that R260 gives. -/
def quotS (n : Nat) (a b : Int) : Int :=
  if b = 0 then -1 else if a = -2 ^ (n - 1) ∧ b = -1 then -2 ^ (n - 1) else a.tdiv b

/-- The unsigned quotient with the result that R260 gives. -/
def quotU (n a b : Nat) : Nat := if b = 0 then 2 ^ n - 1 else a / b

/-! ## What an access needs (20_memory.md R52 to R55, R67) -/

/-- A load of `n` bytes is aligned and admitted. -/
abbrev LoadOk (s : State) (a : Word) (n : Nat) : Prop := a.toNat % n = 0 ∧ memAdmit s.cfg a n .load = true

/-- None of the `n` bytes at an address is program text. -/
abbrev OutsideText (s : State) (a : Word) (n : Nat) : Prop :=
  ∀ i : Nat, i < n → Config.inCode s.cfg (xval s.xl (a.toNat + i)).toNat = false

/-- All of the `n` bytes at an address are program text. -/
abbrev InsideText (s : State) (a : Word) (n : Nat) : Prop :=
  ∀ i : Nat, i < n → Config.inCode s.cfg (xval s.xl (a.toNat + i)).toNat = true

/-- A store of `n` bytes is aligned, admitted and outside program text. -/
abbrev StoreOk (s : State) (a : Word) (n : Nat) : Prop :=
  a.toNat % n = 0 ∧ memAdmit s.cfg a n .store = true ∧ OutsideText s a n

/-- An AMO is a store that is also admitted as an amo access (41_atomics.md R130, R150; log 15). -/
abbrev AmoOk (s : State) (a : Word) (n : Nat) : Prop := StoreOk s a n ∧ memAdmit s.cfg a n .amo = true

/-- The number that the `n` bytes at an address hold (20_memory.md R50, R52). -/
def valueAt (s : State) (a : Word) (n : Nat) : Nat :=
  littleEndian ((List.range n).map fun i : Nat => s.byte (xval s.xl (a.toNat + i)).toNat)

/-- The address and the size of the access of a compressed load or store (30_encoding.md R92, 43_compressed_1.md R180
item 7). -/
def memOperand (i : Instr) (s : State) : Option (Word × Nat) :=
  match i with
  | .cLw _ q u | .cFlw _ q u | .cSw _ q u | .cFsw _ q u => some (xval s.xl ((s.readX (creg q)).toNat + 4 * u.toNat), 4)
  | .cLd _ q u | .cFld _ q u | .cSd _ q u | .cFsd _ q u => some (xval s.xl ((s.readX (creg q)).toNat + 8 * u.toNat), 8)
  | .cLwsp _ u | .cFlwsp _ u | .cSwsp _ u | .cFswsp _ u => some (xval s.xl ((s.readX 2).toNat + 4 * u.toNat), 4)
  | .cLdsp _ u | .cFldsp _ u | .cSdsp _ u | .cFsdsp _ u => some (xval s.xl ((s.readX 2).toNat + 8 * u.toNat), 8)
  | _ => none

/-- Of a CSR instruction: rd, the CSR, whether the read and the write take place, and the value written as a function of
the state that the read leaves and the value read (45_call_and_csr.md R241 items 1 to 4, R245 to R250): csrrw takes
x[rs1] before the read, csrrs and csrrc name it after the read (00_scope.md R8). -/
def csrOperands (i : Instr) (s : State) : Option (Reg × BitVec 12 × Bool × Bool × (State → Word → Word)) :=
  match i with
  | .csrrw rd a rs1 => some (rd, a, decide (rd ≠ 0), true, fun _ _ => s.readX rs1)
  | .csrrwi rd a zimm => some (rd, a, decide (rd ≠ 0), true, fun _ _ => zimm.setWidth 64)
  | .csrrs rd a rs1 => some (rd, a, true, decide (rs1 ≠ 0), fun got t => orX s.xl t (got.readX rs1))
  | .csrrsi rd a zimm => some (rd, a, true, decide (zimm ≠ 0), fun _ t => orX s.xl t (zimm.setWidth 64))
  | .csrrc rd a rs1 => some (rd, a, true, decide (rs1 ≠ 0), fun got t => andNotX s.xl t (got.readX rs1))
  | .csrrci rd a zimm => some (rd, a, true, decide (zimm ≠ 0), fun _ t => andNotX s.xl t (zimm.setWidth 64))
  | _ => none

/-- No function of csr_model takes part: the instruction is no CSR instruction, or its CSR is plain storage or does not
exist. -/
def PlainCsr (i : Instr) (s : State) : Prop :=
  ∀ rd a doRead doWrite new, csrOperands i s = some (rd, a, doRead, doWrite, new) →
    ∀ d, csrDesc s.cfg a ≠ some (.functions d)

/-- The compressed instruction does what the other does, but moves pc by 2. -/
def ShortOf (s : State) (c i : Instr) : Prop := ∃ t, exec i s = .next t ∧ exec c s = .next (t.writePc (seqPc s 2))

/-- The offset and the condition of a branch pseudo-instruction, from its own entry (42_branches.md R167 to R176). -/
def pseudoCondition (s : State) : Pseudo → Option (BitVec 12 × Prop)
  | .beqz r off => some (off, s.readX r = 0)
  | .bnez r off => some (off, s.readX r ≠ 0)
  | .bgez r off => some (off, 0 ≤ sgn s.xl (s.readX r))
  | .bgtz r off => some (off, 0 < sgn s.xl (s.readX r))
  | .blez r off => some (off, sgn s.xl (s.readX r) ≤ 0)
  | .bltz r off => some (off, sgn s.xl (s.readX r) < 0)
  | .bgt r q off => some (off, sgn s.xl (s.readX q) < sgn s.xl (s.readX r))
  | .ble r q off => some (off, sgn s.xl (s.readX r) ≤ sgn s.xl (s.readX q))
  | .bgtu r q off => some (off, (s.readX q).toNat < (s.readX r).toNat)
  | .bleu r q off => some (off, (s.readX r).toNat ≤ (s.readX q).toNat)
  | _ => none

/-- The bytes at pc are the instruction's word, and a fetch may read them (20_memory.md R57). -/
abbrev HoldsAtPc (s : State) (w : InstrWord) : Prop :=
  s.readPc.toNat % s.cfg.ialignBytes = 0 ∧
    (∀ k : Nat, k < w.ilen / 2 → memAdmit s.cfg (xval s.xl (s.readPc.toNat + 2 * k)) 2 .fetch = true) ∧
    (∀ i : Nat, i < w.ilen → Config.inCode s.cfg (xval s.xl (s.readPc.toNat + i)).toNat = true) ∧
    (List.range w.ilen).map (fun i : Nat => s.byte (xval s.xl (s.readPc.toNat + i)).toNat) = bytesOfWord w

/-! ## Launch states and invariants -/

/-- A launch state (70_reset_and_hazards.md R310): pc at RESET_PC, every register, CSR and byte arbitrary. -/
def Launch (s : State) : Prop := s.readPc = wrap s.xl s.cfg.resetPc

/-- The data invariant: every field holds what the spec says the piece of state can hold, in canonical form. -/
structure Inv (s : State) : Prop where
  /-- D requires F, RESET_PC is an XLEN-bit value (00_scope.md R5). -/
  cfg : s.cfg.wf = true
  /-- x[0] is hardwired to zero (10_state.md R21): its slot is never written. -/
  zero : s.x[0] = 0
  /-- Every integer register holds an XLEN-bit value (R20). -/
  x : ∀ i : Fin 32, s.x[i] = wrap s.xl s.x[i]
  /-- pc holds an XLEN-bit value (R25). -/
  pc : s.pc = wrap s.xl s.pc
  /-- Every floating-point register holds an FLEN-bit value (R32). -/
  f : ∀ i : Fin 32, s.f[i] = wrapF s.cfg s.f[i]
  /-- The CSR file is in canonical form, its addresses are 12 bits, its values XLEN bits (R30). -/
  csrs : sparseWf s.csrs = true ∧ sparseBelow 4096 s.csrs = true ∧ ∀ e ∈ s.csrs, e.2 = wrap s.xl e.2
  /-- The memory is in canonical form, its addresses are XLEN bits (R34). -/
  mem : Memory.wf s.mem = true ∧ sparseBelow (2 ^ s.xl.bits) s.mem = true

/-- Every pc that env answers, to any exception in a state whose own pc is aligned for a fetch, is aligned for a fetch: so
is pc + 4, the answer of a system call that returns (47_environment.md R271). -/
def EnvAligned (c : Config) : Prop :=
  ∀ (u : State) (e : Exception) (a : EnvAnswer), u.cfg = c → u.readPc.toNat % c.ialignBytes = 0 →
    envAnswer u e = some a → (wrap c.xlen a.pc).toNat % c.ialignBytes = 0

/-- pc is aligned for a fetch, and env keeps it so (20_memory.md R58). -/
def PcAligned (s : State) : Prop := s.readPc.toNat % s.cfg.ialignBytes = 0 ∧ EnvAligned s.cfg

end Sys2Proof.Machine
end

