-- ==== Sys2Proof/Certificates/Slice0/Obligations.lean ====
section
/-! DEFINITION. The statements for the provers. A statement about the next state names, through the definitions of
Safety.lean, what changes and says that nothing else does. `s` is any state, also one no run reaches; where canonical
memory or CSR file matters it is a premise, and InvKeptByStep states that it is an invariant. -/

open Sys2Proof Sys2Proof.Machine

/-! ## Encoding and decoding -/

/-- Encodings written out from the examples of the spec (30_encoding.md R100, R102 and the Example lines) decode to the
instructions they stand for; at XLEN = 32 the shared patterns are the other instruction (90_conflicts.md C19). -/
def Obligations.SampleWordsDecode : Prop :=
  decode Config.atReset (.full 0x002081B3) = .instr (.add 3 1 2) ∧
  decode Config.atReset (.full 0xFFF30293) = .instr (.addi 5 6 0xFFF) ∧
  decode Config.atReset (.full 0x0663A2AF) = .instr (.amoaddW true true 6 7 5) ∧
  decode Config.atReset (.full 0xFE208EE3) = .instr (.beq 1 2 0xFFE) ∧
  decode Config.atReset (.full 0x340332F3) = .instr (.csrrc 5 0x340 6) ∧
  decode Config.atReset (.full 0x027342B3) = .instr (.div 5 6 7) ∧
  decode Config.atReset (.full 0x00100073) = .instr .ebreak ∧
  decode Config.atReset (.half 0x952E) = .instr (.cAdd 10 11) ∧
  decode Config.atReset (.half 0x7139) = .instr (.cAddi16sp 0x3C) ∧
  decode Config.atReset (.half 0x3575) = .instr (.cAddiw 10 0x3D) ∧
  decode Config.atReset32 (.half 0x2001) = .instr (.cJal 0) ∧
  decode Config.atReset (.half 0x0000) = .illegal

/-- Every well-formed instruction that is present is what its encoding decodes to, whatever XLEN and EXT are: no bit of
an encoding is dropped (30_encoding.md R81 to R102, R108). -/
def Obligations.DecodeOfEncode : Prop :=
  ∀ (c : Config) (i : Instr), i.wf = true → i.present c = true → decode c (encode i) = .instr i

/-- A word that decodes to an instruction is the encoding of it, and the instruction is well formed and present: no two
words, and no reserved field value, share an instruction (30_encoding.md R100 to R104, R108). -/
def Obligations.EncodeOfDecode : Prop :=
  ∀ (c : Config) (w : InstrWord) (i : Instr), decode c w = .instr i →
    encode i = w ∧ i.wf = true ∧ i.present c = true

/-- The illegal words are exactly those of 30_encoding.md R101, each where no other entry covers it, with C present. -/
def Obligations.IllegalWords : Prop :=
  ∀ (c : Config) (w : InstrWord), decode c w = .illegal ↔ c.ext.c = true ∧ ∃ v, w = .half v ∧
    (v &&& 0xFFE3 = 0x0000 ∨ (c.xlen = .rv64 ∧ v &&& 0xEF83 = 0x2001) ∨ v = 0x6101 ∨
      (v &&& 0xF07F = 0x6001 ∧ v &&& 0x0F80 ≠ 0x0100) ∨ v &&& 0xEF83 = 0x4002 ∨
      (c.xlen = .rv64 ∧ v &&& 0xEF83 = 0x6002) ∨ v = 0x8002 ∨ (v &&& 0xFF83 = 0x9002 ∧ v ≠ 0x9002))

/-- A 3-bit register field names register 8 + field (10_state.md R23). -/
def Obligations.PrimedRegisters : Prop := ∀ r : CReg, (creg r).toNat = 8 + r.toNat

/-! ## The step -/

/-- Where the bytes at pc are an instruction's word in program text, a step is that instruction's meaning, and the step
adds nothing: pc is moved by the meaning itself (20_memory.md R57, 30_encoding.md R108). -/
def Obligations.StepRunsDecoded : Prop :=
  ∀ (s : State) (w : InstrWord) (i : Instr), HoldsAtPc s w → decode s.cfg w = .instr i → step s = exec i s

/-- A fetched illegal word raises IllegalInstruction with the word; any other word that is no instruction is refused by
name (30_encoding.md R101, R104; 60_exceptions.md R281 (a)). -/
def Obligations.StepOnOtherWords : Prop :=
  ∀ (s : State) (w : InstrWord), HoldsAtPc s w → wordOfBytes (bytesOfWord w) = some w →
    (decode s.cfg w = .illegal → step s = raise s (.illegalInstruction w.bits)) ∧
      (decode s.cfg w = .notInSpec → step s = .refused (.notInSpec w))

/-- The fetch of R57, its checks in the order of R57 and R287. -/
def Obligations.FetchChecks : Prop :=
  ∀ s : State,
    (s.readPc.toNat % s.cfg.ialignBytes ≠ 0 → step s = raise s (.instructionAddressMisaligned s.readPc)) ∧
    (s.readPc.toNat % s.cfg.ialignBytes = 0 →
      (memAdmit s.cfg s.readPc 2 .fetch = false → step s = raise s (.instructionAccessFault s.readPc)) ∧
      (memAdmit s.cfg s.readPc 2 .fetch = true →
        (¬ InsideText s s.readPc 2 → step s = .refused .fetchOutsideCode) ∧
        (InsideText s s.readPc 2 → valueAt s s.readPc 2 % 4 = 3 →
          (memAdmit s.cfg (seqPc s 2) 2 .fetch = false → step s = raise s (.instructionAccessFault (seqPc s 2))) ∧
          (memAdmit s.cfg (seqPc s 2) 2 .fetch = true → ¬ InsideText s (seqPc s 2) 2 →
            step s = .refused .fetchOutsideCode))))

/-- An instruction whose tag is not enabled has no meaning: it is refused by name (30_encoding.md R104 (b)); that exec
says so is the model's choice (log 16). -/
def Obligations.AbsentInstructionsRefused : Prop :=
  ∀ (i : Instr) (s : State), i.present s.cfg = false → exec i s = .refused (.notInSpec (encode i))

/-! ## Integer computational instructions (40_integer_computational.md) -/

/-- `add` (R121) and `addi` (R122): the sum modulo 2^XLEN, always present. -/
def Obligations.AddAndAddi : Prop :=
  ∀ (s : State) (rd rs1 rs2 : Reg) (imm : BitVec 12),
    decode s.cfg (.full (0b0000000#7 ++ rs2 ++ rs1 ++ 0b000#3 ++ rd ++ 0b0110011#7)) = .instr (.add rd rs1 rs2) ∧
    CompletesX (.add rd rs1 rs2) s rd (xval s.xl ((s.readX rs1).toNat + (s.readX rs2).toNat)) (seqPc s 4) ∧
    decode s.cfg (.full (imm ++ rs1 ++ 0b000#3 ++ rd ++ 0b0010011#7)) = .instr (.addi rd rs1 imm) ∧
    CompletesX (.addi rd rs1 imm) s rd (xval s.xl ((s.readX rs1).toNat + imm.toInt)) (seqPc s 4)

/-- `addiw` (R123) and `addw` (R124): the sum's low 32 bits, sign-extended; at XLEN = 32 neither exists. -/
def Obligations.AddwAndAddiw : Prop :=
  ∀ (s : State) (rd rs1 rs2 : Reg) (imm : BitVec 12),
    (s.cfg.xlen = .rv64 →
      decode s.cfg (.full (imm ++ rs1 ++ 0b000#3 ++ rd ++ 0b0011011#7)) = .instr (.addiw rd rs1 imm) ∧
      CompletesX (.addiw rd rs1 imm) s rd (xval s.xl (low32 ((s.readX rs1).toNat + imm.toInt))) (seqPc s 4) ∧
      decode s.cfg (.full (0b0000000#7 ++ rs2 ++ rs1 ++ 0b000#3 ++ rd ++ 0b0111011#7)) = .instr (.addw rd rs1 rs2) ∧
      CompletesX (.addw rd rs1 rs2) s rd (xval s.xl (low32 ((s.readX rs1).toNat + (s.readX rs2).toNat))) (seqPc s 4)) ∧
    (s.cfg.xlen = .rv32 →
      decode s.cfg (.full (imm ++ rs1 ++ 0b000#3 ++ rd ++ 0b0011011#7)) = .notInSpec ∧
      decode s.cfg (.full (0b0000000#7 ++ rs2 ++ rs1 ++ 0b000#3 ++ rd ++ 0b0111011#7)) = .notInSpec)

/-- `and` (R125) and `andi` (R126), the immediate sign-extended. -/
def Obligations.AndAndAndi : Prop :=
  ∀ (s : State) (rd rs1 rs2 : Reg) (imm : BitVec 12),
    decode s.cfg (.full (0b0000000#7 ++ rs2 ++ rs1 ++ 0b111#3 ++ rd ++ 0b0110011#7)) = .instr (.and rd rs1 rs2) ∧
    CompletesX (.and rd rs1 rs2) s rd (s.readX rs1 &&& s.readX rs2) (seqPc s 4) ∧
    decode s.cfg (.full (imm ++ rs1 ++ 0b111#3 ++ rd ++ 0b0010011#7)) = .instr (.andi rd rs1 imm) ∧
    CompletesX (.andi rd rs1 imm) s rd (s.readX rs1 &&& xval s.xl imm.toInt) (seqPc s 4)

/-- `auipc` (R127): pc plus the 20-bit immediate shifted left by 12 and sign-extended from bit 31. -/
def Obligations.Auipc : Prop :=
  ∀ (s : State) (rd : Reg) (imm : BitVec 20),
    decode s.cfg (.full (imm ++ rd ++ 0b0010111#7)) = .instr (.auipc rd imm) ∧
    CompletesX (.auipc rd imm) s rd (xval s.xl (s.readPc.toNat + imm.toInt * 4096)) (seqPc s 4)

/-! ## Atomic memory operations (41_atomics.md) -/

/-- The nine `.w` AMOs (R130, R133 to R149, R150): the word at x[rs1] becomes op of it and x[rs2][31:0], x[rd] the old
word sign-extended. -/
def Obligations.AmoWord : Prop :=
  ∀ (op : AmoOp) (aq rl : Bool) (rs2 rs1 rd : Reg) (s : State), s.cfg.ext.a = true →
    decode s.cfg (.full (op.funct5 ++ bit1 aq ++ bit1 rl ++ rs2 ++ rs1 ++ 0b010#3 ++ rd ++ 0b0101111#7)) =
      .instr (op.word aq rl rs2 rs1 rd) ∧
    (Memory.wf s.mem = true → AmoOk s (s.readX rs1) 4 →
      ∃ t, exec (op.word aq rl rs2 rs1 rd) s = .next t ∧
        OnlyXStore s t rd (xval s.xl (low32 (valueAt s (s.readX rs1) 4))) (s.readX rs1) 4
          (BitVec.ofNat 64 (op.apply 32 (valueAt s (s.readX rs1) 4) ((s.readX rs2).toNat % 2 ^ 32))) (seqPc s 4))

/-- The nine `.d` AMOs (R130, R132 to R148, R150), at XLEN = 64. -/
def Obligations.AmoDouble : Prop :=
  ∀ (op : AmoOp) (aq rl : Bool) (rs2 rs1 rd : Reg) (s : State), s.cfg.ext.a = true → s.cfg.xlen = .rv64 →
    decode s.cfg (.full (op.funct5 ++ bit1 aq ++ bit1 rl ++ rs2 ++ rs1 ++ 0b011#3 ++ rd ++ 0b0101111#7)) =
      .instr (op.double aq rl rs2 rs1 rd) ∧
    (Memory.wf s.mem = true → AmoOk s (s.readX rs1) 8 →
      ∃ t, exec (op.double aq rl rs2 rs1 rd) s = .next t ∧
        OnlyXStore s t rd (BitVec.ofNat 64 (valueAt s (s.readX rs1) 8)) (s.readX rs1) 8
          (BitVec.ofNat 64 (op.apply 64 (valueAt s (s.readX rs1) 8) (s.readX rs2).toNat)) (seqPc s 4))

/-- An AMO that may not take place: misaligned, not admitted (as an amo access for its read, or as a store for its write:
R130, log 15), in program text, in this order (R150). -/
def Obligations.AmoTraps : Prop :=
  ∀ (op : AmoOp) (aq rl : Bool) (rs2 rs1 rd : Reg) (s : State) (i : Instr) (n : Nat), s.cfg.ext.a = true →
    (i = op.word aq rl rs2 rs1 rd ∧ n = 4 ∨ i = op.double aq rl rs2 rs1 rd ∧ n = 8 ∧ s.cfg.xlen = .rv64) →
    ((s.readX rs1).toNat % n ≠ 0 → exec i s = raise s (.storeAMOAddressMisaligned (s.readX rs1))) ∧
    ((s.readX rs1).toNat % n = 0 →
      memAdmit s.cfg (s.readX rs1) n .amo = false ∨ memAdmit s.cfg (s.readX rs1) n .store = false →
      exec i s = raise s (.storeAMOAccessFault (s.readX rs1))) ∧
    ((s.readX rs1).toNat % n = 0 → memAdmit s.cfg (s.readX rs1) n .amo = true →
      memAdmit s.cfg (s.readX rs1) n .store = true → ¬ OutsideText s (s.readX rs1) n →
      exec i s = .refused .storeToCode)

/-- `aq` and `rl` have no effect (R131). -/
def Obligations.AqRlNoEffect : Prop :=
  ∀ (op : AmoOp) (aq rl aq' rl' : Bool) (rs2 rs1 rd : Reg) (s : State), s.cfg.ext.a = true →
    exec (op.word aq rl rs2 rs1 rd) s = exec (op.word aq' rl' rs2 rs1 rd) s ∧
    (s.cfg.xlen = .rv64 → exec (op.double aq rl rs2 rs1 rd) s = exec (op.double aq' rl' rs2 rs1 rd) s)

/-! ## Branches (42_branches.md) -/

/-- The six branches (R160 to R166): to pc plus the offset when the condition holds and the target is aligned; when it
holds and the target is not, InstructionAddressMisaligned(target) raised by the branch (20_memory.md R58); to pc + 4 when
it does not hold, whatever the offset. With C and an even pc every target is aligned. The misaligned case is the
spec's own decision, not its source's (log 14). -/
def Obligations.Branches : Prop :=
  ∀ (op : BranchOp) (rs1 rs2 : Reg) (off : BitVec 12) (s : State),
    decode s.cfg (.full (off.extractLsb' 11 1 ++ off.extractLsb' 4 6 ++ rs2 ++ rs1 ++ op.funct3 ++ off.extractLsb' 0 4 ++
      off.extractLsb' 10 1 ++ 0b1100011#7)) = .instr (op.instr rs1 rs2 off) ∧
    (op.holds s.xl (s.readX rs1) (s.readX rs2) → (relPc s (2 * off.toInt)).toNat % s.cfg.ialignBytes = 0 →
      CompletesPc (op.instr rs1 rs2 off) s (relPc s (2 * off.toInt))) ∧
    (op.holds s.xl (s.readX rs1) (s.readX rs2) → (relPc s (2 * off.toInt)).toNat % s.cfg.ialignBytes ≠ 0 →
      exec (op.instr rs1 rs2 off) s = raise s (.instructionAddressMisaligned (relPc s (2 * off.toInt)))) ∧
    (¬ op.holds s.xl (s.readX rs1) (s.readX rs2) → CompletesPc (op.instr rs1 rs2 off) s (seqPc s 4)) ∧
    (s.cfg.ext.c = true → s.readPc.toNat % 2 = 0 → (relPc s (2 * off.toInt)).toNat % s.cfg.ialignBytes = 0)

/-! ## Compressed instructions (43_compressed_1.md, 44_compressed_2.md) -/

/-- `c.add` (R181), `c.addi` (R182), `c.addi16sp` (R183), `c.addi4spn` (R184). -/
def Obligations.CompressedAdds : Prop :=
  ∀ (s : State) (rd rs2 : Reg) (imm : BitVec 6) (rd' : CReg) (u : BitVec 8), s.cfg.ext.c = true →
    (rd ≠ 0 → rs2 ≠ 0 → decode s.cfg (.half (0b100#3 ++ 1#1 ++ rd ++ rs2 ++ 0b10#2)) = .instr (.cAdd rd rs2)) ∧
    CompletesX (.cAdd rd rs2) s rd (xval s.xl ((s.readX rd).toNat + (s.readX rs2).toNat)) (seqPc s 2) ∧
    decode s.cfg (.half (0b000#3 ++ imm.extractLsb' 5 1 ++ rd ++ imm.extractLsb' 0 5 ++ 0b01#2)) =
      .instr (.cAddi rd imm) ∧
    CompletesX (.cAddi rd imm) s rd (xval s.xl ((s.readX rd).toNat + imm.toInt)) (seqPc s 2) ∧
    CompletesX (.cAddi16sp imm) s 2 (xval s.xl ((s.readX 2).toNat + 16 * imm.toInt)) (seqPc s 2) ∧
    CompletesX (.cAddi4spn rd' u) s (creg rd') (xval s.xl ((s.readX 2).toNat + 4 * u.toNat)) (seqPc s 2)

/-- `c.addiw` (R185), `c.addw` (R187), `c.subw` (R228): low 32 bits, sign-extended, at XLEN = 64. -/
def Obligations.CompressedWordAdds : Prop :=
  ∀ (s : State) (rd : Reg) (imm : BitVec 6) (r q : CReg), s.cfg.ext.c = true → s.cfg.xlen = .rv64 →
    CompletesX (.cAddiw rd imm) s rd (xval s.xl (low32 ((s.readX rd).toNat + imm.toInt))) (seqPc s 2) ∧
    CompletesX (.cAddw r q) s (creg r)
      (xval s.xl (low32 ((s.readX (creg r)).toNat + (s.readX (creg q)).toNat))) (seqPc s 2) ∧
    CompletesX (.cSubw r q) s (creg r)
      (xval s.xl (low32 ((s.readX (creg r)).toNat - (s.readX (creg q)).toNat))) (seqPc s 2)

/-- `c.and` (R186), `c.andi` (R188), `c.or` (R221), `c.xor` (R231), `c.sub` (R227). -/
def Obligations.CompressedLogicAndSub : Prop :=
  ∀ (s : State) (r q : CReg) (imm : BitVec 6), s.cfg.ext.c = true →
    CompletesX (.cAnd r q) s (creg r) (s.readX (creg r) &&& s.readX (creg q)) (seqPc s 2) ∧
    CompletesX (.cAndi r imm) s (creg r) (s.readX (creg r) &&& xval s.xl imm.toInt) (seqPc s 2) ∧
    CompletesX (.cOr r q) s (creg r) (s.readX (creg r) ||| s.readX (creg q)) (seqPc s 2) ∧
    CompletesX (.cXor r q) s (creg r) (s.readX (creg r) ^^^ s.readX (creg q)) (seqPc s 2) ∧
    CompletesX (.cSub r q) s (creg r) (xval s.xl ((s.readX (creg r)).toNat - (s.readX (creg q)).toNat)) (seqPc s 2)

/-- `c.li` (R216), `c.lui` (R217), `c.mv` (R220). -/
def Obligations.CompressedMoves : Prop :=
  ∀ (s : State) (rd rs2 : Reg) (imm : BitVec 6), s.cfg.ext.c = true →
    CompletesX (.cLi rd imm) s rd (xval s.xl imm.toInt) (seqPc s 2) ∧
    CompletesX (.cLui rd imm) s rd (xval s.xl (4096 * imm.toInt)) (seqPc s 2) ∧
    CompletesX (.cMv rd rs2) s rd (s.readX rs2) (seqPc s 2)

/-- `c.slli` (R224), `c.srai` (R225), `c.srli` (R226): multiplication by 2^uimm modulo 2^XLEN, and division by 2^uimm,
signed or unsigned, rounded down; every uimm below XLEN. -/
def Obligations.CompressedShifts : Prop :=
  ∀ (s : State) (rd : Reg) (r : CReg) (u : BitVec 6), s.cfg.ext.c = true → u.toNat < s.xl.bits →
    CompletesX (.cSlli rd u) s rd (xval s.xl ((s.readX rd).toNat * 2 ^ u.toNat)) (seqPc s 2) ∧
    CompletesX (.cSrai r u) s (creg r) (xval s.xl (sgn s.xl (s.readX (creg r)) / 2 ^ u.toNat)) (seqPc s 2) ∧
    CompletesX (.cSrli r u) s (creg r) (xval s.xl ((s.readX (creg r)).toNat / 2 ^ u.toNat : Nat)) (seqPc s 2)

/-- At XLEN = 32 a shift with uimm[5] = 1 is refused by name (30_encoding.md R103 item 2). -/
def Obligations.WideShiftsRefused : Prop :=
  ∀ (s : State) (rd : Reg) (r : CReg) (u : BitVec 6), s.cfg.ext.c = true → s.cfg.xlen = .rv32 → 32 ≤ u.toNat →
    exec (.cSlli rd u) s = .refused .shiftAmountTooWide ∧ exec (.cSrai r u) s = .refused .shiftAmountTooWide ∧
    exec (.cSrli r u) s = .refused .shiftAmountTooWide

/-- `c.j` (R210) and, at XLEN = 32, `c.jal` (R211): to pc plus the offset; c.jal links pc + 2 in x[1]. -/
def Obligations.CompressedJumps : Prop :=
  ∀ (s : State) (off : BitVec 11), s.cfg.ext.c = true →
    CompletesPc (.cJ off) s (relPc s (2 * off.toInt)) ∧
    (s.cfg.xlen = .rv32 → CompletesX (.cJal off) s 1 (seqPc s 2) (relPc s (2 * off.toInt)))

/-- `c.jr` (R213) and `c.jalr` (R212): to x[rs1] with bit 0 cleared, read before x[1] is written; c.jalr links pc + 2 in
x[1]. -/
def Obligations.CompressedRegisterJumps : Prop :=
  ∀ (s : State) (rs1 : Reg), s.cfg.ext.c = true →
    CompletesPc (.cJr rs1) s (BitVec.ofNat 64 ((s.readX rs1).toNat / 2 * 2)) ∧
    CompletesX (.cJalr rs1) s 1 (seqPc s 2) (BitVec.ofNat 64 ((s.readX rs1).toNat / 2 * 2))

/-- `c.beqz` (R189) and `c.bnez` (R190). -/
def Obligations.CompressedBranches : Prop :=
  ∀ (s : State) (rs1 : CReg) (off : BitVec 8), s.cfg.ext.c = true →
    (s.readX (creg rs1) = 0 →
      CompletesPc (.cBeqz rs1 off) s (relPc s (2 * off.toInt)) ∧ CompletesPc (.cBnez rs1 off) s (seqPc s 2)) ∧
    (s.readX (creg rs1) ≠ 0 →
      CompletesPc (.cBeqz rs1 off) s (seqPc s 2) ∧ CompletesPc (.cBnez rs1 off) s (relPc s (2 * off.toInt)))

/-- `c.lw` (R218), `c.lwsp` (R219), sign-extended, and at XLEN = 64 `c.ld` (R214), `c.ldsp` (R215). -/
def Obligations.CompressedLoads : Prop :=
  ∀ (s : State) (r q : CReg) (rd : Reg) (u5 : BitVec 5) (u6 : BitVec 6) (a : Word), s.cfg.ext.c = true →
    (a = xval s.xl ((s.readX (creg q)).toNat + 4 * u5.toNat) → LoadOk s a 4 →
      CompletesX (.cLw r q u5) s (creg r) (xval s.xl (low32 (valueAt s a 4))) (seqPc s 2)) ∧
    (a = xval s.xl ((s.readX 2).toNat + 4 * u6.toNat) → LoadOk s a 4 →
      CompletesX (.cLwsp rd u6) s rd (xval s.xl (low32 (valueAt s a 4))) (seqPc s 2)) ∧
    (s.cfg.xlen = .rv64 → a = xval s.xl ((s.readX (creg q)).toNat + 8 * u5.toNat) → LoadOk s a 8 →
      CompletesX (.cLd r q u5) s (creg r) (BitVec.ofNat 64 (valueAt s a 8)) (seqPc s 2)) ∧
    (s.cfg.xlen = .rv64 → a = xval s.xl ((s.readX 2).toNat + 8 * u6.toNat) → LoadOk s a 8 →
      CompletesX (.cLdsp rd u6) s rd (BitVec.ofNat 64 (valueAt s a 8)) (seqPc s 2))

/-- `c.fld` (R192), `c.fldsp` (R193) with D, and at XLEN = 32 with F `c.flw` (R194), `c.flwsp` (R195): 32 bits in a
64-bit register have bits 63:32 all ones (10_state.md R33, a decision of the spec: log 14). -/
def Obligations.CompressedFloatLoads : Prop :=
  ∀ (s : State) (r q : CReg) (rd : Reg) (u5 : BitVec 5) (u6 : BitVec 6) (a : Word), s.cfg.ext.c = true →
    (s.cfg.ext.d = true → a = xval s.xl ((s.readX (creg q)).toNat + 8 * u5.toNat) → LoadOk s a 8 →
      CompletesF (.cFld r q u5) s (creg r) (BitVec.ofNat 64 (valueAt s a 8)) (seqPc s 2)) ∧
    (s.cfg.ext.d = true → a = xval s.xl ((s.readX 2).toNat + 8 * u6.toNat) → LoadOk s a 8 →
      CompletesF (.cFldsp rd u6) s rd (BitVec.ofNat 64 (valueAt s a 8)) (seqPc s 2)) ∧
    (s.cfg.ext.f = true → s.cfg.xlen = .rv32 → a = xval s.xl ((s.readX (creg q)).toNat + 4 * u5.toNat) →
      LoadOk s a 4 → CompletesF (.cFlw r q u5) s (creg r) (BitVec.ofNat 64
        (if s.cfg.ext.d then (2 ^ 32 - 1) * 2 ^ 32 + valueAt s a 4 else valueAt s a 4)) (seqPc s 2)) ∧
    (s.cfg.ext.f = true → s.cfg.xlen = .rv32 → a = xval s.xl ((s.readX 2).toNat + 4 * u6.toNat) →
      LoadOk s a 4 → CompletesF (.cFlwsp rd u6) s rd (BitVec.ofNat 64
        (if s.cfg.ext.d then (2 ^ 32 - 1) * 2 ^ 32 + valueAt s a 4 else valueAt s a 4)) (seqPc s 2))

/-- `c.sw` (R229), `c.swsp` (R230) and, at XLEN = 64, `c.sd` (R222), `c.sdsp` (R223). -/
def Obligations.CompressedStores : Prop :=
  ∀ (s : State) (r q : CReg) (rs2 : Reg) (u5 : BitVec 5) (u6 : BitVec 6) (a : Word), s.cfg.ext.c = true →
    Memory.wf s.mem = true →
    (a = xval s.xl ((s.readX (creg q)).toNat + 4 * u5.toNat) → StoreOk s a 4 →
      CompletesStore (.cSw r q u5) s a 4 (s.readX (creg r)) (seqPc s 2)) ∧
    (a = xval s.xl ((s.readX 2).toNat + 4 * u6.toNat) → StoreOk s a 4 →
      CompletesStore (.cSwsp rs2 u6) s a 4 (s.readX rs2) (seqPc s 2)) ∧
    (s.cfg.xlen = .rv64 → a = xval s.xl ((s.readX (creg q)).toNat + 8 * u5.toNat) → StoreOk s a 8 →
      CompletesStore (.cSd r q u5) s a 8 (s.readX (creg r)) (seqPc s 2)) ∧
    (s.cfg.xlen = .rv64 → a = xval s.xl ((s.readX 2).toNat + 8 * u6.toNat) → StoreOk s a 8 →
      CompletesStore (.cSdsp rs2 u6) s a 8 (s.readX rs2) (seqPc s 2))

/-- `c.fsd` (R196), `c.fsdsp` (R197) with D, and at XLEN = 32 with F `c.fsw` (R198), `c.fswsp` (R199), which store the
low 32 bits whatever the upper ones hold (10_state.md R33). -/
def Obligations.CompressedFloatStores : Prop :=
  ∀ (s : State) (r q : CReg) (rs2 : Reg) (u5 : BitVec 5) (u6 : BitVec 6) (a : Word), s.cfg.ext.c = true →
    Memory.wf s.mem = true →
    (s.cfg.ext.d = true → a = xval s.xl ((s.readX (creg q)).toNat + 8 * u5.toNat) → StoreOk s a 8 →
      CompletesStore (.cFsd r q u5) s a 8 (s.readF (creg r)) (seqPc s 2)) ∧
    (s.cfg.ext.d = true → a = xval s.xl ((s.readX 2).toNat + 8 * u6.toNat) → StoreOk s a 8 →
      CompletesStore (.cFsdsp rs2 u6) s a 8 (s.readF rs2) (seqPc s 2)) ∧
    (s.cfg.ext.f = true → s.cfg.xlen = .rv32 → a = xval s.xl ((s.readX (creg q)).toNat + 4 * u5.toNat) →
      StoreOk s a 4 → CompletesStore (.cFsw r q u5) s a 4 (s.readF (creg r)) (seqPc s 2)) ∧
    (s.cfg.ext.f = true → s.cfg.xlen = .rv32 → a = xval s.xl ((s.readX 2).toNat + 4 * u6.toNat) →
      StoreOk s a 4 → CompletesStore (.cFswsp rs2 u6) s a 4 (s.readF rs2) (seqPc s 2))

/-- The eight loads and eight stores when the access may not take place (R180 item 7): misaligned, then not admitted,
then, for a store, program text. -/
def Obligations.LoadAndStoreTraps : Prop :=
  ∀ (s : State) (i : Instr) (a : Word) (n : Nat), i.present s.cfg = true → memOperand i s = some (a, n) →
    (Instr.kind i = .load ∨ Instr.kind i = .floatLoad →
      (a.toNat % n ≠ 0 → exec i s = raise s (.loadAddressMisaligned a)) ∧
      (a.toNat % n = 0 → memAdmit s.cfg a n .load = false → exec i s = raise s (.loadAccessFault a))) ∧
    (Instr.kind i = .store →
      (a.toNat % n ≠ 0 → exec i s = raise s (.storeAMOAddressMisaligned a)) ∧
      (a.toNat % n = 0 → memAdmit s.cfg a n .store = false → exec i s = raise s (.storeAMOAccessFault a)) ∧
      (a.toNat % n = 0 → memAdmit s.cfg a n .store = true → ¬ OutsideText s a n → exec i s = .refused .storeToCode))

/-- A compressed instruction whose expansion is in scope does what the expansion does, but for pc, which a sequential one
moves by 2 (30_encoding.md R105). The taken branches agree at an even pc, which every run keeps (PcAlignedKeptByStep). -/
def Obligations.CompressedAgreesWithExpansion : Prop :=
  ∀ (s : State) (rd rs2 : Reg) (imm : BitVec 6) (r q : CReg) (u : BitVec 8) (off : BitVec 8), s.cfg.ext.c = true →
    ShortOf s (.cAdd rd rs2) (.add rd rd rs2) ∧ ShortOf s (.cMv rd rs2) (.add rd 0 rs2) ∧
    ShortOf s (.cAddi rd imm) (.addi rd rd (imm.signExtend 12)) ∧
    ShortOf s (.cLi rd imm) (.addi rd 0 (imm.signExtend 12)) ∧
    ShortOf s (.cAddi16sp imm) (.addi 2 2 ((imm ++ 0#4).signExtend 12)) ∧
    ShortOf s (.cAddi4spn r u) (.addi (creg r) 2 ((u ++ 0#2).setWidth 12)) ∧
    ShortOf s (.cAnd r q) (.and (creg r) (creg r) (creg q)) ∧
    ShortOf s (.cAndi r imm) (.andi (creg r) (creg r) (imm.signExtend 12)) ∧
    (s.cfg.xlen = .rv64 → ShortOf s (.cAddiw rd imm) (.addiw rd rd (imm.signExtend 12)) ∧
      ShortOf s (.cAddw r q) (.addw (creg r) (creg r) (creg q))) ∧
    (s.readX (creg r) = 0 → s.readPc.toNat % 2 = 0 → exec (.cBeqz r off) s = exec (.beq (creg r) 0 (off.signExtend 12)) s) ∧
    (s.readX (creg r) ≠ 0 → ShortOf s (.cBeqz r off) (.beq (creg r) 0 (off.signExtend 12))) ∧
    (s.readX (creg r) ≠ 0 → s.readPc.toNat % 2 = 0 → exec (.cBnez r off) s = exec (.bne (creg r) 0 (off.signExtend 12)) s) ∧
    (s.readX (creg r) = 0 → ShortOf s (.cBnez r off) (.bne (creg r) 0 (off.signExtend 12))) ∧
    exec .cEbreak s = exec .ebreak s

/-! ## CSR instructions (45_call_and_csr.md) -/

/-- `csrrw` (R249) and `csrrwi` (R250) on a CSR that csr_model describes as plain storage (log 6): the new value is the
operand in the writable bits, x[rd] the old value; with rd = x0 the right to read is not needed. -/
def Obligations.CsrReadWrite : Prop :=
  ∀ (s : State) (rd rs1 : Reg) (zimm : BitVec 5) (a : BitVec 12) (r w : Bool) (m : Word), sparseWf s.csrs = true →
    csrDesc s.cfg a = some (.storage r w m) → (rd ≠ 0 → r = true) → w = true →
    (∃ t, exec (.csrrw rd a rs1) s = .next t ∧
      OnlyCsrX s t a (wrap s.xl ((s.csr a &&& ~~~m) ||| (s.readX rs1 &&& m))) rd (s.csr a) (seqPc s 4)) ∧
    (∃ t, exec (.csrrwi rd a zimm) s = .next t ∧
      OnlyCsrX s t a (wrap s.xl ((s.csr a &&& ~~~m) ||| (zimm.setWidth 64 &&& m))) rd (s.csr a) (seqPc s 4))

/-- `csrrs` (R247), `csrrc` (R245), `csrrsi` (R248), `csrrci` (R246) on a CSR that is plain storage (log 6): the CSR's
writable bits set in the operand are set or cleared; with rs1 = x0 or zimm = 0 nothing is written and the right to write
is not needed. -/
def Obligations.CsrSetClear : Prop :=
  ∀ (s : State) (rd rs1 : Reg) (zimm : BitVec 5) (a : BitVec 12) (w : Bool) (m : Word), sparseWf s.csrs = true →
    csrDesc s.cfg a = some (.storage true w m) →
    ((rs1 ≠ 0 → w = true) →
      (∃ t, exec (.csrrs rd a rs1) s = .next t ∧
        OnlyCsrX s t a (s.csr a ||| (s.readX rs1 &&& m)) rd (s.csr a) (seqPc s 4)) ∧
      (∃ t, exec (.csrrc rd a rs1) s = .next t ∧
        OnlyCsrX s t a (s.csr a &&& ~~~(s.readX rs1 &&& m)) rd (s.csr a) (seqPc s 4))) ∧
    ((zimm ≠ 0 → w = true) →
      (∃ t, exec (.csrrsi rd a zimm) s = .next t ∧
        OnlyCsrX s t a (s.csr a ||| (zimm.setWidth 64 &&& m)) rd (s.csr a) (seqPc s 4)) ∧
      (∃ t, exec (.csrrci rd a zimm) s = .next t ∧
        OnlyCsrX s t a (s.csr a &&& ~~~(zimm.setWidth 64 &&& m)) rd (s.csr a) (seqPc s 4)))

/-- The six on any CSR, those with functions of their own among them (R241 items 2 to 4, 6): where the accesses that
take place are permitted, and the read leaves `got` with value `v` and the write then leaves `u`, the instruction completes
with x[rd] = v over `u` and pc + 4; a suppressed access takes no part. Where the read or the write would reach program
text, the instruction is refused. The value written is computed in `got`: csrrs and csrrc name x[rs1] after CsrRead
(R247, R245; 00_scope.md R8). The model's own: the form of csr_model's functions and that they leave pc alone (log 6),
the count of accesses (log 23), the refusal (log 12), and that both rights are asked in the state before the instruction
(log 21, a reading of R241 item 5). -/
def Obligations.CsrAccesses : Prop :=
  ∀ (s : State) (i : Instr) (rd : Reg) (a : BitVec 12) (doRead doWrite : Bool) (new : State → Word → Word),
    csrOperands i s = some (rd, a, doRead, doWrite, new) → (csrDesc s.cfg a).isSome = true →
    (doRead = true → csrReadable s a = true) → (doWrite = true → csrWritable s a = true) →
    (∀ (v : Word) (got u : State),
      (if doRead then csrGet s a = .ok (v, got) else v = 0 ∧ got = s) →
      (if doWrite then csrSet got a (new got v) = .ok u else u = got) →
      ∃ t, exec i s = .next t ∧ t.readX rd = (if rd = 0 then 0 else v) ∧ (∀ r, r ≠ rd → t.readX r = u.readX r) ∧
        t.readPc = seqPc s 4 ∧ SameF u t ∧ SameCsrs u t ∧ SameMem u t ∧ t.cfg = s.cfg ∧ t.tick = u.tick) ∧
    ((doRead = true ∧ csrGet s a = .error (.refuse .storeToCode) ∨
      ∃ v got, (if doRead then csrGet s a = .ok (v, got) else v = 0 ∧ got = s) ∧ doWrite = true ∧
        csrSet got a (new got v) = .error (.refuse .storeToCode)) →
      exec i s = .refused .storeToCode)

/-- A CSR that does not exist, or an access that takes place without the right to it, raises
IllegalInstruction(instruction bits) with no effect (R241 item 5). That both rights are asked in the state before the
instruction is the model's reading (log 21). -/
def Obligations.CsrIllegal : Prop :=
  ∀ (s : State) (i : Instr) (rd : Reg) (a : BitVec 12) (doRead doWrite : Bool) (new : State → Word → Word),
    csrOperands i s = some (rd, a, doRead, doWrite, new) →
    ((csrDesc s.cfg a).isSome = false ∨ (doRead = true ∧ csrReadable s a = false) ∨
      (doWrite = true ∧ csrWritable s a = false)) →
    exec i s = raise s (.illegalInstruction (encode i).bits)

/-! ## Divide (46_divide.md) -/

/-- `div` (R261) and `divu` (R262): the quotient functions of R260 on XLEN bits with the results of the parameter
div_spec; and where div_spec is the one R260 gives, all ones and the dividend in the corners (log 24). Nothing traps. -/
def Obligations.Divide : Prop :=
  ∀ (s : State) (rd rs1 rs2 : Reg), s.cfg.ext.m = true →
    decode s.cfg (.full (0b0000001#7 ++ rs2 ++ rs1 ++ 0b100#3 ++ rd ++ 0b0110011#7)) = .instr (.div rd rs1 rs2) ∧
    decode s.cfg (.full (0b0000001#7 ++ rs2 ++ rs1 ++ 0b101#3 ++ rd ++ 0b0110011#7)) = .instr (.divu rd rs1 rs2) ∧
    CompletesX (.div rd rs1 rs2) s rd (xval s.xl (quotSBy s.xl.bits (s.cfg.divSpec.results s.xl.bits)
      (sgn s.xl (s.readX rs1)) (sgn s.xl (s.readX rs2)))) (seqPc s 4) ∧
    CompletesX (.divu rd rs1 rs2) s rd (xval s.xl (quotUBy s.xl.bits (s.cfg.divSpec.results s.xl.bits)
      (s.readX rs1).toNat (s.readX rs2).toNat)) (seqPc s 4) ∧
    (s.cfg.divSpec = DivSpec.standard →
      CompletesX (.div rd rs1 rs2) s rd
        (xval s.xl (quotS s.xl.bits (sgn s.xl (s.readX rs1)) (sgn s.xl (s.readX rs2)))) (seqPc s 4) ∧
      CompletesX (.divu rd rs1 rs2) s rd
        (xval s.xl (quotU s.xl.bits (s.readX rs1).toNat (s.readX rs2).toNat)) (seqPc s 4))

/-- `divw` (R264) and `divuw` (R263): the quotient functions of R260 on the low 32 bits, sign-extended, with the results
of the parameter div_spec, and with those that R260 gives (log 24). -/
def Obligations.DivideWord : Prop :=
  ∀ (s : State) (rd rs1 rs2 : Reg), s.cfg.ext.m = true → s.cfg.xlen = .rv64 →
    decode s.cfg (.full (0b0000001#7 ++ rs2 ++ rs1 ++ 0b100#3 ++ rd ++ 0b0111011#7)) = .instr (.divw rd rs1 rs2) ∧
    decode s.cfg (.full (0b0000001#7 ++ rs2 ++ rs1 ++ 0b101#3 ++ rd ++ 0b0111011#7)) = .instr (.divuw rd rs1 rs2) ∧
    CompletesX (.divw rd rs1 rs2) s rd (xval s.xl (low32 (quotSBy 32 (s.cfg.divSpec.results 32)
      (low32 (s.readX rs1).toNat) (low32 (s.readX rs2).toNat)))) (seqPc s 4) ∧
    CompletesX (.divuw rd rs1 rs2) s rd (xval s.xl (low32 (quotUBy 32 (s.cfg.divSpec.results 32)
      ((s.readX rs1).toNat % 2 ^ 32) ((s.readX rs2).toNat % 2 ^ 32)))) (seqPc s 4) ∧
    (s.cfg.divSpec = DivSpec.standard →
      CompletesX (.divw rd rs1 rs2) s rd
        (xval s.xl (low32 (quotS 32 (low32 (s.readX rs1).toNat) (low32 (s.readX rs2).toNat)))) (seqPc s 4) ∧
      CompletesX (.divuw rd rs1 rs2) s rd
        (xval s.xl (low32 (quotU 32 ((s.readX rs1).toNat % 2 ^ 32) ((s.readX rs2).toNat % 2 ^ 32)))) (seqPc s 4))

/-! ## Exceptions (47_environment.md, 60_exceptions.md) -/

/-- `ebreak` (R270) and `c.ebreak` (R191) raise Breakpoint(pc), `ecall` (R271) EnvironmentCall: with env's Stop the run
ends in that trap; with Continue(state') the next state is state'. That an answer which changes program text is refused is
the model's choice (log 12), and so is the form of env (log 11). -/
def Obligations.EnvironmentInstructions : Prop :=
  ∀ (s : State) (i : Instr) (e : Exception),
    (i = .ebreak ∧ e = .breakpoint s.readPc ∨ i = .ecall ∧ e = .environmentCall ∨
      i = .cEbreak ∧ e = .breakpoint s.readPc ∧ s.cfg.ext.c = true) →
    (envAnswer s e = none → exec i s = .fault (.trap e)) ∧
    (∀ a : EnvAnswer, envAnswer s e = some a →
      (a.writesCode s.cfg = false → exec i s = .next (s.continueWith a)) ∧
      (a.writesCode s.cfg = true → exec i s = .refused .storeToCode))

/-- The state' of Continue(state') (R283): pc and what the answer writes, the last write to a place counting; x[0] stays
zero and everything else is the state of the trap. The form of the answer is the model's choice (log 11). -/
def Obligations.ContinueState : Prop :=
  ∀ (s : State) (a : EnvAnswer), Memory.wf s.mem = true → sparseWf s.csrs = true →
    (s.continueWith a).readPc = wrap s.xl a.pc ∧ AfterWrites s (s.continueWith a) a.toWrites ∧
    (s.continueWith a).tick = s.tick

/-- Exceptions are precise (60_exceptions.md R282, section 1): a step that ends in a trap has written nothing, for if env
is another that answers the trap in the state before the instruction, the next state is made of that state and the answer's
writes alone. That env is held as clauses over the state, in the configuration, and that an answer which writes program
text is refused are the model's choice (log 11, 12). -/
def Obligations.PreciseTraps : Prop :=
  ∀ (s : State) (e : Exception), step s = .fault (.trap e) →
    envAnswer s e = none ∧ ∀ (env : List EnvRule) (a : EnvAnswer), envAnswer (s.withEnv env) e = some a →
      a.writesCode s.cfg = false → step (s.withEnv env) = .next ((s.withEnv env).continueWith a)

/-- Which instruction raises which exception (R280, R281 (b)): no instruction raises any other. -/
def Obligations.TrapsByKind : Prop :=
  ∀ (i : Instr) (s : State) (e : Exception), exec i s = .fault (.trap e) →
    match Instr.kind i with
    | .compute | .jump => False
    | .atomic => ∃ a, e = .storeAMOAddressMisaligned a ∨ e = .storeAMOAccessFault a
    | .branch => (s.readPc.toNat % 2 = 0 → s.cfg.ext.c = false) ∧
      ∃ target, e = .instructionAddressMisaligned target ∧ target.toNat % s.cfg.ialignBytes ≠ 0
    | .csr => e = .illegalInstruction (encode i).bits
    | .environment => e = .environmentCall ∨ e = .breakpoint s.readPc
    | .load | .floatLoad => ∃ a, e = .loadAddressMisaligned a ∨ e = .loadAccessFault a
    | .store => ∃ a, e = .storeAMOAddressMisaligned a ∨ e = .storeAMOAccessFault a

/-! ## State and memory (10_state.md, 20_memory.md) -/

/-- x[0] reads as zero always and a write to it is discarded (R21). -/
def Obligations.ZeroRegister : Prop := ∀ (s : State) (v : Word), s.readX 0 = 0 ∧ s.writeX 0 v = s

/-- Mixed widths (R51): words of a doubleword written, a doubleword of words written, parcels of bytes. -/
def Obligations.MixedWidths : Prop :=
  ∀ (s : State) (a : Word), Memory.wf s.mem = true →
    (∀ v, StoreOk s a 8 → ∃ t, memWrite s a 8 v = .ok t ∧ valueAt t a 4 = v.toNat % 2 ^ 32 ∧
      valueAt t (xval s.xl (a.toNat + 4)) 4 = v.toNat / 2 ^ 32) ∧
    (∀ lo hi, StoreOk s a 4 → StoreOk s (xval s.xl (a.toNat + 4)) 4 →
      ∃ t u, memWrite s a 4 lo = .ok t ∧ memWrite t (xval s.xl (a.toNat + 4)) 4 hi = .ok u ∧
        valueAt u a 8 = lo.toNat % 2 ^ 32 + 2 ^ 32 * (hi.toNat % 2 ^ 32)) ∧
    (∀ p, a.toNat < 2 ^ s.xl.bits → fetchParcel s a = .ok p →
      p = s.byte (xval s.xl (a.toNat + 1)).toNat ++ s.byte a.toNat)

/-- Canonical memories that read alike are equal: the memory is plain data (the model's choice, log 10). -/
def Obligations.CanonicalMemoryUnique : Prop :=
  ∀ m m' : List Host.Cell, Memory.wf m = true → Memory.wf m' = true →
    (∀ a, sparseRead m a = sparseRead m' a) → m = m'

/-- Only the 18 AMOs and the eight stores write memory (R34, R61), env's answers and the functions of csr_model apart:
that a write or read of a CSR can change memory only through its functions in csr_model, and not at all where the CSR is
plain storage, is the model's choice (log 6). -/
def Obligations.OnlyStoresWriteMemory : Prop :=
  ∀ (i : Instr) (s t : State), s.cfg.env = [] → exec i s = .next t →
    Instr.kind i ≠ .atomic → Instr.kind i ≠ .store → PlainCsr i s → SameMem s t

/-- Only csrrw, csrrs, csrrc, csrrwi, csrrsi, csrrci reach a CSR (R30), env's answers apart. -/
def Obligations.OnlyCsrInstructionsReachCsrs : Prop :=
  ∀ (i : Instr) (s t : State), s.cfg.env = [] → exec i s = .next t → Instr.kind i ≠ .csr →
    SameCsrs s t ∧ t.tick = s.tick

/-- Only c.fld, c.fldsp, c.flw, c.flwsp write a floating-point register (R32), env's answers and the functions of
csr_model apart, which are the model's choice (log 6). -/
def Obligations.OnlyFloatLoadsWriteF : Prop :=
  ∀ (i : Instr) (s t : State), s.cfg.env = [] → exec i s = .next t → Instr.kind i ≠ .floatLoad → PlainCsr i s →
    SameF s t

/-- Every instruction that does not write pc is followed by the one at pc + ilen (R26); that the functions of csr_model
leave pc alone is the model's choice (log 6). -/
def Obligations.SequentialPc : Prop :=
  ∀ (i : Instr) (s t : State), s.cfg.env = [] → exec i s = .next t → Instr.kind i ≠ .branch → Instr.kind i ≠ .jump →
    t.readPc = seqPc s (encode i).ilen

/-! ## Reset and invariants -/

/-- The reset value of pc is RESET_PC (R28). -/
def Obligations.ResetPc : Prop := State.reset.readPc = wrap State.reset.xl State.reset.cfg.resetPc

/-- The invariants hold of the reset state, whose values but pc and x[0] are the model's choice (log 2 to 10). -/
def Obligations.InvAtReset : Prop := Inv State.reset ∧ PcAligned State.reset

/-- Every step keeps the data invariant: XLEN-bit and FLEN-bit registers, x[0]'s slot zero, canonical CSR file and
memory within the address space (10_state.md R20, R21, R25, R30, R32, R34; log 10, 13). -/
def Obligations.InvKeptByStep : Prop := ∀ s t : State, Inv s → step s = .next t → Inv t

/-- Every step keeps pc aligned for the next fetch, as long as env answers an aligned pc, such as pc + 4, where pc is
aligned (20_memory.md R58): the check at fetch can fire only for a misaligned RESET_PC or answer of env. -/
def Obligations.PcAlignedKeptByStep : Prop := ∀ s t : State, PcAligned s → step s = .next t → PcAligned t

/-- Program text is constant during a run, and so are the parameters (20_memory.md R67, 00_scope.md R5). That an answer of
env or a function of csr_model which would write program text is refused is the model's choice (log 12). -/
def Obligations.ProgramTextConstant : Prop :=
  ∀ s t : State, step s = .next t → t.cfg = s.cfg ∧ ∀ b, Config.inCode s.cfg b = true → t.byte b = s.byte b

/-! ## Pseudo-instructions (30_encoding.md R107) -/

/-- The ten branch pseudo-instructions (42_branches.md R167 to R176): to pc plus the offset when the condition holds and
the target is aligned; when it holds and the target is not, InstructionAddressMisaligned(target), as R160 has it for
the expansion (the spec's own decision, not its source's: log 14); to pc + 4 when it does not hold. -/
def Obligations.BranchPseudos : Prop :=
  ∀ (s : State) (p : Pseudo) (off : BitVec 12) (cond : Prop), pseudoCondition s p = some (off, cond) →
    (cond → (relPc s (2 * off.toInt)).toNat % s.cfg.ialignBytes = 0 →
      ∃ t, execPseudo p s = .next t ∧ OnlyPc s t (relPc s (2 * off.toInt))) ∧
    (cond → (relPc s (2 * off.toInt)).toNat % s.cfg.ialignBytes ≠ 0 →
      execPseudo p s = raise s (.instructionAddressMisaligned (relPc s (2 * off.toInt)))) ∧
    (¬ cond → ∃ t, execPseudo p s = .next t ∧ OnlyPc s t (seqPc s 4))

/-- The seven CSR pseudo-instructions (45_call_and_csr.md R242 to R244, R251 to R254) on a CSR that is plain storage with
full rights: csrr writes nothing, the others leave every x register alone. -/
def Obligations.CsrPseudos : Prop :=
  ∀ (s : State) (rd rs1 : Reg) (zimm : BitVec 5) (a : BitVec 12), sparseWf s.csrs = true →
    csrDesc s.cfg a = some (.storage true true (BitVec.allOnes 64)) →
    (∃ t, execPseudo (.csrr rd a) s = .next t ∧ OnlyX s t rd (s.csr a) (seqPc s 4)) ∧
    (∃ t, execPseudo (.csrw a rs1) s = .next t ∧ OnlyCsrX s t a (s.readX rs1) 0 0 (seqPc s 4)) ∧
    (∃ t, execPseudo (.csrwi a zimm) s = .next t ∧ OnlyCsrX s t a (zimm.setWidth 64) 0 0 (seqPc s 4)) ∧
    (∃ t, execPseudo (.csrs a rs1) s = .next t ∧ OnlyCsrX s t a (s.csr a ||| s.readX rs1) 0 0 (seqPc s 4)) ∧
    (∃ t, execPseudo (.csrsi a zimm) s = .next t ∧ OnlyCsrX s t a (s.csr a ||| zimm.setWidth 64) 0 0 (seqPc s 4)) ∧
    (∃ t, execPseudo (.csrc a rs1) s = .next t ∧ OnlyCsrX s t a (s.csr a &&& ~~~s.readX rs1) 0 0 (seqPc s 4)) ∧
    (∃ t, execPseudo (.csrci a zimm) s = .next t ∧ OnlyCsrX s t a (s.csr a &&& ~~~zimm.setWidth 64) 0 0 (seqPc s 4))

/-- `call` (45_call_and_csr.md R240): x[rd] is pc + 8 and pc the symbol, for every symbol at XLEN = 32 and every symbol
within the pair's reach of 2^31 at XLEN = 64. The pair as one effect is the model's choice (log 19). -/
def Obligations.CallEffect : Prop :=
  ∀ (s : State) (rd : Reg) (symbol : Word), rd ≠ 0 → symbol.toNat < 2 ^ s.xl.bits →
    symbol.toNat % s.cfg.ialignBytes = 0 →
    (s.cfg.xlen = .rv64 → -2 ^ 31 - 2048 ≤ (symbol.toNat : Int) - s.readPc.toNat ∧
      (symbol.toNat : Int) - s.readPc.toNat < 2 ^ 31 - 2048) →
    ∃ t, execPseudo (.call rd symbol) s = .next t ∧ OnlyX s t rd (seqPc s 8) symbol

/-- `fabs.d` (48_fp_pseudo.md R275) clears bit 63; `fabs.s` (R276) clears bit 31 of the single, which at FLEN = 64 is
the low word where it is boxed, else the canonical NaN, and boxes the result (a decision of the spec: log 14, 19). -/
def Obligations.FabsEffect : Prop :=
  ∀ (s : State) (rd rs1 : Reg),
    (s.cfg.ext.d = true → ∃ t, execPseudo (.fabsD rd rs1) s = .next t ∧
      OnlyF s t rd (BitVec.ofNat 64 ((s.readF rs1).toNat % 2 ^ 63)) (seqPc s 4)) ∧
    (s.cfg.ext.f = true → s.cfg.ext.d = false → ∃ t, execPseudo (.fabsS rd rs1) s = .next t ∧
      OnlyF s t rd (BitVec.ofNat 64 ((s.readF rs1).toNat % 2 ^ 31)) (seqPc s 4)) ∧
    (s.cfg.ext.f = true → s.cfg.ext.d = true → ∃ t, execPseudo (.fabsS rd rs1) s = .next t ∧
      OnlyF s t rd (BitVec.ofNat 64 ((2 ^ 32 - 1) * 2 ^ 32 +
        (if (s.readF rs1).toNat / 2 ^ 32 = 2 ^ 32 - 1 then (s.readF rs1).toNat % 2 ^ 31 else 0x7FC00000))) (seqPc s 4))

/-! ## The functions of csr_model (10_state.md R30) -/

/-- The functions of csr_model (10_state.md R30) of a CSR that is not plain storage: the rights are may_read and may_write
of the state; a read returns read of the state and leaves the state that its side effect makes, a write leaves the state
that write makes: the last value given to a place, everything else as before, pc and the parameters always. That the
functions are terms of the state, what they can change and that they may not reach program text are the model's choice
(log 6, 12), and so is the count of accesses (log 23). -/
def Obligations.CsrFunctions : Prop :=
  ∀ (s : State) (a : BitVec 12) (d : CsrFns) (v : Word), csrDesc s.cfg a = some (.functions d) →
    Memory.wf s.mem = true → sparseWf s.csrs = true →
    csrReadable s a = fnHolds s.view [csrArg a] d.mayRead ∧ csrWritable s a = fnHolds s.view [csrArg a] d.mayWrite ∧
    ((fnWrites s.view [csrArg a] d.readEffect).writesCode s.cfg = false →
      ∃ t, csrGet s a = .ok (wrap s.xl (fnValue s.view [csrArg a] d.read), t) ∧
        AfterWrites s t (fnWrites s.view [csrArg a] d.readEffect) ∧ t.readPc = s.readPc ∧ t.tick = s.tick + 1) ∧
    ((fnWrites s.view [csrArg a, wrap s.xl v] d.write).writesCode s.cfg = false →
      ∃ t, csrSet s a v = .ok t ∧
        AfterWrites s t (fnWrites s.view [csrArg a, wrap s.xl v] d.write) ∧ t.readPc = s.readPc ∧ t.tick = s.tick + 1) ∧
    ((fnWrites s.view [csrArg a] d.readEffect).writesCode s.cfg = true →
      csrGet s a = .error (.refuse .storeToCode)) ∧
    ((fnWrites s.view [csrArg a, wrap s.xl v] d.write).writesCode s.cfg = true →
      csrSet s a v = .error (.refuse .storeToCode))
end

