-- ==== Sys2Proof/Laws/Operands.lean ====
section
/-! SUPPORT. XLEN-bit values: narrowing is idempotent, a narrowed value is below 2^XLEN, and each XLEN-wide operation as
arithmetic modulo 2^XLEN. -/

namespace Sys2Proof.Machine

/-! ## Narrowing -/

theorem wrap_eq_self_iff (xl : XLen) (v : Word) : wrap xl v = v ↔ v.toNat < 2 ^ xl.bits := by
  cases xl
  · simp only [wrap, XLen.bits, ← BitVec.toNat_inj, BitVec.toNat_setWidth]; omega
  · simp only [wrap, XLen.bits, true_iff]; exact v.isLt

@[simp] theorem wrap_wrap (xl : XLen) (v : Word) : wrap xl (wrap xl v) = wrap xl v := by
  cases xl
  · simp only [wrap, ← BitVec.toNat_inj, BitVec.toNat_setWidth]; omega
  · rfl

theorem wrap_toNat (xl : XLen) (v : Word) : (wrap xl v).toNat = v.toNat % 2 ^ xl.bits := by
  cases xl
  · simp only [wrap, XLen.bits, BitVec.toNat_setWidth]; omega
  · simp only [wrap, XLen.bits]; exact (Nat.mod_eq_of_lt v.isLt).symm

theorem wrap_lt (xl : XLen) (v : Word) : (wrap xl v).toNat < 2 ^ xl.bits := by
  rw [wrap_toNat]; exact Nat.mod_lt _ (by positivity)

@[simp] theorem wrap_zero (xl : XLen) : wrap xl 0#64 = 0#64 := by cases xl <;> rfl

theorem XLen.bits_cases (xl : XLen) : xl.bits = 32 ∨ xl.bits = 64 := by cases xl <;> simp [XLen.bits]

/-! ## `xval` -/

theorem xval_toNat (xl : XLen) (z : Int) : ((xval xl z).toNat : Int) = z % 2 ^ xl.bits := by
  unfold xval
  rw [BitVec.toNat_ofInt]
  have h0 : 0 ≤ z % 2 ^ xl.bits := Int.emod_nonneg _ (by positivity)
  have h1 : z % 2 ^ xl.bits < 2 ^ xl.bits := Int.emod_lt_of_pos _ (by positivity)
  have h2 : (2 : Int) ^ xl.bits ≤ 2 ^ 64 := by cases xl <;> simp [XLen.bits]
  rw [Int.emod_eq_of_lt (by omega) (by push_cast; omega)]
  exact Int.toNat_of_nonneg (by omega)

theorem xval_lt (xl : XLen) (z : Int) : (xval xl z).toNat < 2 ^ xl.bits := by
  have h := xval_toNat xl z
  have h1 : z % 2 ^ xl.bits < 2 ^ xl.bits := Int.emod_lt_of_pos _ (by positivity)
  have : ((xval xl z).toNat : Int) < ((2 ^ xl.bits : Nat) : Int) := by push_cast; omega
  exact_mod_cast this

@[simp] theorem wrap_xval (xl : XLen) (z : Int) : wrap xl (xval xl z) = xval xl z :=
  (wrap_eq_self_iff xl _).2 (xval_lt xl z)

/-- The one way to show that a value is an `xval`: it is below 2^XLEN and congruent. -/
theorem eq_xval {xl : XLen} {v : Word} {z : Int} (hlt : v.toNat < 2 ^ xl.bits)
    (h : (v.toNat : Int) % 2 ^ xl.bits = z % 2 ^ xl.bits) : v = xval xl z := by
  apply BitVec.eq_of_toNat_eq
  have h1 := xval_toNat xl z
  have : (v.toNat : Int) % 2 ^ xl.bits = v.toNat := Int.emod_eq_of_lt (by omega) (by exact_mod_cast hlt)
  omega

theorem xval_congr {xl : XLen} {a b : Int} (h : a % 2 ^ xl.bits = b % 2 ^ xl.bits) : xval xl a = xval xl b := by
  unfold xval; rw [h]

theorem wrap_eq_xval (xl : XLen) (v : Word) : wrap xl v = xval xl v.toNat :=
  eq_xval (wrap_lt xl v) (by rw [wrap_toNat]; push_cast; exact Int.emod_emod_of_dvd _ (dvd_refl _))

theorem xval_of_lt {xl : XLen} {v : Word} (h : v.toNat < 2 ^ xl.bits) : xval xl v.toNat = v :=
  (eq_xval h rfl).symm

@[simp] theorem xval_xval_add (xl : XLen) (a b : Int) : xval xl ((xval xl a).toNat + b) = xval xl (a + b) := by
  apply xval_congr; rw [xval_toNat, Int.emod_add_emod]

/-! ## The two's-complement reading -/

theorem sgn_emod (xl : XLen) (v : Word) : sgn xl v % 2 ^ xl.bits = (v.toNat : Int) % 2 ^ xl.bits := by
  unfold sgn; split
  · rfl
  · simp

theorem xval_sgn {xl : XLen} {v : Word} (h : v.toNat < 2 ^ xl.bits) : xval xl (sgn xl v) = v := by
  rw [xval_congr (sgn_emod xl v), xval_of_lt h]

theorem toInt_setWidth32 {v : Word} (h : v.toNat < 2 ^ 32) : (v.setWidth 32).toInt = sgn .rv32 v := by
  rw [BitVec.toInt_eq_toNat_cond, BitVec.toNat_setWidth, Nat.mod_eq_of_lt h, sgn]
  simp only [XLen.bits]
  norm_num
  split <;> rename_i h1 <;> split <;> rename_i h2 <;> omega

theorem toInt_eq_sgn (v : Word) : v.toInt = sgn .rv64 v := by
  rw [BitVec.toInt_eq_toNat_cond, sgn]
  simp only [XLen.bits]
  norm_num
  split <;> rename_i h1 <;> split <;> rename_i h2 <;> omega

/-! ## Extension -/

theorem sextX_eq_xval (xl : XLen) {k : Nat} (v : BitVec k) : sextX xl v = xval xl v.toInt := by
  cases xl
  · apply eq_xval
    · simp only [sextX, XLen.bits, BitVec.toNat_setWidth]; exact lt_of_le_of_lt (Nat.mod_le _ _) (BitVec.isLt _)
    · simp only [sextX, XLen.bits, BitVec.toNat_setWidth]
      have h : (BitVec.signExtend 32 v) = BitVec.ofInt 32 v.toInt := rfl
      rw [h, BitVec.toNat_ofInt]
      omega
  · apply eq_xval
    · exact (sextX .rv64 v).isLt
    · simp only [sextX, XLen.bits]
      have h : (BitVec.signExtend 64 v) = BitVec.ofInt 64 v.toInt := rfl
      rw [h, BitVec.toNat_ofInt]
      omega

theorem low32_eq (v : Word) : (v.setWidth 32).toInt = low32 v.toNat := rfl

theorem low32_congr {a b : Int} (h : a % 2 ^ 32 = b % 2 ^ 32) : low32 a = low32 b := by
  unfold low32; congr 1
  apply BitVec.eq_of_toNat_eq
  rw [BitVec.toNat_ofInt, BitVec.toNat_ofInt]
  norm_num at h ⊢
  rw [h]

theorem sextWord_eq_xval (xl : XLen) (v : Word) : sextWord xl v = xval xl (low32 v.toNat) := by
  rw [sextWord, sextX_eq_xval, low32_eq]

/-! ## Scaled immediates (30_encoding.md R92, R97, R98) -/

theorem append_zero_toNat {n : Nat} (v : BitVec n) (k : Nat) : (v ++ 0#k).toNat = v.toNat * 2 ^ k := by
  rw [BitVec.toNat_append, BitVec.toNat_ofNat, Nat.zero_mod, Nat.or_zero, Nat.shiftLeft_eq]

theorem append_zero_toInt {n : Nat} (v : BitVec n) (k : Nat) : (v ++ 0#k).toInt = v.toInt * 2 ^ k := by
  rw [BitVec.toInt_eq_toNat_cond, BitVec.toInt_eq_toNat_cond, append_zero_toNat]
  have h : 2 * (v.toNat * 2 ^ k) < 2 ^ (n + k) ↔ 2 * v.toNat < 2 ^ n := by
    rw [← mul_assoc, pow_add]; exact Nat.mul_lt_mul_right (by positivity)
  by_cases hv : 2 * v.toNat < 2 ^ n
  · rw [if_pos (h.2 hv), if_pos hv]; push_cast; ring
  · rw [if_neg (fun e => hv (h.1 e)), if_neg hv, pow_add]; push_cast; ring

theorem uimm4_toNat {k : Nat} (hk : k ≤ 62) (u : BitVec k) : (uimm4 u).toNat = 4 * u.toNat := by
  have h : u.toNat < 2 ^ 62 := lt_of_lt_of_le u.isLt (Nat.pow_le_pow_right (by omega) hk)
  rw [uimm4, BitVec.toNat_setWidth, append_zero_toNat]
  omega

theorem uimm8_toNat {k : Nat} (hk : k ≤ 61) (u : BitVec k) : (uimm8 u).toNat = 8 * u.toNat := by
  have h : u.toNat < 2 ^ 61 := lt_of_lt_of_le u.isLt (Nat.pow_le_pow_right (by omega) hk)
  rw [uimm8, BitVec.toNat_setWidth, append_zero_toNat]
  omega

/-! ## Arithmetic -/

theorem addX_eq_xval (xl : XLen) (a b : Word) : addX xl a b = xval xl (a.toNat + b.toNat) := by
  cases xl
  · apply eq_xval
    · simp only [addX, onX, XLen.bits, BitVec.toNat_setWidth]; exact lt_of_le_of_lt (Nat.mod_le _ _) (BitVec.isLt _)
    · simp only [addX, onX, XLen.bits, BitVec.toNat_setWidth, BitVec.toNat_add]; omega
  · apply eq_xval
    · exact (addX .rv64 a b).isLt
    · simp only [addX, onX, XLen.bits, BitVec.toNat_add]; omega

/-- The low word of a value does not depend on where the value was narrowed. -/
theorem low32_xval (xl : XLen) (z : Int) : low32 (xval xl z).toNat = low32 z := by
  apply low32_congr
  rw [xval_toNat]
  cases xl <;> simp [XLen.bits]

/-- A sum with a sign-extended immediate. -/
theorem addX_sextX (xl : XLen) {k : Nat} (a : Word) (v : BitVec k) :
    addX xl a (sextX xl v) = xval xl (a.toNat + v.toInt) := by
  rw [addX_eq_xval]
  apply xval_congr
  rw [sextX_eq_xval, xval_toNat, Int.add_emod_emod]

/-- A branch target. -/
theorem addX_offset (xl : XLen) {k : Nat} (pc : Word) (off : BitVec k) :
    addX xl pc (offset xl off) = xval xl (pc.toNat + 2 * off.toInt) := by
  rw [offset, addX_sextX, append_zero_toInt, mul_comm]; rfl

theorem subX_eq_xval (xl : XLen) (a b : Word) : subX xl a b = xval xl (a.toNat - b.toNat) := by
  cases xl
  · apply eq_xval
    · simp only [subX, onX, XLen.bits, BitVec.toNat_setWidth]; exact lt_of_le_of_lt (Nat.mod_le _ _) (BitVec.isLt _)
    · simp only [subX, onX, XLen.bits, BitVec.toNat_setWidth, BitVec.toNat_sub]; omega
  · apply eq_xval
    · exact (subX .rv64 a b).isLt
    · simp only [subX, onX, XLen.bits, BitVec.toNat_sub]; omega

theorem onX_lt (xl : XLen) (op : (w : Nat) → BitVec w → BitVec w → BitVec w) (a b : Word) :
    (onX xl op a b).toNat < 2 ^ xl.bits := by
  cases xl
  · simp only [onX, XLen.bits, BitVec.toNat_setWidth]; exact lt_of_le_of_lt (Nat.mod_le _ _) (BitVec.isLt _)
  · exact (onX .rv64 op a b).isLt

@[simp] theorem wrap_onX (xl : XLen) (op : (w : Nat) → BitVec w → BitVec w → BitVec w) (a b : Word) :
    wrap xl (onX xl op a b) = onX xl op a b := (wrap_eq_self_iff xl _).2 (onX_lt xl op a b)

@[simp] theorem wrap_addX (xl : XLen) (a b : Word) : wrap xl (addX xl a b) = addX xl a b := wrap_onX ..

@[simp] theorem wrap_subX (xl : XLen) (a b : Word) : wrap xl (subX xl a b) = subX xl a b := wrap_onX ..

@[simp] theorem wrap_sextX (xl : XLen) {k : Nat} (v : BitVec k) : wrap xl (sextX xl v) = sextX xl v := by
  rw [sextX_eq_xval, wrap_xval]

@[simp] theorem wrap_sextWord (xl : XLen) (v : Word) : wrap xl (sextWord xl v) = sextWord xl v := wrap_sextX ..

/-- `a & b` on values below 2^XLEN. -/
theorem andX_eq (xl : XLen) {a b : Word} (ha : a.toNat < 2 ^ xl.bits) : andX xl a b = a &&& b := by
  cases xl
  · apply BitVec.eq_of_toNat_eq
    simp only [andX, onX, XLen.bits, BitVec.toNat_setWidth, BitVec.toNat_and] at *
    have : (2 ^ 64 - 1 : Nat) = 2 ^ 64 - 1 := rfl
    rw [Nat.mod_eq_of_lt ha, Nat.mod_eq_of_lt (lt_of_le_of_lt Nat.and_le_left (by omega))]
    apply Nat.eq_of_testBit_eq; intro i
    simp only [Nat.testBit_and, Nat.testBit_mod_two_pow]
    by_cases hi : i < 32
    · simp [hi]
    · have : a.toNat.testBit i = false := Nat.testBit_lt_two_pow (lt_of_lt_of_le ha (Nat.pow_le_pow_right (by omega) (by omega)))
      simp [this]
  · rfl

/-- Every bitwise operation on values below 2^XLEN that maps zero bits to a zero bit is the operation on the containers. -/
theorem orX_eq (xl : XLen) {a b : Word} (ha : a.toNat < 2 ^ xl.bits) (hb : b.toNat < 2 ^ xl.bits) :
    orX xl a b = a ||| b := by
  cases xl
  · apply BitVec.eq_of_toNat_eq
    simp only [orX, onX, XLen.bits, BitVec.toNat_setWidth, BitVec.toNat_or] at *
    rw [Nat.mod_eq_of_lt ha, Nat.mod_eq_of_lt hb]
    exact Nat.mod_eq_of_lt (lt_of_lt_of_le (Nat.or_lt_two_pow ha hb) (by norm_num))
  · rfl

theorem xorX_eq (xl : XLen) {a b : Word} (ha : a.toNat < 2 ^ xl.bits) (hb : b.toNat < 2 ^ xl.bits) :
    xorX xl a b = a ^^^ b := by
  cases xl
  · apply BitVec.eq_of_toNat_eq
    simp only [xorX, onX, XLen.bits, BitVec.toNat_setWidth, BitVec.toNat_xor] at *
    rw [Nat.mod_eq_of_lt ha, Nat.mod_eq_of_lt hb]
    exact Nat.mod_eq_of_lt (lt_of_lt_of_le (Nat.xor_lt_two_pow ha hb) (by norm_num))
  · rfl

theorem andNotX_eq (xl : XLen) {a b : Word} (ha : a.toNat < 2 ^ xl.bits) : andNotX xl a b = a &&& ~~~b := by
  cases xl
  · have h := (wrap_eq_self_iff .rv32 a).2 ha
    simp only [andNotX, onX, wrap] at *
    ext i hi
    have hb := congrArg (fun v : Word => v[i]) h
    simp only [BitVec.getElem_setWidth, BitVec.getElem_and, BitVec.getElem_not] at hb ⊢
    by_cases h32 : i < 32
    · simp [h32, BitVec.getLsbD_eq_getElem, hi]
    · simp [BitVec.getLsbD_of_ge _ _ (by omega : 32 ≤ i)] at hb ⊢
      simp [← hb]
  · rfl

/-! ## Comparisons (42_branches.md R160 to R166) and the cleared bit of c.jr and c.jalr -/

theorem testX_eq (xl : XLen) {a b : Word} (ha : a.toNat < 2 ^ xl.bits) (hb : b.toNat < 2 ^ xl.bits) :
    testX xl cmpEq a b = decide (a = b) := by
  cases xl
  · simp only [testX, cmpEq, XLen.bits] at *
    simp only [← BitVec.toNat_inj, BitVec.toNat_setWidth, Nat.mod_eq_of_lt ha, Nat.mod_eq_of_lt hb]
  · rfl

theorem testX_ne (xl : XLen) {a b : Word} (ha : a.toNat < 2 ^ xl.bits) (hb : b.toNat < 2 ^ xl.bits) :
    testX xl cmpNe a b = decide (a ≠ b) := by
  have h : testX xl cmpNe a b = !testX xl cmpEq a b := by cases xl <;> rfl
  rw [h, testX_eq xl ha hb, decide_not]

theorem testX_lt (xl : XLen) {a b : Word} (ha : a.toNat < 2 ^ xl.bits) (hb : b.toNat < 2 ^ xl.bits) :
    testX xl cmpLt a b = decide (sgn xl a < sgn xl b) := by
  cases xl
  · simp only [XLen.bits] at ha hb
    simp only [testX, cmpLt, toInt_setWidth32 ha, toInt_setWidth32 hb]
  · simp only [testX, cmpLt, toInt_eq_sgn]

theorem testX_ge (xl : XLen) {a b : Word} (ha : a.toNat < 2 ^ xl.bits) (hb : b.toNat < 2 ^ xl.bits) :
    testX xl cmpGe a b = decide (sgn xl b ≤ sgn xl a) := by
  cases xl
  · simp only [XLen.bits] at ha hb
    simp only [testX, cmpGe, toInt_setWidth32 ha, toInt_setWidth32 hb]
  · simp only [testX, cmpGe, toInt_eq_sgn]

theorem testX_ltu (xl : XLen) {a b : Word} (ha : a.toNat < 2 ^ xl.bits) (hb : b.toNat < 2 ^ xl.bits) :
    testX xl cmpLtu a b = decide (a.toNat < b.toNat) := by
  cases xl
  · simp only [XLen.bits] at ha hb
    simp only [testX, cmpLtu, BitVec.toNat_setWidth, Nat.mod_eq_of_lt ha, Nat.mod_eq_of_lt hb]
  · rfl

theorem testX_geu (xl : XLen) {a b : Word} (ha : a.toNat < 2 ^ xl.bits) (hb : b.toNat < 2 ^ xl.bits) :
    testX xl cmpGeu a b = decide (b.toNat ≤ a.toNat) := by
  cases xl
  · simp only [XLen.bits] at ha hb
    simp only [testX, cmpGeu, BitVec.toNat_setWidth, Nat.mod_eq_of_lt ha, Nat.mod_eq_of_lt hb]
  · rfl

theorem clearBit0_toNat (v : Word) : (clearBit0 v).toNat = v.toNat / 2 * 2 := by
  have h : ~~~(1#64) = (BitVec.allOnes 63 ++ 0#1 : BitVec 64) := by decide
  have h1 : clearBit0 v = ((v.extractLsb' 1 63 ++ 0#1 : BitVec 64)) := by
    unfold clearBit0
    rw [h]
    apply BitVec.eq_of_getLsbD_eq
    intro i hi
    rw [BitVec.getLsbD_and, BitVec.getLsbD_append, BitVec.getLsbD_append]
    by_cases h0 : i = 0
    · subst h0; simp
    · have h2 : ¬ i < 1 := by omega
      have h3 : i - 1 < 63 := by omega
      have h4 : 1 + (i - 1) = i := by omega
      simp only [h2, if_false, BitVec.getLsbD_allOnes, BitVec.getLsbD_extractLsb', h3, h4, decide_true, Bool.and_true,
        Bool.true_and]
  rw [h1, append_zero_toNat, BitVec.extractLsb'_toNat, Nat.shiftRight_eq_div_pow]
  have := v.isLt
  omega

end Sys2Proof.Machine
end

