-- ==== Sys2Proof/Laws/State.lean ====
section
/-! SUPPORT. What each update of the state leaves in each field, one lemma per field, so that no proof unfolds a record
update. -/

namespace Sys2Proof.Machine

/-! ## writePc -/

@[simp] theorem State.writePc_x (s : State) (t : Word) : (s.writePc t).x = s.x := rfl
@[simp] theorem State.writePc_pc (s : State) (t : Word) : (s.writePc t).pc = wrap s.xl t := rfl
@[simp] theorem State.writePc_f (s : State) (t : Word) : (s.writePc t).f = s.f := rfl
@[simp] theorem State.writePc_csrs (s : State) (t : Word) : (s.writePc t).csrs = s.csrs := rfl
@[simp] theorem State.writePc_mem (s : State) (t : Word) : (s.writePc t).mem = s.mem := rfl
@[simp] theorem State.writePc_tick (s : State) (t : Word) : (s.writePc t).tick = s.tick := rfl
@[simp] theorem State.writePc_cfg (s : State) (t : Word) : (s.writePc t).cfg = s.cfg := rfl

/-! ## advance -/

@[simp] theorem State.advance_x (s : State) (n : Nat) : (s.advance n).x = s.x := rfl
@[simp] theorem State.advance_pc (s : State) (n : Nat) : (s.advance n).pc = wrap s.xl (addX s.xl s.readPc (BitVec.ofNat 64 n)) := rfl
@[simp] theorem State.advance_f (s : State) (n : Nat) : (s.advance n).f = s.f := rfl
@[simp] theorem State.advance_csrs (s : State) (n : Nat) : (s.advance n).csrs = s.csrs := rfl
@[simp] theorem State.advance_mem (s : State) (n : Nat) : (s.advance n).mem = s.mem := rfl
@[simp] theorem State.advance_tick (s : State) (n : Nat) : (s.advance n).tick = s.tick := rfl
@[simp] theorem State.advance_cfg (s : State) (n : Nat) : (s.advance n).cfg = s.cfg := rfl

/-! ## writeF -/

@[simp] theorem State.writeF_x (s : State) (r : Reg) (v : Word) : (s.writeF r v).x = s.x := rfl
@[simp] theorem State.writeF_pc (s : State) (r : Reg) (v : Word) : (s.writeF r v).pc = s.pc := rfl
@[simp] theorem State.writeF_f (s : State) (r : Reg) (v : Word) : (s.writeF r v).f = s.f.set r.toNat (wrapF s.cfg v) (by simpa using r.isLt) := rfl
@[simp] theorem State.writeF_csrs (s : State) (r : Reg) (v : Word) : (s.writeF r v).csrs = s.csrs := rfl
@[simp] theorem State.writeF_mem (s : State) (r : Reg) (v : Word) : (s.writeF r v).mem = s.mem := rfl
@[simp] theorem State.writeF_tick (s : State) (r : Reg) (v : Word) : (s.writeF r v).tick = s.tick := rfl
@[simp] theorem State.writeF_cfg (s : State) (r : Reg) (v : Word) : (s.writeF r v).cfg = s.cfg := rfl

/-! ## setByte -/

@[simp] theorem State.setByte_x (s : State) (a : Nat) (b : Byte) : (s.setByte a b).x = s.x := rfl
@[simp] theorem State.setByte_pc (s : State) (a : Nat) (b : Byte) : (s.setByte a b).pc = s.pc := rfl
@[simp] theorem State.setByte_f (s : State) (a : Nat) (b : Byte) : (s.setByte a b).f = s.f := rfl
@[simp] theorem State.setByte_csrs (s : State) (a : Nat) (b : Byte) : (s.setByte a b).csrs = s.csrs := rfl
@[simp] theorem State.setByte_mem (s : State) (a : Nat) (b : Byte) : (s.setByte a b).mem = sparseWrite s.mem a b := rfl
@[simp] theorem State.setByte_tick (s : State) (a : Nat) (b : Byte) : (s.setByte a b).tick = s.tick := rfl
@[simp] theorem State.setByte_cfg (s : State) (a : Nat) (b : Byte) : (s.setByte a b).cfg = s.cfg := rfl

/-! ## setCsr -/

@[simp] theorem State.setCsr_x (s : State) (a : BitVec 12) (v : Word) : (s.setCsr a v).x = s.x := rfl
@[simp] theorem State.setCsr_pc (s : State) (a : BitVec 12) (v : Word) : (s.setCsr a v).pc = s.pc := rfl
@[simp] theorem State.setCsr_f (s : State) (a : BitVec 12) (v : Word) : (s.setCsr a v).f = s.f := rfl
@[simp] theorem State.setCsr_csrs (s : State) (a : BitVec 12) (v : Word) : (s.setCsr a v).csrs = sparseWrite s.csrs a.toNat (wrap s.xl v) := rfl
@[simp] theorem State.setCsr_mem (s : State) (a : BitVec 12) (v : Word) : (s.setCsr a v).mem = s.mem := rfl
@[simp] theorem State.setCsr_tick (s : State) (a : BitVec 12) (v : Word) : (s.setCsr a v).tick = s.tick := rfl
@[simp] theorem State.setCsr_cfg (s : State) (a : BitVec 12) (v : Word) : (s.setCsr a v).cfg = s.cfg := rfl

/-! ## writeX: nothing where the register is x[0] (10_state.md R21) -/

@[simp] theorem State.writeX_zero (s : State) (v : Word) : s.writeX 0#5 v = s := rfl
@[simp] theorem State.writeX_pc (s : State) (r : Reg) (v : Word) : (s.writeX r v).pc = s.pc := by
  unfold State.writeX; split <;> rfl
@[simp] theorem State.writeX_f (s : State) (r : Reg) (v : Word) : (s.writeX r v).f = s.f := by
  unfold State.writeX; split <;> rfl
@[simp] theorem State.writeX_csrs (s : State) (r : Reg) (v : Word) : (s.writeX r v).csrs = s.csrs := by
  unfold State.writeX; split <;> rfl
@[simp] theorem State.writeX_mem (s : State) (r : Reg) (v : Word) : (s.writeX r v).mem = s.mem := by
  unfold State.writeX; split <;> rfl
@[simp] theorem State.writeX_tick (s : State) (r : Reg) (v : Word) : (s.writeX r v).tick = s.tick := by
  unfold State.writeX; split <;> rfl
@[simp] theorem State.writeX_cfg (s : State) (r : Reg) (v : Word) : (s.writeX r v).cfg = s.cfg := by
  unfold State.writeX; split <;> rfl
@[simp] theorem State.writeX_x (s : State) (r : Reg) (v : Word) : (s.writeX r v).x =
    if r = 0#5 then s.x else s.x.set r.toNat (wrap s.xl v) (by simpa using r.isLt) := by
  unfold State.writeX; split <;> rename_i h <;> simp_all

end Sys2Proof.Machine
end

