-- ==== Sys2Proof/Laws/Registers.lean ====
section
/-! SUPPORT. What the register reads give after each update: x[rd] as written, every other register as before
(10_state.md R20, R21, R25, R26, R32). -/

namespace Sys2Proof.Machine

/-! ## x -/

@[simp] theorem State.readX_zero (s : State) : s.readX 0#5 = 0 := rfl

theorem State.readX_lt (s : State) (r : Reg) : (s.readX r).toNat < 2 ^ s.xl.bits := by
  unfold State.readX; split
  · simp
  · exact wrap_lt _ _

@[simp] theorem State.wrap_readX (s : State) (r : Reg) : wrap s.xl (s.readX r) = s.readX r :=
  (wrap_eq_self_iff _ _).2 (s.readX_lt r)

/-- Reading x depends on the x file and on XLEN only. -/
theorem State.readX_congr {s t : State} (hx : t.x = s.x) (hc : t.cfg = s.cfg) (r : Reg) : t.readX r = s.readX r := by
  unfold State.readX State.xl; rw [hc]; simp only [hx]

theorem Reg.toNat_inj {r q : Reg} (h : r.toNat = q.toNat) : r = q := BitVec.eq_of_toNat_eq h

theorem State.readX_writeX (s : State) (rd r : Reg) (v : Word) :
    (s.writeX rd v).readX r = if r = rd ∧ rd ≠ 0 then wrap s.xl v else s.readX r := by
  by_cases h0 : rd = 0
  · subst h0; simp
  have h1 : s.writeX rd v = { s with x := s.x.set rd.toNat (wrap s.xl v) (by simpa using rd.isLt) } := if_neg h0
  by_cases hr : r = 0
  · subst hr
    rw [if_neg (by rintro ⟨h, -⟩; exact h0 h.symm)]; rfl
  rw [h1, State.readX, if_neg hr]
  by_cases h : r = rd
  · subst h
    rw [if_pos ⟨rfl, h0⟩]
    simp only [Vector.getElem_set_self, wrap_wrap]
  · have hn : rd.toNat ≠ r.toNat := fun e => h (Reg.toNat_inj e.symm)
    rw [if_neg (fun e => h e.1), State.readX, if_neg hr]
    simp only [Vector.getElem_set_ne _ _ hn]

theorem State.readX_writeX_self (s : State) (rd : Reg) (v : Word) :
    (s.writeX rd v).readX rd = if rd = 0 then 0 else wrap s.xl v := by
  rw [State.readX_writeX]
  by_cases h : rd = 0
  · rw [if_neg (fun e => e.2 h), if_pos h, h]; rfl
  · rw [if_pos ⟨rfl, h⟩, if_neg h]

theorem State.readX_writeX_ne (s : State) {rd r : Reg} (h : r ≠ rd) (v : Word) :
    (s.writeX rd v).readX r = s.readX r := by
  rw [State.readX_writeX, if_neg (fun e => h e.1)]

@[simp] theorem State.readX_writePc (s : State) (t : Word) (r : Reg) : (s.writePc t).readX r = s.readX r := rfl
@[simp] theorem State.readX_advance (s : State) (n : Nat) (r : Reg) : (s.advance n).readX r = s.readX r := rfl
@[simp] theorem State.readX_writeF (s : State) (rd : Reg) (v : Word) (r : Reg) : (s.writeF rd v).readX r = s.readX r := rfl
@[simp] theorem State.readX_setByte (s : State) (a : Nat) (b : Byte) (r : Reg) : (s.setByte a b).readX r = s.readX r := rfl
@[simp] theorem State.readX_setCsr (s : State) (a : BitVec 12) (v : Word) (r : Reg) :
    (s.setCsr a v).readX r = s.readX r := rfl

/-! ## f -/

@[simp] theorem wrapF_wrapF (c : Config) (v : Word) : wrapF c (wrapF c v) = wrapF c v := by
  unfold wrapF
  split
  · rfl
  · split
    · simp only [← BitVec.toNat_inj, BitVec.toNat_setWidth]; omega
    · rfl

@[simp] theorem State.wrapF_readF (s : State) (r : Reg) : wrapF s.cfg (s.readF r) = s.readF r := wrapF_wrapF _ _

theorem State.readF_congr {s t : State} (hf : t.f = s.f) (hc : t.cfg = s.cfg) (r : Reg) : t.readF r = s.readF r := by
  unfold State.readF; rw [hc]; simp only [hf]

theorem State.readF_writeF (s : State) (rd r : Reg) (v : Word) :
    (s.writeF rd v).readF r = if r = rd then wrapF s.cfg v else s.readF r := by
  unfold State.readF
  by_cases h : r = rd
  · subst h
    simp only [State.writeF_f, State.writeF_cfg, Vector.getElem_set_self, wrapF_wrapF, if_true]
  · have hn : rd.toNat ≠ r.toNat := fun e => h (Reg.toNat_inj e.symm)
    simp only [State.writeF_f, State.writeF_cfg, Vector.getElem_set_ne _ _ hn, if_neg h]

@[simp] theorem State.readF_writeX (s : State) (rd r : Reg) (v : Word) : (s.writeX rd v).readF r = s.readF r := by
  simp [State.readF]
@[simp] theorem State.readF_writePc (s : State) (t : Word) (r : Reg) : (s.writePc t).readF r = s.readF r := rfl
@[simp] theorem State.readF_advance (s : State) (n : Nat) (r : Reg) : (s.advance n).readF r = s.readF r := rfl
@[simp] theorem State.readF_setByte (s : State) (a : Nat) (b : Byte) (r : Reg) : (s.setByte a b).readF r = s.readF r := rfl
@[simp] theorem State.readF_setCsr (s : State) (a : BitVec 12) (v : Word) (r : Reg) :
    (s.setCsr a v).readF r = s.readF r := rfl

/-! ## pc -/

theorem State.readPc_lt (s : State) : s.readPc.toNat < 2 ^ s.xl.bits := wrap_lt _ _

@[simp] theorem State.wrap_readPc (s : State) : wrap s.xl s.readPc = s.readPc := wrap_wrap _ _

@[simp] theorem State.readPc_writePc (s : State) (t : Word) : (s.writePc t).readPc = wrap s.xl t := wrap_wrap _ _

@[simp] theorem State.readPc_advance (s : State) (n : Nat) :
    (s.advance n).readPc = addX s.xl s.readPc (BitVec.ofNat 64 n) := by
  unfold State.advance; rw [State.readPc_writePc, wrap_addX]

@[simp] theorem State.readPc_writeX (s : State) (r : Reg) (v : Word) : (s.writeX r v).readPc = s.readPc := by
  simp [State.readPc, State.xl]
@[simp] theorem State.readPc_writeF (s : State) (r : Reg) (v : Word) : (s.writeF r v).readPc = s.readPc := rfl
@[simp] theorem State.readPc_setByte (s : State) (a : Nat) (b : Byte) : (s.setByte a b).readPc = s.readPc := rfl
@[simp] theorem State.readPc_setCsr (s : State) (a : BitVec 12) (v : Word) : (s.setCsr a v).readPc = s.readPc := rfl

theorem State.advance_eq_seqPc (s : State) {n : Nat} (h : n < 2 ^ 64) :
    addX s.xl s.readPc (BitVec.ofNat 64 n) = seqPc s n := by
  rw [addX_eq_xval, seqPc, BitVec.toNat_ofNat, Nat.mod_eq_of_lt h]

/-! ## Bytes and CSRs under the register updates -/

@[simp] theorem State.byte_writeX (s : State) (r : Reg) (v : Word) (a : Nat) : (s.writeX r v).byte a = s.byte a := by
  simp [State.byte]
@[simp] theorem State.byte_writeF (s : State) (r : Reg) (v : Word) (a : Nat) : (s.writeF r v).byte a = s.byte a := rfl
@[simp] theorem State.byte_writePc (s : State) (t : Word) (a : Nat) : (s.writePc t).byte a = s.byte a := rfl
@[simp] theorem State.byte_advance (s : State) (n a : Nat) : (s.advance n).byte a = s.byte a := rfl
@[simp] theorem State.byte_setCsr (s : State) (c : BitVec 12) (v : Word) (a : Nat) : (s.setCsr c v).byte a = s.byte a := rfl

@[simp] theorem State.csr_writeX (s : State) (r : Reg) (v : Word) (a : BitVec 12) : (s.writeX r v).csr a = s.csr a := by
  simp [State.csr, State.xl]
@[simp] theorem State.csr_writeF (s : State) (r : Reg) (v : Word) (a : BitVec 12) : (s.writeF r v).csr a = s.csr a := rfl
@[simp] theorem State.csr_writePc (s : State) (t : Word) (a : BitVec 12) : (s.writePc t).csr a = s.csr a := rfl
@[simp] theorem State.csr_advance (s : State) (n : Nat) (a : BitVec 12) : (s.advance n).csr a = s.csr a := rfl
@[simp] theorem State.csr_setByte (s : State) (b : Nat) (v : Byte) (a : BitVec 12) : (s.setByte b v).csr a = s.csr a := rfl

end Sys2Proof.Machine
end

