-- ==== Sys2Proof/Laws/Sparse.lean ====
section
/-! SUPPORT. The finite maps of Machine/Sparse.lean: a read after a write to the same address gives the value written, a
write leaves every other address alone and keeps the canonical form, and canonical maps with equal reads are equal. -/

namespace Sys2Proof.Machine

variable {w : Nat}

theorem sparseAbove_intro {lo k : Nat} {v : BitVec w} {rest : List (Nat × BitVec w)} (h : lo < k)
    (hv : (v != 0) = true) (hr : sparseAbove k rest = true) : sparseAbove lo ((k, v) :: rest) = true := by
  simp only [sparseAbove, Bool.and_eq_true, decide_eq_true_eq]
  exact ⟨⟨h, hv⟩, hr⟩

theorem sparseAbove_mono {lo lo' : Nat} (h : lo' ≤ lo) {m : List (Nat × BitVec w)} (hm : sparseAbove lo m = true) :
    sparseAbove lo' m = true := by
  cases m with
  | nil => rfl
  | cons e rest =>
    obtain ⟨k, v⟩ := e
    simp only [sparseAbove, Bool.and_eq_true, decide_eq_true_eq] at hm ⊢
    exact ⟨⟨by omega, hm.1.2⟩, hm.2⟩

theorem sparseRead_of_above {lo a : Nat} (h : a ≤ lo) {m : List (Nat × BitVec w)} (hm : sparseAbove lo m = true) :
    sparseRead m a = 0 := by
  induction m generalizing lo with
  | nil => rfl
  | cons e rest ih =>
    obtain ⟨k, v⟩ := e
    simp only [sparseAbove, Bool.and_eq_true, decide_eq_true_eq] at hm
    rw [sparseRead, if_neg (by omega)]
    exact ih (by omega) hm.2

theorem sparseRead_cons_self (a : Nat) (v : BitVec w) {rest : List (Nat × BitVec w)} (h : sparseRead rest a = 0) :
    sparseRead (sparseCons a v rest) a = v := by
  unfold sparseCons
  split
  · rw [h]; symm; assumption
  · simp [sparseRead]

theorem sparseRead_cons_ne {a b : Nat} (v : BitVec w) (rest : List (Nat × BitVec w)) (h : b ≠ a) :
    sparseRead (sparseCons a v rest) b = sparseRead rest b := by
  unfold sparseCons
  split
  · rfl
  · rw [sparseRead, if_neg (fun e => h e.symm)]

/-- A write leaves every other address alone, in any map. -/
theorem sparseRead_write_ne (m : List (Nat × BitVec w)) {a b : Nat} (v : BitVec w) (h : b ≠ a) :
    sparseRead (sparseWrite m a v) b = sparseRead m b := by
  induction m with
  | nil => rw [sparseWrite, sparseRead_cons_ne v _ h]
  | cons e rest ih =>
    obtain ⟨k, u⟩ := e
    rw [sparseWrite]
    split
    · rw [sparseRead_cons_ne v _ h]
    · split
      · rename_i h2
        rw [sparseRead_cons_ne v _ h, sparseRead, if_neg (by omega)]
      · simp only [sparseRead]; rw [ih]

theorem sparseWf_above {m : List (Nat × BitVec w)} : sparseWf m = true → ∀ k v rest, m = (k, v) :: rest →
    v ≠ 0 ∧ sparseAbove k rest = true := by
  rintro h k v rest rfl
  simpa [sparseWf] using h

theorem sparseRead_write_self_above {lo : Nat} {m : List (Nat × BitVec w)} (hm : sparseAbove lo m = true) (a : Nat)
    (v : BitVec w) : sparseRead (sparseWrite m a v) a = v := by
  induction m generalizing lo with
  | nil => exact sparseRead_cons_self a v rfl
  | cons e rest ih =>
    obtain ⟨k, u⟩ := e
    simp only [sparseAbove, Bool.and_eq_true, decide_eq_true_eq] at hm
    rw [sparseWrite]
    split
    · rename_i h1
      refine sparseRead_cons_self a v ?_
      rw [sparseRead, if_neg (by omega)]
      exact sparseRead_of_above (by omega) hm.2
    · split
      · rename_i h2
        subst h2
        exact sparseRead_cons_self a v (sparseRead_of_above le_rfl hm.2)
      · rename_i h2
        rw [sparseRead, if_neg (fun e => h2 e.symm)]
        exact ih hm.2

/-- A read after a write to the same address of a canonical map gives the value written. -/
theorem sparseRead_write_self {m : List (Nat × BitVec w)} (hm : sparseWf m = true) (a : Nat) (v : BitVec w) :
    sparseRead (sparseWrite m a v) a = v := by
  cases m with
  | nil => exact sparseRead_cons_self a v rfl
  | cons e rest =>
    obtain ⟨k, u⟩ := e
    simp only [sparseWf, Bool.and_eq_true] at hm
    rw [sparseWrite]
    split
    · rename_i h1
      refine sparseRead_cons_self a v ?_
      rw [sparseRead, if_neg (by omega)]
      exact sparseRead_of_above (by omega) hm.2
    · split
      · rename_i h2
        subst h2
        exact sparseRead_cons_self a v (sparseRead_of_above le_rfl hm.2)
      · rename_i h2
        rw [sparseRead, if_neg (fun e => h2 e.symm)]
        exact sparseRead_write_self_above hm.2 a v

theorem sparseRead_write {m : List (Nat × BitVec w)} (hm : sparseWf m = true) (a b : Nat) (v : BitVec w) :
    sparseRead (sparseWrite m a v) b = if b = a then v else sparseRead m b := by
  split
  · rename_i h; subst h; exact sparseRead_write_self hm b v
  · exact sparseRead_write_ne m v ‹_›

/-! ## The canonical form is kept -/

theorem sparseAbove_cons {lo a : Nat} (h : lo < a) (v : BitVec w) {rest : List (Nat × BitVec w)}
    (hr : sparseAbove a rest = true) : sparseAbove lo (sparseCons a v rest) = true := by
  unfold sparseCons
  split
  · exact sparseAbove_mono (by omega) hr
  · simp only [sparseAbove, Bool.and_eq_true, decide_eq_true_eq]
    exact ⟨⟨h, bne_iff_ne.2 ‹_›⟩, hr⟩

theorem sparseAbove_write {lo a : Nat} (h : lo < a) (v : BitVec w) {m : List (Nat × BitVec w)}
    (hm : sparseAbove lo m = true) : sparseAbove lo (sparseWrite m a v) = true := by
  induction m generalizing lo with
  | nil => exact sparseAbove_cons h v rfl
  | cons e rest ih =>
    obtain ⟨k, u⟩ := e
    simp only [sparseAbove, Bool.and_eq_true, decide_eq_true_eq] at hm
    rw [sparseWrite]
    split
    · rename_i h1
      exact sparseAbove_cons h v (sparseAbove_intro h1 hm.1.2 hm.2)
    · split
      · rename_i h2
        subst h2
        exact sparseAbove_cons h v hm.2
      · simp only [sparseAbove, Bool.and_eq_true, decide_eq_true_eq]
        exact ⟨hm.1, ih (by omega) hm.2⟩

theorem sparseWf_of_above {lo : Nat} {m : List (Nat × BitVec w)} (hm : sparseAbove lo m = true) :
    sparseWf m = true := by
  cases m with
  | nil => rfl
  | cons e rest =>
    obtain ⟨k, u⟩ := e
    simp only [sparseAbove, Bool.and_eq_true, decide_eq_true_eq] at hm
    simp only [sparseWf, Bool.and_eq_true]
    exact ⟨hm.1.2, hm.2⟩

theorem sparseWf_cons (a : Nat) (v : BitVec w) {rest : List (Nat × BitVec w)} (hr : sparseAbove a rest = true) :
    sparseWf (sparseCons a v rest) = true := by
  unfold sparseCons
  split
  · exact sparseWf_of_above hr
  · simp only [sparseWf, Bool.and_eq_true]
    exact ⟨bne_iff_ne.2 ‹_›, hr⟩

/-- A write keeps the canonical form. -/
theorem sparseWf_write {m : List (Nat × BitVec w)} (hm : sparseWf m = true) (a : Nat) (v : BitVec w) :
    sparseWf (sparseWrite m a v) = true := by
  cases m with
  | nil => exact sparseWf_cons a v rfl
  | cons e rest =>
    obtain ⟨k, u⟩ := e
    simp only [sparseWf, Bool.and_eq_true] at hm
    rw [sparseWrite]
    split
    · rename_i h1
      exact sparseWf_cons a v (sparseAbove_intro h1 hm.1 hm.2)
    · split
      · rename_i h2
        subst h2
        exact sparseWf_cons a v hm.2
      · simp only [sparseWf, Bool.and_eq_true]
        exact ⟨hm.1, sparseAbove_write (by omega) v hm.2⟩

/-- What a write lists besides its own address was listed before. -/
theorem mem_sparseWrite {m : List (Nat × BitVec w)} {a : Nat} {v : BitVec w} {e : Nat × BitVec w}
    (h : e ∈ sparseWrite m a v) : e = (a, v) ∨ e ∈ m := by
  have hc : ∀ rest : List (Nat × BitVec w), e ∈ sparseCons a v rest → e = (a, v) ∨ e ∈ rest := by
    intro rest hr
    unfold sparseCons at hr
    split at hr
    · exact .inr hr
    · simpa using hr
  induction m with
  | nil => exact hc [] h
  | cons e' rest ih =>
    obtain ⟨k, u⟩ := e'
    rw [sparseWrite] at h
    split at h
    · exact hc _ h
    · split at h
      · rcases hc _ h with h | h
        · exact .inl h
        · exact .inr (List.mem_cons_of_mem _ h)
      · rcases List.mem_cons.1 h with h | h
        · exact .inr (h ▸ List.mem_cons_self)
        · rcases ih h with h | h
          · exact .inl h
          · exact .inr (List.mem_cons_of_mem _ h)

theorem sparseBelow_write {bound : Nat} {m : List (Nat × BitVec w)} (hm : sparseBelow bound m = true) {a : Nat}
    (h : a < bound) (v : BitVec w) : sparseBelow bound (sparseWrite m a v) = true := by
  simp only [sparseBelow, List.all_eq_true, decide_eq_true_eq] at hm ⊢
  intro e he
  rcases mem_sparseWrite he with rfl | he
  · exact h
  · exact hm e he

/-- The memory's canonical form is kept by the one operation that stores a byte. -/
theorem Memory.wf_write {m : List Host.Cell} (hm : Memory.wf m = true) (a : Nat) (b : Byte) :
    Memory.wf (sparseWrite m a b) = true := sparseWf_write hm a b

theorem Memory.wf_reset : Memory.wf State.reset.mem = true := rfl

end Sys2Proof.Machine
end

