-- ==== Sys2Proof/Laws/Memory.lean ====
section
/-! SUPPORT. Memory: one byte, the bytes of an access, and what the checked read and write answer (20_memory.md R50 to
R55, R67). -/

namespace Sys2Proof.Machine

/-! ## One byte -/

theorem State.byte_setByte_self {s : State} (h : Memory.wf s.mem = true) (a : Nat) (b : Byte) :
    (s.setByte a b).byte a = b := sparseRead_write_self h a b

theorem State.byte_setByte_ne (s : State) {a c : Nat} (h : c ≠ a) (b : Byte) : (s.setByte a b).byte c = s.byte c :=
  sparseRead_write_ne s.mem b h

/-! ## The addresses of an access -/

theorem accessBytes_eq (xl : XLen) (a : Word) {n : Nat} (hn : n ≤ 8) :
    accessBytes xl a n = (List.range n).map fun i : Nat => (xval xl (a.toNat + i)).toNat := by
  unfold accessBytes
  apply List.map_congr_left
  intro i hi
  have : i < n := List.mem_range.1 hi
  rw [addX_eq_xval, BitVec.toNat_ofNat, Nat.mod_eq_of_lt (by omega)]

@[simp] theorem accessBytes_length (xl : XLen) (a : Word) (n : Nat) : (accessBytes xl a n).length = n := by
  simp [accessBytes]

theorem xval_add_inj (xl : XLen) (a : Nat) {i j : Nat} (hi : i < 8) (hj : j < 8)
    (h : (xval xl (a + i)).toNat = (xval xl (a + j)).toNat) : i = j := by
  have h1 := xval_toNat xl (a + i)
  have h2 := xval_toNat xl (a + j)
  rw [h, h2] at h1
  cases xl <;> simp only [XLen.bits] at h1 <;> omega

theorem accessBytes_nodup (xl : XLen) (a : Word) {n : Nat} (hn : n ≤ 8) : (accessBytes xl a n).Nodup := by
  rw [accessBytes_eq xl a hn]
  refine List.Nodup.map_on ?_ List.nodup_range
  intro i hi j hj h
  exact xval_add_inj xl a.toNat (by have := List.mem_range.1 hi; omega) (by have := List.mem_range.1 hj; omega) h

theorem mem_accessBytes {xl : XLen} {a : Word} {n b : Nat} (hn : n ≤ 8) :
    b ∈ accessBytes xl a n ↔ ∃ i, i < n ∧ b = (xval xl (a.toNat + i)).toNat := by
  rw [accessBytes_eq xl a hn]
  simp only [List.mem_map, List.mem_range]
  exact ⟨fun ⟨i, hi, e⟩ => ⟨i, hi, e.symm⟩, fun ⟨i, hi, e⟩ => ⟨i, hi, e.symm⟩⟩

theorem accessBytes_lt {xl : XLen} {a : Word} {n b : Nat} (h : b ∈ accessBytes xl a n) : b < 2 ^ xl.bits := by
  simp only [accessBytes, List.mem_map] at h
  obtain ⟨i, -, rfl⟩ := h
  exact onX_lt ..

/-! ## Storing bytes -/

theorem State.setBytes_cons (s : State) (c : Nat × Byte) (cs : List (Nat × Byte)) :
    s.setBytes (c :: cs) = (s.setByte c.1 c.2).setBytes cs := rfl

/-- Storing bytes changes the memory only. -/
theorem State.setBytes_eq (s : State) (cs : List (Nat × Byte)) :
    s.setBytes cs = { s with mem := (s.setBytes cs).mem } := by
  induction cs generalizing s with
  | nil => rfl
  | cons c cs ih => rw [State.setBytes_cons, ih]; rfl

theorem State.setBytes_wf {s : State} (h : Memory.wf s.mem = true) (cs : List (Nat × Byte)) :
    Memory.wf (s.setBytes cs).mem = true := by
  induction cs generalizing s with
  | nil => exact h
  | cons c cs ih => exact ih (Memory.wf_write h c.1 c.2)

theorem State.setBytes_below {s : State} {bound : Nat} (h : sparseBelow bound s.mem = true) {cs : List (Nat × Byte)}
    (hc : ∀ c ∈ cs, c.1 < bound) : sparseBelow bound (s.setBytes cs).mem = true := by
  induction cs generalizing s with
  | nil => exact h
  | cons c cs ih =>
    exact ih (s := s.setByte c.1 c.2) (sparseBelow_write h (hc c List.mem_cons_self) c.2)
      fun d hd => hc d (List.mem_cons_of_mem _ hd)

theorem State.byte_setBytes_ne (s : State) {cs : List (Nat × Byte)} {b : Nat} (h : ∀ c ∈ cs, b ≠ c.1) :
    (s.setBytes cs).byte b = s.byte b := by
  induction cs generalizing s with
  | nil => rfl
  | cons c cs ih =>
    rw [State.setBytes_cons, ih _ fun d hd => h d (List.mem_cons_of_mem _ hd),
      State.byte_setByte_ne s (h c List.mem_cons_self)]

theorem State.byte_setBytes_mem {s : State} (h : Memory.wf s.mem = true) {cs : List (Nat × Byte)}
    (hn : (cs.map Prod.fst).Nodup) {c : Nat × Byte} (hc : c ∈ cs) : (s.setBytes cs).byte c.1 = c.2 := by
  induction cs generalizing s with
  | nil => cases hc
  | cons d cs ih =>
    simp only [List.map_cons, List.nodup_cons] at hn
    rw [State.setBytes_cons]
    rcases List.mem_cons.1 hc with rfl | hc
    · rw [State.byte_setBytes_ne, State.byte_setByte_self h]
      intro e he hce
      exact hn.1 (hce ▸ List.mem_map_of_mem he)
    · exact ih (s := s.setByte d.1 d.2) (Memory.wf_write h d.1 d.2) hn.2 hc

/-! ## Values and bytes -/

@[simp] theorem leBytes_length (n : Nat) (v : Word) : (leBytes n v).length = n := by
  induction n generalizing v with
  | zero => rfl
  | succ n ih => simp [leBytes, ih]

theorem leBytes_getElem (n : Nat) (v : Word) (i : Nat) (h : i < n) :
    (leBytes n v)[i]'(by simpa using h) = v.extractLsb' (8 * i) 8 := by
  induction n generalizing v i with
  | zero => omega
  | succ n ih =>
    cases i with
    | zero =>
      apply BitVec.eq_of_toNat_eq
      simp [leBytes]
    | succ i =>
      simp only [leBytes, List.getElem_cons_succ]
      rw [ih (v >>> 8) i (by omega)]
      apply BitVec.eq_of_toNat_eq
      simp only [BitVec.extractLsb'_toNat, BitVec.toNat_ushiftRight, ← Nat.shiftRight_add]
      congr 2; omega

theorem littleEndian_lt (bs : List Byte) : littleEndian bs < 2 ^ (8 * bs.length) := by
  induction bs with
  | nil => simp [littleEndian]
  | cons b bs ih =>
    simp only [littleEndian, List.length_cons]
    have hb := b.isLt
    have : 2 ^ (8 * (bs.length + 1)) = 256 * 2 ^ (8 * bs.length) := by rw [Nat.mul_add, Nat.pow_add]; ring
    omega

theorem leValue_toNat (bs : List Byte) (h : bs.length ≤ 8) : (leValue bs).toNat = littleEndian bs := by
  induction bs with
  | nil => rfl
  | cons b bs ih =>
    have hl : bs.length ≤ 7 := by simp at h; omega
    have hlt := littleEndian_lt bs
    have hp : 2 ^ (8 * bs.length) ≤ 2 ^ 56 := Nat.pow_le_pow_right (by omega) (by omega)
    have hb := b.isLt
    simp only [leValue, littleEndian, BitVec.toNat_or, BitVec.toNat_shiftLeft, BitVec.toNat_setWidth, ih (by omega)]
    rw [Nat.shiftLeft_eq, Nat.mod_eq_of_lt (by omega : littleEndian bs * 2 ^ 8 < 2 ^ 64),
      Nat.mod_eq_of_lt (by omega : b.toNat < 2 ^ 64), Nat.mul_comm, ← Nat.two_pow_add_eq_or_of_lt hb]
    omega

theorem State.peek_toNat (s : State) (a : Word) {n : Nat} (hn : n ≤ 8) : (s.peek a n).toNat = valueAt s a n := by
  unfold State.peek valueAt
  rw [leValue_toNat _ (by simpa using hn), accessBytes_eq _ _ hn, List.map_map]; rfl

theorem State.peek_lt (s : State) (a : Word) {n : Nat} (hn : n ≤ 8) : (s.peek a n).toNat < 2 ^ (8 * n) := by
  unfold State.peek
  rw [leValue_toNat _ (by simpa using hn)]
  simpa using littleEndian_lt ((accessBytes s.xl a n).map s.byte)

theorem valueAt_lt (s : State) (a : Word) (n : Nat) : valueAt s a n < 2 ^ (8 * n) := by
  unfold valueAt
  simpa using littleEndian_lt ((List.range n).map fun i : Nat => s.byte (xval s.xl (a.toNat + i)).toNat)

/-! ## The unchecked store -/

/-- A store changes the memory only. -/
theorem State.poke_eq (s : State) (a : Word) (n : Nat) (v : Word) :
    s.poke a n v = { s with mem := (s.poke a n v).mem } := s.setBytes_eq _

@[simp] theorem State.poke_x (s : State) (a : Word) (n : Nat) (v : Word) : (s.poke a n v).x = s.x := by
  rw [State.poke_eq]
@[simp] theorem State.poke_pc (s : State) (a : Word) (n : Nat) (v : Word) : (s.poke a n v).pc = s.pc := by
  rw [State.poke_eq]
@[simp] theorem State.poke_f (s : State) (a : Word) (n : Nat) (v : Word) : (s.poke a n v).f = s.f := by
  rw [State.poke_eq]
@[simp] theorem State.poke_csrs (s : State) (a : Word) (n : Nat) (v : Word) : (s.poke a n v).csrs = s.csrs := by
  rw [State.poke_eq]
@[simp] theorem State.poke_tick (s : State) (a : Word) (n : Nat) (v : Word) : (s.poke a n v).tick = s.tick := by
  rw [State.poke_eq]
@[simp] theorem State.poke_cfg (s : State) (a : Word) (n : Nat) (v : Word) : (s.poke a n v).cfg = s.cfg := by
  rw [State.poke_eq]
@[simp] theorem State.readX_poke (s : State) (a : Word) (n : Nat) (v : Word) (r : Reg) :
    (s.poke a n v).readX r = s.readX r := State.readX_congr (by simp) (by simp) r
@[simp] theorem State.readF_poke (s : State) (a : Word) (n : Nat) (v : Word) (r : Reg) :
    (s.poke a n v).readF r = s.readF r := State.readF_congr (by simp) (by simp) r
@[simp] theorem State.readPc_poke (s : State) (a : Word) (n : Nat) (v : Word) : (s.poke a n v).readPc = s.readPc := by
  rw [State.poke_eq]; rfl
@[simp] theorem State.csr_poke (s : State) (a : Word) (n : Nat) (v : Word) (c : BitVec 12) :
    (s.poke a n v).csr c = s.csr c := by
  rw [State.poke_eq]; rfl

/-- The bytes stored and the bytes left alone. -/
theorem State.storedAt_poke {s : State} (h : Memory.wf s.mem = true) (a : Word) {n : Nat} (hn : n ≤ 8) (v : Word) :
    StoredAt s (s.poke a n v) a n v := by
  have hfst : ((accessBytes s.xl a n).zip (leBytes n v)).map Prod.fst = accessBytes s.xl a n :=
    List.map_fst_zip (by simp)
  constructor
  · intro i hi
    have hmem : ((xval s.xl (a.toNat + i)).toNat, v.extractLsb' (8 * i) 8) ∈ (accessBytes s.xl a n).zip (leBytes n v) := by
      refine List.mem_iff_getElem.2 ⟨i, by simpa using hi, ?_⟩
      rw [List.getElem_zip, leBytes_getElem n v i hi]
      simp only [accessBytes_eq s.xl a hn, List.getElem_map, List.getElem_range]
    exact State.byte_setBytes_mem h (by rw [hfst]; exact accessBytes_nodup _ _ hn) hmem
  · intro b hb
    refine State.byte_setBytes_ne s fun c hc => ?_
    have h1 : c.1 ∈ accessBytes s.xl a n := hfst ▸ List.mem_map_of_mem hc
    obtain ⟨i, hi, e⟩ := (mem_accessBytes hn).1 h1
    exact e ▸ hb i hi

theorem State.poke_wf {s : State} (h : Memory.wf s.mem = true) (a : Word) (n : Nat) (v : Word) :
    Memory.wf (s.poke a n v).mem = true := State.setBytes_wf h _

theorem State.poke_below {s : State} (h : sparseBelow (2 ^ s.xl.bits) s.mem = true) (a : Word) (n : Nat) (v : Word) :
    sparseBelow (2 ^ s.xl.bits) (s.poke a n v).mem = true := by
  refine State.setBytes_below h fun c hc => ?_
  have h1 : c.1 ∈ accessBytes s.xl a n := (List.of_mem_zip hc).1
  exact accessBytes_lt h1

/-- A store leaves every byte outside its own alone, in any state. -/
theorem State.byte_poke_ne (s : State) (a : Word) (n : Nat) (v : Word) {b : Nat} (h : b ∉ accessBytes s.xl a n) :
    (s.poke a n v).byte b = s.byte b := by
  refine State.byte_setBytes_ne s fun c hc e => ?_
  exact h (e ▸ (List.of_mem_zip hc).1)

/-! ## The checks -/

theorem checkAccess_ok {s : State} {k : AccessKind} {a : Word} {n : Nat} (h0 : a.toNat % n = 0)
    (h1 : memAdmit s.cfg a n k = true) : checkAccess s k a n = .ok () := by
  unfold checkAccess; rw [if_neg (by simpa using h0), if_pos h1]

theorem checkAccess_misaligned {s : State} {k : AccessKind} {a : Word} {n : Nat} (h : a.toNat % n ≠ 0) :
    checkAccess s k a n = .error (.trap (misaligned k a)) := by
  unfold checkAccess; rw [if_pos h]

theorem checkAccess_fault {s : State} {k : AccessKind} {a : Word} {n : Nat} (h0 : a.toNat % n = 0)
    (h1 : memAdmit s.cfg a n k = false) : checkAccess s k a n = .error (.trap (accessFault k a)) := by
  unfold checkAccess; rw [if_neg (by simpa using h0), if_neg (by simp [h1])]

/-- A check that answers ok says that the access is aligned and admitted. -/
theorem of_checkAccess_ok {s : State} {k : AccessKind} {a : Word} {n : Nat} {u : Unit}
    (h : checkAccess s k a n = .ok u) : a.toNat % n = 0 ∧ memAdmit s.cfg a n k = true := by
  unfold checkAccess at h
  split at h
  · cases h
  · split at h
    · exact ⟨by omega, by assumption⟩
    · cases h

theorem memRead_ok {s : State} {k : AccessKind} {a : Word} {n : Nat} (h0 : a.toNat % n = 0)
    (h1 : memAdmit s.cfg a n k = true) : memRead s k a n = .ok (s.peek a n) := by
  unfold memRead; rw [checkAccess_ok h0 h1]

theorem memRead_misaligned {s : State} {k : AccessKind} {a : Word} {n : Nat} (h : a.toNat % n ≠ 0) :
    memRead s k a n = .error (.trap (misaligned k a)) := by
  unfold memRead; rw [checkAccess_misaligned h]

theorem memRead_fault {s : State} {k : AccessKind} {a : Word} {n : Nat} (h0 : a.toNat % n = 0)
    (h1 : memAdmit s.cfg a n k = false) : memRead s k a n = .error (.trap (accessFault k a)) := by
  unfold memRead; rw [checkAccess_fault h0 h1]

/-- Everything a read that answers can be. -/
theorem of_memRead_ok {s : State} {k : AccessKind} {a : Word} {n : Nat} {v : Word} (h : memRead s k a n = .ok v) :
    a.toNat % n = 0 ∧ memAdmit s.cfg a n k = true ∧ v = s.peek a n := by
  unfold memRead at h
  split at h
  · rename_i u hu
    cases h
    exact ⟨(of_checkAccess_ok hu).1, (of_checkAccess_ok hu).2, rfl⟩
  · cases h

theorem any_inCode_eq_false {s : State} {a : Word} {n : Nat} (hn : n ≤ 8) :
    (accessBytes s.xl a n).any (Config.inCode s.cfg) = false ↔ OutsideText s a n := by
  rw [List.any_eq_false]
  constructor
  · intro h i hi
    have := h _ ((mem_accessBytes hn).2 ⟨i, hi, rfl⟩)
    simpa using this
  · intro h b hb
    obtain ⟨i, hi, rfl⟩ := (mem_accessBytes hn).1 hb
    simpa using h i hi

theorem memWrite_ok {s : State} {a : Word} {n : Nat} (hn : n ≤ 8) (h : StoreOk s a n) (v : Word) :
    memWrite s a n v = .ok (s.poke a n v) := by
  unfold memWrite
  rw [checkAccess_ok h.1 h.2.1]
  simp only [(any_inCode_eq_false hn).2 h.2.2]
  rfl

/-- Everything a write that answers can be. -/
theorem of_memWrite_ok {s t : State} {a : Word} {n : Nat} {v : Word} (h : memWrite s a n v = .ok t) :
    a.toNat % n = 0 ∧ memAdmit s.cfg a n .store = true ∧ (accessBytes s.xl a n).any (Config.inCode s.cfg) = false ∧
      t = s.poke a n v := by
  unfold memWrite at h
  split at h
  · rename_i u hu
    split at h
    · cases h
    · rename_i hc
      cases h
      exact ⟨(of_checkAccess_ok hu).1, (of_checkAccess_ok hu).2, by simpa using hc, rfl⟩
  · cases h

theorem memWrite_misaligned {s : State} {a : Word} {n : Nat} (h : a.toNat % n ≠ 0) (v : Word) :
    memWrite s a n v = .error (.trap (.storeAMOAddressMisaligned a)) := by
  unfold memWrite; rw [checkAccess_misaligned h]; rfl

theorem memWrite_fault {s : State} {a : Word} {n : Nat} (h0 : a.toNat % n = 0)
    (h1 : memAdmit s.cfg a n .store = false) (v : Word) :
    memWrite s a n v = .error (.trap (.storeAMOAccessFault a)) := by
  unfold memWrite; rw [checkAccess_fault h0 h1]; rfl

theorem memWrite_text {s : State} {a : Word} {n : Nat} (hn : n ≤ 8) (h0 : a.toNat % n = 0)
    (h1 : memAdmit s.cfg a n .store = true) (h2 : ¬ OutsideText s a n) (v : Word) :
    memWrite s a n v = .error (.refuse .storeToCode) := by
  unfold memWrite
  rw [checkAccess_ok h0 h1]
  have : (accessBytes s.xl a n).any (Config.inCode s.cfg) = true := by
    rw [← any_inCode_eq_false hn] at h2; simpa using h2
  simp only [this]; rfl

/-- Everything a read that ends early can be. -/
theorem of_memRead_error {s : State} {k : AccessKind} {a : Word} {n : Nat} {e : Stop}
    (h : memRead s k a n = .error e) : e = .trap (misaligned k a) ∨ e = .trap (accessFault k a) := by
  unfold memRead checkAccess at h
  by_cases h1 : a.toNat % n ≠ 0
  · rw [if_pos h1] at h
    cases h
    exact .inl rfl
  · rw [if_neg h1] at h
    by_cases h2 : memAdmit s.cfg a n k = true
    · rw [if_pos h2] at h
      cases h
    · rw [if_neg h2] at h
      cases h
      exact .inr rfl

/-- Everything a write that ends early can be. -/
theorem of_memWrite_error {s : State} {a : Word} {n : Nat} {v : Word} {e : Stop} (h : memWrite s a n v = .error e) :
    e = .trap (.storeAMOAddressMisaligned a) ∨ e = .trap (.storeAMOAccessFault a) ∨ e = .refuse .storeToCode := by
  unfold memWrite checkAccess at h
  by_cases h1 : a.toNat % n ≠ 0
  · rw [if_pos h1] at h
    cases h
    exact .inl rfl
  · rw [if_neg h1] at h
    by_cases h2 : memAdmit s.cfg a n .store = true
    · rw [if_pos h2] at h
      simp only at h
      split at h <;> cases h
      exact .inr (.inr rfl)
    · rw [if_neg h2] at h
      cases h
      exact .inr (.inl rfl)

end Sys2Proof.Machine
end

