-- ==== Sys2Proof/Laws/Exceptions.lean ====
section
/-! SUPPORT. Taking an exception, going on after it, and the small operations that end an instruction
(60_exceptions.md R282, R283; 20_memory.md R58). -/

namespace Sys2Proof.Machine

/-! ## The state that writes make -/

/-- A property that every write keeps holds of the state the writes make. -/
theorem State.applyWrites_ind {P : State → Prop} (s : State) (w : Writes) (h : P s)
    (hx : ∀ t, P t → ∀ e ∈ w.x, P (t.writeX e.1 e.2)) (hf : ∀ t, P t → ∀ e ∈ w.f, P (t.writeF e.1 e.2))
    (hc : ∀ t, P t → ∀ e ∈ w.csrs, P (t.setCsr e.1 e.2))
    (hm : ∀ t, P t → ∀ e ∈ w.mem, P (t.setByte (wrap t.xl e.1).toNat e.2)) : P (s.applyWrites w) := by
  have fold : ∀ {α : Type} (l : List α) (g : State → α → State) (t : State), P t → (∀ t, P t → ∀ e ∈ l, P (g t e)) →
      P (l.foldl g t) := by
    intro α l g
    induction l with
    | nil => intro t ht _; exact ht
    | cons e l ih =>
      intro t ht hg
      exact ih _ (hg t ht e List.mem_cons_self) fun t ht d hd => hg t ht d (List.mem_cons_of_mem _ hd)
  exact fold _ _ _ (fold _ _ _ (fold _ _ _ (fold _ _ _ h hx) hf) hc) hm

/-- Writes change neither pc nor the parameters nor the count of accesses. -/
theorem State.applyWrites_model (s : State) (w : Writes) :
    (s.applyWrites w).pc = s.pc ∧ (s.applyWrites w).cfg = s.cfg ∧ (s.applyWrites w).tick = s.tick := by
  refine State.applyWrites_ind (P := fun t => t.pc = s.pc ∧ t.cfg = s.cfg ∧ t.tick = s.tick) s w ⟨rfl, rfl, rfl⟩
    ?_ ?_ ?_ ?_ <;>
    · intro t ht
      intros
      simpa using ht

@[simp] theorem State.applyWrites_pc (s : State) (w : Writes) : (s.applyWrites w).pc = s.pc := (s.applyWrites_model w).1

@[simp] theorem State.applyWrites_cfg (s : State) (w : Writes) : (s.applyWrites w).cfg = s.cfg :=
  (s.applyWrites_model w).2.1

@[simp] theorem State.applyWrites_tick (s : State) (w : Writes) : (s.applyWrites w).tick = s.tick :=
  (s.applyWrites_model w).2.2

/-- Writes that reach no program text leave it alone. -/
theorem State.applyWrites_text (s : State) (w : Writes) (h : w.writesCode s.cfg = false) {b : Nat}
    (hb : Config.inCode s.cfg b = true) : (s.applyWrites w).byte b = s.byte b := by
  refine (State.applyWrites_ind (P := fun t => t.cfg = s.cfg ∧ t.byte b = s.byte b) s w ⟨rfl, rfl⟩ ?_ ?_ ?_ ?_).2
  · rintro t ⟨h1, h2⟩ e -; exact ⟨by simpa using h1, by simpa using h2⟩
  · rintro t ⟨h1, h2⟩ e -; exact ⟨h1, h2⟩
  · rintro t ⟨h1, h2⟩ e -; exact ⟨h1, h2⟩
  · rintro t ⟨h1, h2⟩ e he
    refine ⟨h1, ?_⟩
    rw [State.byte_setByte_ne, h2]
    rintro rfl
    simp only [Writes.writesCode, List.any_eq_false] at h
    exact h e he (by rw [State.xl, h1] at hb; exact hb)

/-! ## The state an answer of env makes -/

/-- An answer changes neither the parameters nor the count of accesses. -/
theorem State.continueWith_model (s : State) (a : EnvAnswer) : SameModel s (s.continueWith a) :=
  (s.applyWrites_model a.toWrites).2

@[simp] theorem State.continueWith_cfg (s : State) (a : EnvAnswer) : (s.continueWith a).cfg = s.cfg :=
  (s.continueWith_model a).1

@[simp] theorem State.continueWith_tick (s : State) (a : EnvAnswer) : (s.continueWith a).tick = s.tick :=
  (s.continueWith_model a).2

@[simp] theorem State.continueWith_readPc (s : State) (a : EnvAnswer) :
    (s.continueWith a).readPc = wrap s.xl a.pc := by
  unfold State.continueWith
  rw [State.readPc_writePc, State.xl, State.applyWrites_cfg]

/-- An answer that writes no program text leaves program text alone. -/
theorem State.continueWith_text (s : State) (a : EnvAnswer) (h : a.writesCode s.cfg = false) {b : Nat}
    (hb : Config.inCode s.cfg b = true) : (s.continueWith a).byte b = s.byte b :=
  s.applyWrites_text a.toWrites h hb

/-! ## env and `raise` -/

/-- With no clause env stops. -/
theorem envAnswer_none {s : State} (h : s.cfg.env = []) (e : Exception) : envAnswer s e = none := by
  unfold envAnswer; rw [h]; rfl

/-- The functions of the parameters see nothing of env. -/
@[simp] theorem State.withEnv_view (s : State) (env : List EnvRule) : (s.withEnv env).view = s.view := rfl

theorem raise_stop {s : State} {e : Exception} (h : envAnswer s e = none) : raise s e = .fault (.trap e) := by
  unfold raise; rw [h]

theorem raise_continue {s : State} {a : EnvAnswer} {e : Exception} (h : envAnswer s e = some a)
    (hc : a.writesCode s.cfg = false) : raise s e = .next (s.continueWith a) := by
  unfold raise; rw [h]; simp only [hc]; rfl

theorem raise_text {s : State} {a : EnvAnswer} {e : Exception} (h : envAnswer s e = some a)
    (hc : a.writesCode s.cfg = true) : raise s e = .refused .storeToCode := by
  unfold raise; rw [h]; simp only [hc]; rfl

/-- Everything a raise that goes on can be. -/
theorem of_raise_next {s t : State} {e : Exception} (h : raise s e = .next t) :
    ∃ a, envAnswer s e = some a ∧ a.writesCode s.cfg = false ∧ t = s.continueWith a := by
  unfold raise at h
  split at h
  · cases h
  · rename_i a he
    split at h
    · cases h
    · rename_i hc
      exact ⟨a, he, by simpa using hc, by cases h; rfl⟩

/-- Everything a raise that ends the run can be. -/
theorem of_raise_fault {s : State} {e e' : Exception} (h : raise s e = .fault (.trap e')) :
    e' = e ∧ envAnswer s e = none := by
  unfold raise at h
  split at h
  · cases h
    exact ⟨rfl, by assumption⟩
  · split at h <;> cases h

/-! ## Ending early -/

@[simp] theorem orStop_ok {α : Type} (s : State) (a : α) (k : α → Out) : orStop s (.ok a) k = k a := rfl

@[simp] theorem orStop_trap {α : Type} (s : State) (e : Exception) (k : α → Out) :
    orStop s (.error (.trap e)) k = raise s e := rfl

@[simp] theorem orStop_refuse {α : Type} (s : State) (r : Refusal) (k : α → Out) :
    orStop s (.error (.refuse r)) k = .refused r := rfl

/-- Everything an operation that may end early can do, when it goes on. -/
theorem of_orStop_next {α : Type} {s t : State} {r : Except Stop α} {k : α → Out} (h : orStop s r k = .next t) :
    (∃ a, r = .ok a ∧ k a = .next t) ∨ (∃ e, r = .error (.trap e) ∧ raise s e = .next t) := by
  cases r with
  | ok a => exact .inl ⟨a, rfl, h⟩
  | error e =>
    cases e with
    | trap e => exact .inr ⟨e, rfl, h⟩
    | refuse r => cases h

/-- Everything an operation that may end early can do, when the run ends and going on would not have ended it. -/
theorem of_orStop_fault {α : Type} {s : State} {r : Except Stop α} {k : α → Out} {e : Exception}
    (h : orStop s r k = .fault (.trap e)) (hk : ∀ a, r = .ok a → ∃ t, k a = .next t) : r = .error (.trap e) := by
  cases r with
  | ok a =>
    obtain ⟨t, ht⟩ := hk a rfl
    rw [orStop_ok, ht] at h
    cases h
  | error e' =>
    cases e' with
    | trap e' =>
      obtain ⟨rfl, -⟩ := of_raise_fault h
      rfl
    | refuse r => cases h

theorem ifPresent_of {i : Instr} {s : State} (h : i.present s.cfg = true) (k : Out) : ifPresent i s k = k := by
  unfold ifPresent; rw [if_pos h]

theorem ifPresent_absent {i : Instr} {s : State} (h : i.present s.cfg = false) (k : Out) :
    ifPresent i s k = .refused (.notInSpec (encode i)) := by
  unfold ifPresent; rw [if_neg (by simp [h])]

theorem of_ifPresent_next {i : Instr} {s t : State} {k : Out} (h : ifPresent i s k = .next t) :
    i.present s.cfg = true ∧ k = .next t := by
  unfold ifPresent at h
  split at h
  · exact ⟨by assumption, h⟩
  · cases h

theorem jumpChecked_ok {s : State} {target : Word} (h : target.toNat % s.cfg.ialignBytes = 0) :
    jumpChecked s target = .next (s.writePc target) := by
  unfold jumpChecked; rw [if_neg (by simpa using h)]

theorem jumpChecked_misaligned {s : State} {target : Word} (h : target.toNat % s.cfg.ialignBytes ≠ 0) :
    jumpChecked s target = raise s (.instructionAddressMisaligned target) := by
  unfold jumpChecked; rw [if_pos h]

/-! ## The frames of the common endings -/

/-- The end of an instruction that writes one x register. -/
theorem onlyX_finish (s : State) (rd : Reg) (v : Word) {n : Nat} (hn : n < 2 ^ 64) :
    OnlyX s ((s.writeX rd v).advance n) rd (wrap s.xl v) (seqPc s n) := by
  refine ⟨?_, ?_, ?_, ?_, ?_, ?_, ?_⟩
  · rw [State.readX_advance, State.readX_writeX_self]
  · intro r hr; rw [State.readX_advance, State.readX_writeX_ne s hr]
  · rw [State.readPc_advance, State.readPc_writeX, ← State.advance_eq_seqPc s hn]; simp [State.xl]
  · intro r; simp
  · intro r; simp
  · intro r; simp
  · simp [SameModel]

/-- The shape of every instruction that ends in `finish`. -/
theorem completesX_finish {i : Instr} {s : State} {rd : Reg} {v w : Word} {n : Nat} (hn : n < 2 ^ 64)
    (h : exec i s = finish s rd v n) (hv : wrap s.xl v = w) : CompletesX i s rd w (seqPc s n) := by
  subst hv
  exact ⟨_, h, onlyX_finish s rd v hn⟩

/-- The end of an instruction that writes one f register. -/
theorem onlyF_finish (s : State) (rd : Reg) (v : Word) {n : Nat} (hn : n < 2 ^ 64) :
    OnlyF s ((s.writeF rd v).advance n) rd (wrapF s.cfg v) (seqPc s n) := by
  refine ⟨?_, ?_, ?_, ?_, ?_, ?_, ?_⟩
  · rw [State.readF_advance, State.readF_writeF, if_pos rfl]
  · intro r hr; rw [State.readF_advance, State.readF_writeF, if_neg hr]
  · rw [State.readPc_advance, State.readPc_writeF, ← State.advance_eq_seqPc s hn]; simp [State.xl]
  · intro r; simp
  · intro r; simp
  · intro r; simp
  · simp [SameModel]

/-- The end of an instruction that writes pc only. -/
theorem onlyPc_writePc (s : State) (t : Word) : OnlyPc s (s.writePc t) (wrap s.xl t) := by
  refine ⟨State.readPc_writePc s t, ?_, ?_, ?_, ?_, ?_⟩ <;> simp [SameX, SameF, SameCsrs, SameMem, SameModel]

theorem onlyPc_advance (s : State) {n : Nat} (hn : n < 2 ^ 64) : OnlyPc s (s.advance n) (seqPc s n) := by
  have h := onlyPc_writePc s (addX s.xl s.readPc (BitVec.ofNat 64 n))
  rw [wrap_addX, State.advance_eq_seqPc s hn] at h
  unfold State.advance
  rw [State.advance_eq_seqPc s hn]
  exact h

/-- The end of a store. -/
theorem onlyStore_poke {s : State} (h : Memory.wf s.mem = true) (a : Word) {n : Nat} (hn : n ≤ 8) (v : Word) {k : Nat}
    (hk : k < 2 ^ 64) : OnlyStore s ((s.poke a n v).advance k) a n v (seqPc s k) := by
  have hs := State.storedAt_poke h a hn v
  refine ⟨⟨fun i hi => ?_, fun b hb => ?_⟩, ?_, ?_, ?_, ?_, ?_⟩
  · rw [State.byte_advance]; exact hs.1 i hi
  · rw [State.byte_advance]; exact hs.2 b hb
  · rw [State.readPc_advance, State.readPc_poke, ← State.advance_eq_seqPc s hk]; simp [State.xl]
  · intro r; simp
  · intro r; simp
  · intro r; simp
  · simp [SameModel]

end Sys2Proof.Machine
end

