-- ==== Sys2Proof/Laws/Csr.lean ====
section
/-! SUPPORT. The CSR file and the shape common to the six CSR instructions (10_state.md R30, 45_call_and_csr.md R241). -/

namespace Sys2Proof.Machine

theorem State.csr_lt (s : State) (a : BitVec 12) : (s.csr a).toNat < 2 ^ s.xl.bits := wrap_lt _ _

@[simp] theorem State.wrap_csr (s : State) (a : BitVec 12) : wrap s.xl (s.csr a) = s.csr a := wrap_wrap _ _

theorem State.csr_setCsr {s : State} (h : sparseWf s.csrs = true) (a b : BitVec 12) (v : Word) :
    (s.setCsr a v).csr b = if b = a then wrap s.xl v else s.csr b := by
  unfold State.csr
  rw [State.setCsr_csrs, sparseRead_write h]
  by_cases hb : b = a
  · subst hb
    rw [if_pos rfl, if_pos rfl]
    exact wrap_wrap _ _
  · rw [if_neg (fun e => hb (BitVec.eq_of_toNat_eq e)), if_neg hb]
    rfl

theorem State.setCsr_wf {s : State} (h : sparseWf s.csrs = true) (a : BitVec 12) (v : Word) :
    sparseWf (s.setCsr a v).csrs = true := sparseWf_write h _ _

/-! ## The functions of csr_model -/

/-- `u` is `s` after writes that functions of csr_model make and counted accesses: what these keep of `s` holds of `u`. -/
def CsrReach (s u : State) : Prop :=
  ∀ P : State → Prop, P s → (∀ t, P t → ∀ (w : Writes), w.writesCode t.cfg = false → P (t.applyWrites w)) →
    (∀ t, P t → ∀ (a : BitVec 12) v, P (t.setCsr a v)) → (∀ t, P t → ∀ n, P { t with tick := n }) → P u

theorem CsrReach.refl (s : State) : CsrReach s s := fun _ h _ _ _ => h

theorem CsrReach.trans {s t u : State} (h : CsrReach s t) (k : CsrReach t u) : CsrReach s u :=
  fun P hs hw hc ht => k P (h P hs hw hc ht) hw hc ht

/-- What an access of a CSR leaves alone: pc, the parameters and program text. -/
theorem CsrReach.keeps {s u : State} (h : CsrReach s u) :
    u.pc = s.pc ∧ u.cfg = s.cfg ∧ ∀ b, Config.inCode s.cfg b = true → u.byte b = s.byte b := by
  refine h (fun t => t.pc = s.pc ∧ t.cfg = s.cfg ∧ ∀ b, Config.inCode s.cfg b = true → t.byte b = s.byte b)
    ⟨rfl, rfl, fun _ _ => rfl⟩ ?_ (fun _ h _ _ => h) (fun _ h _ => h)
  rintro t ⟨h1, h2, h3⟩ w hw
  refine ⟨by simpa using h1, by simpa using h2, fun b hb => ?_⟩
  rw [State.applyWrites_text t w hw (by rw [h2]; exact hb), h3 b hb]

/-- Everything the effect of a function of csr_model can be. -/
theorem csrEffect_cases (s : State) (w : Writes) :
    w.writesCode s.cfg = false ∧ csrEffect s w = .ok { s.applyWrites w with tick := s.tick + 1 } ∨
      w.writesCode s.cfg = true ∧ csrEffect s w = .error (.refuse .storeToCode) := by
  unfold csrEffect
  cases h : w.writesCode s.cfg
  · exact .inl ⟨rfl, rfl⟩
  · exact .inr ⟨rfl, rfl⟩

theorem of_csrEffect_ok {s t : State} {w : Writes} (h : csrEffect s w = .ok t) : CsrReach s t := by
  rcases csrEffect_cases s w with ⟨hw, e⟩ | ⟨-, e⟩ <;> rw [e] at h <;> cases h
  exact fun P hs hp _ ht => ht _ (hp s hs w hw) _

theorem of_csrEffect_error {s : State} {w : Writes} {e : Stop} (h : csrEffect s w = .error e) :
    e = .refuse .storeToCode := by
  rcases csrEffect_cases s w with ⟨-, k⟩ | ⟨-, k⟩ <;> rw [k] at h <;> cases h
  rfl

theorem csrGet_storage {s : State} {a : BitVec 12} {r w : Bool} {m : Word}
    (h : csrDesc s.cfg a = some (.storage r w m)) : csrGet s a = .ok (s.csr a, s) := by
  unfold csrGet; rw [h]

theorem csrSet_storage {s : State} {a : BitVec 12} {r w : Bool} {m : Word}
    (h : csrDesc s.cfg a = some (.storage r w m)) (v : Word) :
    csrSet s a v = .ok (s.setCsr a ((s.csr a &&& ~~~m) ||| (v &&& m))) := by
  unfold csrSet; rw [h]

/-- Everything a read of a CSR can be. -/
theorem csrGet_cases (s : State) (a : BitVec 12) :
    (∃ v t, csrGet s a = .ok (v, t) ∧ CsrReach s t) ∨ csrGet s a = .error (.refuse .storeToCode) := by
  unfold csrGet
  split
  · split
    · rename_i h; exact .inl ⟨_, _, rfl, of_csrEffect_ok h⟩
    · rename_i h; exact .inr (by rw [of_csrEffect_error h])
  · exact .inl ⟨_, _, rfl, .refl s⟩
  · exact .inl ⟨_, _, rfl, .refl s⟩

/-- Everything a write of a CSR can be. -/
theorem csrSet_cases (s : State) (a : BitVec 12) (v : Word) :
    (∃ t, csrSet s a v = .ok t ∧ CsrReach s t) ∨ csrSet s a v = .error (.refuse .storeToCode) := by
  unfold csrSet
  split
  · rename_i d _
    rcases csrEffect_cases s (fnWrites s.view [csrArg a, wrap s.xl v] d.write) with ⟨-, e⟩ | ⟨-, e⟩
    · exact .inl ⟨_, e, of_csrEffect_ok e⟩
    · exact .inr e
  · exact .inl ⟨_, rfl, fun _ h _ hc _ => hc _ h _ _⟩
  · exact .inl ⟨_, rfl, .refl s⟩

/-- The read and the write that take place, when neither is refused. -/
theorem csrAccess_ok {s got u : State} {a : BitVec 12} {doRead doWrite : Bool} {new : State → Word → Word} {v : Word}
    (hr : if doRead then csrGet s a = .ok (v, got) else v = 0 ∧ got = s)
    (hw : if doWrite then csrSet got a (new got v) = .ok u else u = got) :
    csrAccess s a doRead doWrite new = .ok (v, u) := by
  have e : (if doRead then csrGet s a else .ok (0, s)) = .ok (v, got) := by
    cases doRead <;> simp_all
  unfold csrAccess
  rw [e]
  cases doWrite <;> simp_all

/-- Everything the read and the write that take place can be. -/
theorem csrAccess_cases (s : State) (a : BitVec 12) (doRead doWrite : Bool) (new : State → Word → Word) :
    (∃ v t, csrAccess s a doRead doWrite new = .ok (v, t) ∧ CsrReach s t) ∨
      csrAccess s a doRead doWrite new = .error (.refuse .storeToCode) := by
  have hr : (∃ v t, (if doRead then csrGet s a else .ok (0, s)) = .ok (v, t) ∧ CsrReach s t) ∨
      (if doRead then csrGet s a else .ok (0, s)) = .error (.refuse .storeToCode) := by
    cases doRead
    · exact .inl ⟨0, s, rfl, .refl s⟩
    · exact csrGet_cases s a
  unfold csrAccess
  rcases hr with ⟨v, t, e, h⟩ | e
  · rw [e]
    cases doWrite
    · exact .inl ⟨v, t, rfl, h⟩
    · rcases csrSet_cases t a (new t v) with ⟨u, e2, h2⟩ | e2
      · exact .inl ⟨v, u, by simp [e2], h.trans h2⟩
      · exact .inr (by simp [e2])
  · rw [e]; exact .inr rfl

/-- Where no function of csr_model takes part, the accesses change the CSR file only. -/
theorem csrAccess_plain {s u : State} {a : BitVec 12} {doRead doWrite : Bool} {new : State → Word → Word} {v : Word}
    (hp : ∀ d, csrDesc s.cfg a ≠ some (.functions d)) (h : csrAccess s a doRead doWrite new = .ok (v, u)) :
    ∃ cs, u = { s with csrs := cs } := by
  have hr : (if doRead then csrGet s a else .ok (0, s)) = .ok (if doRead then s.csr a else 0, s) := by
    cases doRead
    · rfl
    · simp only [if_true]
      unfold csrGet
      split
      · rename_i d e; exact absurd e (hp d)
      · rfl
      · rfl
  unfold csrAccess at h
  rw [hr] at h
  cases doWrite
  · cases h; exact ⟨_, rfl⟩
  · simp only [if_true] at h
    unfold csrSet at h
    cases hd : csrDesc s.cfg a with
    | none => simp only [hd] at h; cases h; exact ⟨_, rfl⟩
    | some d =>
      cases d with
      | storage _ _ _ => simp only [hd] at h; cases h; exact ⟨_, rfl⟩
      | functions d => exact absurd hd (hp d)

theorem csrAllowed_storage {s : State} {a : BitVec 12} {r w : Bool} {m : Word}
    (h : csrDesc s.cfg a = some (.storage r w m)) (doRead doWrite : Bool) :
    csrAllowed s a doRead doWrite = ((!doRead || r) && (!doWrite || w)) := by
  unfold csrAllowed csrReadable csrWritable; rw [h]; rfl

theorem csrAllowed_missing {s : State} {a : BitVec 12} (h : csrDesc s.cfg a = none) (doRead doWrite : Bool) :
    csrAllowed s a doRead doWrite = false := by
  unfold csrAllowed; rw [h]; rfl

theorem csrInstr_denied {i : Instr} {s : State} {rd : Reg} {a : BitVec 12} {doRead doWrite : Bool}
    {new : State → Word → Word} (h : csrAllowed s a doRead doWrite = false) :
    csrInstr i s rd a doRead doWrite new = raise s (.illegalInstruction (encode i).bits) := by
  unfold csrInstr; rw [if_neg (by simp [h])]

theorem csrInstr_allowed {i : Instr} {s : State} {rd : Reg} {a : BitVec 12} {doRead doWrite : Bool}
    {new : State → Word → Word} (h : csrAllowed s a doRead doWrite = true) :
    csrInstr i s rd a doRead doWrite new =
      orStop s (csrAccess s a doRead doWrite new) fun r => .next ((r.2.writeX rd r.1).advance 4) := by
  unfold csrInstr; rw [if_pos h]

/-- Everything a CSR instruction that goes on can do. -/
theorem of_csrInstr_next {i : Instr} {s t : State} {rd : Reg} {a : BitVec 12} {doRead doWrite : Bool}
    {new : State → Word → Word} (h : csrInstr i s rd a doRead doWrite new = .next t) :
    (∃ v u, csrAccess s a doRead doWrite new = .ok (v, u) ∧ CsrReach s u ∧ t = (u.writeX rd v).advance 4) ∨
      raise s (.illegalInstruction (encode i).bits) = .next t := by
  unfold csrInstr at h
  split at h
  · left
    rcases csrAccess_cases s a doRead doWrite new with ⟨v, u, e, hu⟩ | e
    · rw [e] at h
      exact ⟨v, u, e, hu, (Host.Outcome.next.inj h).symm⟩
    · rw [e] at h; cases h
  · exact .inr h

end Sys2Proof.Machine
end

