-- ==== Sys2Proof/Laws/Encoding.lean ====
section
/-! SUPPORT. The fields of an encoded word: for each layout of 30_encoding.md R81 to R95, what the decoder's slices and
immediate assemblies give on a word that the encoder built. -/

namespace Sys2Proof

/-- Two neighbouring slices joined are the slice of both. -/
theorem extract_append {w : Nat} (x : BitVec w) {s m n k : Nat} (hk : k = s + n) :
    x.extractLsb' k m ++ x.extractLsb' s n = x.extractLsb' s (m + n) := by
  subst hk
  apply BitVec.eq_of_getLsbD_eq
  intro i hi
  rw [BitVec.getLsbD_append, BitVec.getLsbD_extractLsb', BitVec.getLsbD_extractLsb', BitVec.getLsbD_extractLsb']
  split
  · simp [*]
  · have h1 : i - n < m := by omega
    have h2 : s + n + (i - n) = s + i := by omega
    simp [hi, h1, h2]

/-- A slice of everything is the whole. -/
theorem extract_all {w : Nat} (x : BitVec w) : x.extractLsb' 0 w = x := by simp

theorem bit1_beq (b : Bool) : (bit1 b == 1#1) = b := by cases b <;> rfl

/-! ## 32-bit layouts -/

theorem encR_fields (f7 : BitVec 7) (rs2 rs1 : Reg) (f3 : BitVec 3) (rd : Reg) (op : BitVec 7) :
    ∃ w, encR f7 rs2 rs1 f3 rd op = .full w ∧ w.extractLsb' 0 7 = op ∧ w.extractLsb' 7 5 = rd ∧
      w.extractLsb' 12 3 = f3 ∧ w.extractLsb' 15 5 = rs1 ∧ w.extractLsb' 20 5 = rs2 ∧ w.extractLsb' 25 7 = f7 := by
  refine ⟨_, rfl, ?_, ?_, ?_, ?_, ?_, ?_⟩ <;>
    · simp (disch := omega) only [BitVec.extractLsb'_append_eq_of_add_le, BitVec.extractLsb'_append_eq_of_le]
      simp

theorem encAmo_fields (f5 : BitVec 5) (aq rl : Bool) (rs2 rs1 : Reg) (f3 : BitVec 3) (rd : Reg) :
    ∃ w, encAmo f5 aq rl rs2 rs1 f3 rd = .full w ∧ w.extractLsb' 0 7 = 0b0101111#7 ∧ w.extractLsb' 7 5 = rd ∧
      w.extractLsb' 12 3 = f3 ∧ w.extractLsb' 15 5 = rs1 ∧ w.extractLsb' 20 5 = rs2 ∧
      (w.extractLsb' 25 1 == 1#1) = rl ∧ (w.extractLsb' 26 1 == 1#1) = aq ∧ w.extractLsb' 27 5 = f5 := by
  have h : ∀ b, (bit1 b).extractLsb' 0 1 = bit1 b := fun b => extract_all _
  refine ⟨_, rfl, ?_, ?_, ?_, ?_, ?_, ?_, ?_, ?_⟩ <;>
    · simp (disch := omega) only [BitVec.extractLsb'_append_eq_of_add_le, BitVec.extractLsb'_append_eq_of_le]
      simp [h, bit1_beq]

theorem encI_fields (imm : BitVec 12) (rs1 : Reg) (f3 : BitVec 3) (rd : Reg) (op : BitVec 7) :
    ∃ w, encI imm rs1 f3 rd op = .full w ∧ w.extractLsb' 0 7 = op ∧ w.extractLsb' 7 5 = rd ∧
      w.extractLsb' 12 3 = f3 ∧ w.extractLsb' 15 5 = rs1 ∧ w.extractLsb' 20 12 = imm := by
  refine ⟨_, rfl, ?_, ?_, ?_, ?_, ?_⟩ <;>
    · simp (disch := omega) only [BitVec.extractLsb'_append_eq_of_add_le, BitVec.extractLsb'_append_eq_of_le]
      simp

theorem encU_fields (imm : BitVec 20) (rd : Reg) (op : BitVec 7) :
    ∃ w : BitVec 32, InstrWord.full (imm ++ rd ++ op) = .full w ∧ w.extractLsb' 0 7 = op ∧ w.extractLsb' 7 5 = rd ∧
      w.extractLsb' 12 20 = imm := by
  refine ⟨_, rfl, ?_, ?_, ?_⟩ <;>
    · simp (disch := omega) only [BitVec.extractLsb'_append_eq_of_add_le, BitVec.extractLsb'_append_eq_of_le]
      simp

theorem encB_fields (off : BitVec 12) (rs2 rs1 : Reg) (f3 : BitVec 3) :
    ∃ w, encB off rs2 rs1 f3 = .full w ∧ w.extractLsb' 0 7 = 0b1100011#7 ∧ w.extractLsb' 12 3 = f3 ∧
      w.extractLsb' 15 5 = rs1 ∧ w.extractLsb' 20 5 = rs2 ∧
      w.extractLsb' 31 1 ++ w.extractLsb' 7 1 ++ w.extractLsb' 25 6 ++ w.extractLsb' 8 4 = off := by
  refine ⟨_, rfl, ?_, ?_, ?_, ?_, ?_⟩ <;>
    simp (disch := omega) only [BitVec.extractLsb'_append_eq_of_add_le, BitVec.extractLsb'_append_eq_of_le]
  · simp
  · simp
  · simp
  · simp
  · simp only [Nat.reduceSub, extract_all, extract_append off (by rfl : 11 = 10 + 1), extract_append off (by rfl : 10 = 4 + 6),
      extract_append off (by rfl : 4 = 0 + 4)]

/-! ## 16-bit layouts -/

theorem encCR_fields (b12 : BitVec 1) (r1 r2 : Reg) :
    ∃ w, encCR b12 r1 r2 = .half w ∧ w.extractLsb' 0 2 = 0b10#2 ∧ w.extractLsb' 2 5 = r2 ∧ w.extractLsb' 7 5 = r1 ∧
      w.extractLsb' 12 1 = b12 ∧ w.extractLsb' 13 3 = 0b100#3 := by
  refine ⟨_, rfl, ?_, ?_, ?_, ?_, ?_⟩ <;>
    · simp (disch := omega) only [BitVec.extractLsb'_append_eq_of_add_le, BitVec.extractLsb'_append_eq_of_le]
      simp

theorem encCI_fields (f3 : BitVec 3) (rd : Reg) (imm : BitVec 6) (q : BitVec 2) :
    ∃ w, encCI f3 rd imm q = .half w ∧ w.extractLsb' 0 2 = q ∧ w.extractLsb' 7 5 = rd ∧ w.extractLsb' 13 3 = f3 ∧
      cImm6 w = imm := by
  refine ⟨_, rfl, ?_, ?_, ?_, ?_⟩
  iterate 3
    · simp (disch := omega) only [BitVec.extractLsb'_append_eq_of_add_le, BitVec.extractLsb'_append_eq_of_le]
      simp
  · unfold cImm6
    simp (disch := omega) only [BitVec.extractLsb'_append_eq_of_add_le, BitVec.extractLsb'_append_eq_of_le]
    simp only [Nat.reduceSub, extract_all, extract_append imm (by rfl : 5 = 0 + 5)]

theorem encAddi16sp_fields (imm : BitVec 6) :
    ∃ w, encAddi16sp imm = .half w ∧ w.extractLsb' 0 2 = 0b01#2 ∧ w.extractLsb' 7 5 = 0b00010#5 ∧ w.extractLsb' 13 3 = 0b011#3 ∧
      cAddi16spImm w = imm := by
  refine ⟨_, rfl, ?_, ?_, ?_, ?_⟩
  iterate 3
    · simp (disch := omega) only [BitVec.extractLsb'_append_eq_of_add_le, BitVec.extractLsb'_append_eq_of_le]
      simp
  · unfold cAddi16spImm
    simp (disch := omega) only [BitVec.extractLsb'_append_eq_of_add_le, BitVec.extractLsb'_append_eq_of_le]
    simp only [Nat.reduceSub, extract_all, extract_append imm (by rfl : 5 = 3 + 2),
      extract_append imm (by rfl : 3 = 2 + 1), extract_append imm (by rfl : 2 = 1 + 1),
      extract_append imm (by rfl : 1 = 0 + 1)]

theorem encLwsp_fields (f3 : BitVec 3) (rd : Reg) (u : BitVec 6) :
    ∃ w, encLwsp f3 rd u = .half w ∧ w.extractLsb' 0 2 = 0b10#2 ∧ w.extractLsb' 7 5 = rd ∧ w.extractLsb' 13 3 = f3 ∧
      cLwspImm w = u := by
  refine ⟨_, rfl, ?_, ?_, ?_, ?_⟩
  iterate 3
    · simp (disch := omega) only [BitVec.extractLsb'_append_eq_of_add_le, BitVec.extractLsb'_append_eq_of_le]
      simp
  · unfold cLwspImm
    simp (disch := omega) only [BitVec.extractLsb'_append_eq_of_add_le, BitVec.extractLsb'_append_eq_of_le]
    simp only [Nat.reduceSub, extract_all, extract_append u (by rfl : 4 = 3 + 1),
      extract_append u (by rfl : 3 = 0 + 3)]

theorem encLdsp_fields (f3 : BitVec 3) (rd : Reg) (u : BitVec 6) :
    ∃ w, encLdsp f3 rd u = .half w ∧ w.extractLsb' 0 2 = 0b10#2 ∧ w.extractLsb' 7 5 = rd ∧ w.extractLsb' 13 3 = f3 ∧
      cLdspImm w = u := by
  refine ⟨_, rfl, ?_, ?_, ?_, ?_⟩
  iterate 3
    · simp (disch := omega) only [BitVec.extractLsb'_append_eq_of_add_le, BitVec.extractLsb'_append_eq_of_le]
      simp
  · unfold cLdspImm
    simp (disch := omega) only [BitVec.extractLsb'_append_eq_of_add_le, BitVec.extractLsb'_append_eq_of_le]
    simp only [Nat.reduceSub, extract_all, extract_append u (by rfl : 3 = 2 + 1),
      extract_append u (by rfl : 2 = 0 + 2)]

theorem encSwsp_fields (f3 : BitVec 3) (rs2 : Reg) (u : BitVec 6) :
    ∃ w, encSwsp f3 rs2 u = .half w ∧ w.extractLsb' 0 2 = 0b10#2 ∧ w.extractLsb' 2 5 = rs2 ∧ w.extractLsb' 13 3 = f3 ∧
      cSwspImm w = u := by
  refine ⟨_, rfl, ?_, ?_, ?_, ?_⟩
  iterate 3
    · simp (disch := omega) only [BitVec.extractLsb'_append_eq_of_add_le, BitVec.extractLsb'_append_eq_of_le]
      simp
  · unfold cSwspImm
    simp (disch := omega) only [BitVec.extractLsb'_append_eq_of_add_le, BitVec.extractLsb'_append_eq_of_le]
    simp only [Nat.reduceSub, extract_all, extract_append u (by rfl : 4 = 0 + 4)]

theorem encSdsp_fields (f3 : BitVec 3) (rs2 : Reg) (u : BitVec 6) :
    ∃ w, encSdsp f3 rs2 u = .half w ∧ w.extractLsb' 0 2 = 0b10#2 ∧ w.extractLsb' 2 5 = rs2 ∧ w.extractLsb' 13 3 = f3 ∧
      cSdspImm w = u := by
  refine ⟨_, rfl, ?_, ?_, ?_, ?_⟩
  iterate 3
    · simp (disch := omega) only [BitVec.extractLsb'_append_eq_of_add_le, BitVec.extractLsb'_append_eq_of_le]
      simp
  · unfold cSdspImm
    simp (disch := omega) only [BitVec.extractLsb'_append_eq_of_add_le, BitVec.extractLsb'_append_eq_of_le]
    simp only [Nat.reduceSub, extract_all, extract_append u (by rfl : 3 = 0 + 3)]

theorem encCIW_fields (rd : CReg) (u : BitVec 8) :
    ∃ w, encCIW rd u = .half w ∧ w.extractLsb' 0 2 = 0b00#2 ∧ w.extractLsb' 2 3 = rd ∧ w.extractLsb' 13 3 = 0b000#3 ∧
      cAddi4spnImm w = u := by
  refine ⟨_, rfl, ?_, ?_, ?_, ?_⟩
  iterate 3
    · simp (disch := omega) only [BitVec.extractLsb'_append_eq_of_add_le, BitVec.extractLsb'_append_eq_of_le]
      simp
  · unfold cAddi4spnImm
    simp (disch := omega) only [BitVec.extractLsb'_append_eq_of_add_le, BitVec.extractLsb'_append_eq_of_le]
    simp only [Nat.reduceSub, extract_all, extract_append u (by rfl : 4 = 2 + 2),
      extract_append u (by rfl : 2 = 1 + 1), extract_append u (by rfl : 1 = 0 + 1)]

theorem encWordMem_fields (f3 : BitVec 3) (r1 r2 : CReg) (u : BitVec 5) :
    ∃ w, encWordMem f3 r1 r2 u = .half w ∧ w.extractLsb' 0 2 = 0b00#2 ∧ w.extractLsb' 2 3 = r2 ∧ w.extractLsb' 7 3 = r1 ∧
      w.extractLsb' 13 3 = f3 ∧ cWordImm w = u := by
  refine ⟨_, rfl, ?_, ?_, ?_, ?_, ?_⟩
  iterate 4
    · simp (disch := omega) only [BitVec.extractLsb'_append_eq_of_add_le, BitVec.extractLsb'_append_eq_of_le]
      simp
  · unfold cWordImm
    simp (disch := omega) only [BitVec.extractLsb'_append_eq_of_add_le, BitVec.extractLsb'_append_eq_of_le]
    simp only [Nat.reduceSub, extract_all, extract_append u (by rfl : 4 = 1 + 3),
      extract_append u (by rfl : 1 = 0 + 1)]

theorem encDoubleMem_fields (f3 : BitVec 3) (r1 r2 : CReg) (u : BitVec 5) :
    ∃ w, encDoubleMem f3 r1 r2 u = .half w ∧ w.extractLsb' 0 2 = 0b00#2 ∧ w.extractLsb' 2 3 = r2 ∧ w.extractLsb' 7 3 = r1 ∧
      w.extractLsb' 13 3 = f3 ∧ cDoubleImm w = u := by
  refine ⟨_, rfl, ?_, ?_, ?_, ?_, ?_⟩
  iterate 4
    · simp (disch := omega) only [BitVec.extractLsb'_append_eq_of_add_le, BitVec.extractLsb'_append_eq_of_le]
      simp
  · unfold cDoubleImm
    simp (disch := omega) only [BitVec.extractLsb'_append_eq_of_add_le, BitVec.extractLsb'_append_eq_of_le]
    simp only [Nat.reduceSub, extract_all, extract_append u (by rfl : 3 = 0 + 3)]

theorem encCA_fields (f6 : BitVec 6) (rd : CReg) (f2 : BitVec 2) (rs2 : CReg) :
    ∃ w, encCA f6 rd f2 rs2 = .half w ∧ w.extractLsb' 0 2 = 0b01#2 ∧ w.extractLsb' 2 3 = rs2 ∧ w.extractLsb' 5 2 = f2 ∧
      w.extractLsb' 7 3 = rd ∧ w.extractLsb' 10 2 = f6.extractLsb' 0 2 ∧ w.extractLsb' 12 1 = f6.extractLsb' 2 1 ∧
      w.extractLsb' 13 3 = f6.extractLsb' 3 3 := by
  refine ⟨_, rfl, ?_, ?_, ?_, ?_, ?_, ?_, ?_⟩ <;>
    · simp (disch := omega) only [BitVec.extractLsb'_append_eq_of_add_le, BitVec.extractLsb'_append_eq_of_le]
      try simp

theorem encCBArith_fields (f2 : BitVec 2) (rd : CReg) (imm : BitVec 6) :
    ∃ w, encCBArith f2 rd imm = .half w ∧ w.extractLsb' 0 2 = 0b01#2 ∧ w.extractLsb' 7 3 = rd ∧ w.extractLsb' 10 2 = f2 ∧
      w.extractLsb' 13 3 = 0b100#3 ∧ cImm6 w = imm := by
  refine ⟨_, rfl, ?_, ?_, ?_, ?_, ?_⟩
  iterate 4
    · simp (disch := omega) only [BitVec.extractLsb'_append_eq_of_add_le, BitVec.extractLsb'_append_eq_of_le]
      simp
  · unfold cImm6
    simp (disch := omega) only [BitVec.extractLsb'_append_eq_of_add_le, BitVec.extractLsb'_append_eq_of_le]
    simp only [Nat.reduceSub, extract_all, extract_append imm (by rfl : 5 = 0 + 5)]

theorem encCBBranch_fields (f3 : BitVec 3) (rs1 : CReg) (off : BitVec 8) :
    ∃ w, encCBBranch f3 rs1 off = .half w ∧ w.extractLsb' 0 2 = 0b01#2 ∧ w.extractLsb' 7 3 = rs1 ∧ w.extractLsb' 13 3 = f3 ∧
      cBranchOff w = off := by
  refine ⟨_, rfl, ?_, ?_, ?_, ?_⟩
  iterate 3
    · simp (disch := omega) only [BitVec.extractLsb'_append_eq_of_add_le, BitVec.extractLsb'_append_eq_of_le]
      simp
  · unfold cBranchOff
    simp (disch := omega) only [BitVec.extractLsb'_append_eq_of_add_le, BitVec.extractLsb'_append_eq_of_le]
    simp only [Nat.reduceSub, extract_all, extract_append off (by rfl : 7 = 5 + 2),
      extract_append off (by rfl : 5 = 4 + 1), extract_append off (by rfl : 4 = 2 + 2),
      extract_append off (by rfl : 2 = 0 + 2)]

theorem encCJ_fields (f3 : BitVec 3) (off : BitVec 11) :
    ∃ w, encCJ f3 off = .half w ∧ w.extractLsb' 0 2 = 0b01#2 ∧ w.extractLsb' 13 3 = f3 ∧ cJumpOff w = off := by
  refine ⟨_, rfl, ?_, ?_, ?_⟩
  iterate 2
    · simp (disch := omega) only [BitVec.extractLsb'_append_eq_of_add_le, BitVec.extractLsb'_append_eq_of_le]
      simp
  · unfold cJumpOff
    simp (disch := omega) only [BitVec.extractLsb'_append_eq_of_add_le, BitVec.extractLsb'_append_eq_of_le]
    simp only [Nat.reduceSub, extract_all, extract_append off (by rfl : 10 = 9 + 1),
      extract_append off (by rfl : 9 = 7 + 2), extract_append off (by rfl : 7 = 6 + 1),
      extract_append off (by rfl : 6 = 5 + 1), extract_append off (by rfl : 5 = 4 + 1),
      extract_append off (by rfl : 4 = 3 + 1), extract_append off (by rfl : 3 = 0 + 3)]

/-! ## A word is the encoding of its own fields -/

/-- Every slice of width one is the bit it holds, re-encoded. -/
theorem bit1_extract {n : Nat} (w : BitVec n) (k : Nat) : bit1 (w.extractLsb' k 1 == 1#1) = w.extractLsb' k 1 := by
  generalize w.extractLsb' k 1 = b
  revert b; decide

theorem encR_self (w : BitVec 32) :
    encR (w.extractLsb' 25 7) (w.extractLsb' 20 5) (w.extractLsb' 15 5) (w.extractLsb' 12 3) (w.extractLsb' 7 5)
      (w.extractLsb' 0 7) = .full w := by
  unfold encR
  simp only [extract_append w (by rfl : 25 = 20 + 5), extract_append w (by rfl : 20 = 15 + 5),
    extract_append w (by rfl : 15 = 12 + 3), extract_append w (by rfl : 12 = 7 + 5),
    extract_append w (by rfl : 7 = 0 + 7), extract_all]

theorem encI_self (w : BitVec 32) :
    encI (w.extractLsb' 20 12) (w.extractLsb' 15 5) (w.extractLsb' 12 3) (w.extractLsb' 7 5) (w.extractLsb' 0 7) = .full w := by
  unfold encI
  simp only [extract_append w (by rfl : 20 = 15 + 5),
    extract_append w (by rfl : 15 = 12 + 3), extract_append w (by rfl : 12 = 7 + 5),
    extract_append w (by rfl : 7 = 0 + 7), extract_all]

theorem encU_self (w : BitVec 32) :
    InstrWord.full (w.extractLsb' 12 20 ++ w.extractLsb' 7 5 ++ w.extractLsb' 0 7) = .full w := by
  simp only [extract_append w (by rfl : 12 = 7 + 5),
    extract_append w (by rfl : 7 = 0 + 7), extract_all]

theorem encAmo_self (w : BitVec 32) (h : w.extractLsb' 0 7 = 0b0101111#7) :
    encAmo (w.extractLsb' 27 5) (w.extractLsb' 26 1 == 1#1) (w.extractLsb' 25 1 == 1#1) (w.extractLsb' 20 5)
      (w.extractLsb' 15 5) (w.extractLsb' 12 3) (w.extractLsb' 7 5) = .full w := by
  unfold encAmo
  rw [bit1_extract, bit1_extract, ← h]
  simp only [extract_append w (by rfl : 27 = 26 + 1), extract_append w (by rfl : 26 = 25 + 1),
    extract_append w (by rfl : 25 = 20 + 5), extract_append w (by rfl : 20 = 15 + 5),
    extract_append w (by rfl : 15 = 12 + 3), extract_append w (by rfl : 12 = 7 + 5),
    extract_append w (by rfl : 7 = 0 + 7), extract_all]

theorem encB_self (w : BitVec 32) (h : w.extractLsb' 0 7 = 0b1100011#7) :
    encB (w.extractLsb' 31 1 ++ w.extractLsb' 7 1 ++ w.extractLsb' 25 6 ++ w.extractLsb' 8 4) (w.extractLsb' 20 5) (w.extractLsb' 15 5) (w.extractLsb' 12 3) = .full w := by
  unfold encB
  rw [← h]
  simp (disch := omega) only [BitVec.extractLsb'_append_eq_of_add_le, BitVec.extractLsb'_append_eq_of_le]
  simp only [Nat.reduceSub, extract_all, extract_append w (by rfl : 31 = 25 + 6),
    extract_append w (by rfl : 25 = 20 + 5), extract_append w (by rfl : 20 = 15 + 5),
    extract_append w (by rfl : 15 = 12 + 3), extract_append w (by rfl : 12 = 8 + 4),
    extract_append w (by rfl : 8 = 7 + 1), extract_append w (by rfl : 7 = 0 + 7)]

theorem encCR_self (w : BitVec 16) (h0 : w.extractLsb' 13 3 = 0b100#3) (h1 : w.extractLsb' 0 2 = 0b10#2) :
    encCR (w.extractLsb' 12 1) (w.extractLsb' 7 5) (w.extractLsb' 2 5) = .half w := by
  unfold encCR
  rw [← h0, ← h1]
  simp only [extract_all, extract_append w (by rfl : 13 = 12 + 1),
    extract_append w (by rfl : 12 = 7 + 5), extract_append w (by rfl : 7 = 2 + 5),
    extract_append w (by rfl : 2 = 0 + 2)]

theorem encCI_self (w : BitVec 16) :
    encCI (w.extractLsb' 13 3) (w.extractLsb' 7 5) (cImm6 w) (w.extractLsb' 0 2) = .half w := by
  unfold encCI cImm6
  simp (disch := omega) only [BitVec.extractLsb'_append_eq_of_add_le, BitVec.extractLsb'_append_eq_of_le]
  simp only [Nat.reduceSub, extract_all, extract_append w (by rfl : 13 = 12 + 1),
    extract_append w (by rfl : 12 = 7 + 5), extract_append w (by rfl : 7 = 2 + 5),
    extract_append w (by rfl : 2 = 0 + 2)]

theorem encAddi16sp_self (w : BitVec 16) (h0 : w.extractLsb' 13 3 = 0b011#3) (h1 : w.extractLsb' 7 5 = 0b00010#5) (h2 : w.extractLsb' 0 2 = 0b01#2) :
    encAddi16sp (cAddi16spImm w) = .half w := by
  unfold encAddi16sp cAddi16spImm
  rw [← h0, ← h1, ← h2]
  simp (disch := omega) only [BitVec.extractLsb'_append_eq_of_add_le, BitVec.extractLsb'_append_eq_of_le]
  simp only [Nat.reduceSub, extract_all, extract_append w (by rfl : 13 = 12 + 1),
    extract_append w (by rfl : 12 = 7 + 5), extract_append w (by rfl : 7 = 6 + 1),
    extract_append w (by rfl : 6 = 5 + 1), extract_append w (by rfl : 5 = 3 + 2),
    extract_append w (by rfl : 3 = 2 + 1), extract_append w (by rfl : 2 = 0 + 2)]

theorem encLwsp_self (w : BitVec 16) (h0 : w.extractLsb' 0 2 = 0b10#2) :
    encLwsp (w.extractLsb' 13 3) (w.extractLsb' 7 5) (cLwspImm w) = .half w := by
  unfold encLwsp cLwspImm
  rw [← h0]
  simp (disch := omega) only [BitVec.extractLsb'_append_eq_of_add_le, BitVec.extractLsb'_append_eq_of_le]
  simp only [Nat.reduceSub, extract_all, extract_append w (by rfl : 13 = 12 + 1),
    extract_append w (by rfl : 12 = 7 + 5), extract_append w (by rfl : 7 = 4 + 3),
    extract_append w (by rfl : 4 = 2 + 2), extract_append w (by rfl : 2 = 0 + 2)]

theorem encLdsp_self (w : BitVec 16) (h0 : w.extractLsb' 0 2 = 0b10#2) :
    encLdsp (w.extractLsb' 13 3) (w.extractLsb' 7 5) (cLdspImm w) = .half w := by
  unfold encLdsp cLdspImm
  rw [← h0]
  simp (disch := omega) only [BitVec.extractLsb'_append_eq_of_add_le, BitVec.extractLsb'_append_eq_of_le]
  simp only [Nat.reduceSub, extract_all, extract_append w (by rfl : 13 = 12 + 1),
    extract_append w (by rfl : 12 = 7 + 5), extract_append w (by rfl : 7 = 5 + 2),
    extract_append w (by rfl : 5 = 2 + 3), extract_append w (by rfl : 2 = 0 + 2)]

theorem encSwsp_self (w : BitVec 16) (h0 : w.extractLsb' 0 2 = 0b10#2) :
    encSwsp (w.extractLsb' 13 3) (w.extractLsb' 2 5) (cSwspImm w) = .half w := by
  unfold encSwsp cSwspImm
  rw [← h0]
  simp (disch := omega) only [BitVec.extractLsb'_append_eq_of_add_le, BitVec.extractLsb'_append_eq_of_le]
  simp only [Nat.reduceSub, extract_all, extract_append w (by rfl : 13 = 9 + 4),
    extract_append w (by rfl : 9 = 7 + 2), extract_append w (by rfl : 7 = 2 + 5),
    extract_append w (by rfl : 2 = 0 + 2)]

theorem encSdsp_self (w : BitVec 16) (h0 : w.extractLsb' 0 2 = 0b10#2) :
    encSdsp (w.extractLsb' 13 3) (w.extractLsb' 2 5) (cSdspImm w) = .half w := by
  unfold encSdsp cSdspImm
  rw [← h0]
  simp (disch := omega) only [BitVec.extractLsb'_append_eq_of_add_le, BitVec.extractLsb'_append_eq_of_le]
  simp only [Nat.reduceSub, extract_all, extract_append w (by rfl : 13 = 10 + 3),
    extract_append w (by rfl : 10 = 7 + 3), extract_append w (by rfl : 7 = 2 + 5),
    extract_append w (by rfl : 2 = 0 + 2)]

theorem encCIW_self (w : BitVec 16) (h0 : w.extractLsb' 13 3 = 0b000#3) (h1 : w.extractLsb' 0 2 = 0b00#2) :
    encCIW (w.extractLsb' 2 3) (cAddi4spnImm w) = .half w := by
  unfold encCIW cAddi4spnImm
  rw [← h0, ← h1]
  simp (disch := omega) only [BitVec.extractLsb'_append_eq_of_add_le, BitVec.extractLsb'_append_eq_of_le]
  simp only [Nat.reduceSub, extract_all, extract_append w (by rfl : 13 = 11 + 2),
    extract_append w (by rfl : 11 = 7 + 4), extract_append w (by rfl : 7 = 6 + 1),
    extract_append w (by rfl : 6 = 5 + 1), extract_append w (by rfl : 5 = 2 + 3),
    extract_append w (by rfl : 2 = 0 + 2)]

theorem encWordMem_self (w : BitVec 16) (h0 : w.extractLsb' 0 2 = 0b00#2) :
    encWordMem (w.extractLsb' 13 3) (w.extractLsb' 7 3) (w.extractLsb' 2 3) (cWordImm w) = .half w := by
  unfold encWordMem cWordImm
  rw [← h0]
  simp (disch := omega) only [BitVec.extractLsb'_append_eq_of_add_le, BitVec.extractLsb'_append_eq_of_le]
  simp only [Nat.reduceSub, extract_all, extract_append w (by rfl : 13 = 10 + 3),
    extract_append w (by rfl : 10 = 7 + 3), extract_append w (by rfl : 7 = 6 + 1),
    extract_append w (by rfl : 6 = 5 + 1), extract_append w (by rfl : 5 = 2 + 3),
    extract_append w (by rfl : 2 = 0 + 2)]

theorem encDoubleMem_self (w : BitVec 16) (h0 : w.extractLsb' 0 2 = 0b00#2) :
    encDoubleMem (w.extractLsb' 13 3) (w.extractLsb' 7 3) (w.extractLsb' 2 3) (cDoubleImm w) = .half w := by
  unfold encDoubleMem cDoubleImm
  rw [← h0]
  simp (disch := omega) only [BitVec.extractLsb'_append_eq_of_add_le, BitVec.extractLsb'_append_eq_of_le]
  simp only [Nat.reduceSub, extract_all, extract_append w (by rfl : 13 = 10 + 3),
    extract_append w (by rfl : 10 = 7 + 3), extract_append w (by rfl : 7 = 5 + 2),
    extract_append w (by rfl : 5 = 2 + 3), extract_append w (by rfl : 2 = 0 + 2)]

theorem encCA_self (w : BitVec 16) (h0 : w.extractLsb' 0 2 = 0b01#2) :
    encCA (w.extractLsb' 10 6) (w.extractLsb' 7 3) (w.extractLsb' 5 2) (w.extractLsb' 2 3) = .half w := by
  unfold encCA
  rw [← h0]
  simp only [extract_all, extract_append w (by rfl : 10 = 7 + 3),
    extract_append w (by rfl : 7 = 5 + 2), extract_append w (by rfl : 5 = 2 + 3),
    extract_append w (by rfl : 2 = 0 + 2)]

theorem encCBArith_self (w : BitVec 16) (h0 : w.extractLsb' 13 3 = 0b100#3) (h1 : w.extractLsb' 0 2 = 0b01#2) :
    encCBArith (w.extractLsb' 10 2) (w.extractLsb' 7 3) (cImm6 w) = .half w := by
  unfold encCBArith cImm6
  rw [← h0, ← h1]
  simp (disch := omega) only [BitVec.extractLsb'_append_eq_of_add_le, BitVec.extractLsb'_append_eq_of_le]
  simp only [Nat.reduceSub, extract_all, extract_append w (by rfl : 13 = 12 + 1),
    extract_append w (by rfl : 12 = 10 + 2), extract_append w (by rfl : 10 = 7 + 3),
    extract_append w (by rfl : 7 = 2 + 5), extract_append w (by rfl : 2 = 0 + 2)]

theorem encCBBranch_self (w : BitVec 16) (h0 : w.extractLsb' 0 2 = 0b01#2) :
    encCBBranch (w.extractLsb' 13 3) (w.extractLsb' 7 3) (cBranchOff w) = .half w := by
  unfold encCBBranch cBranchOff
  rw [← h0]
  simp (disch := omega) only [BitVec.extractLsb'_append_eq_of_add_le, BitVec.extractLsb'_append_eq_of_le]
  simp only [Nat.reduceSub, extract_all, extract_append w (by rfl : 13 = 12 + 1),
    extract_append w (by rfl : 12 = 10 + 2), extract_append w (by rfl : 10 = 7 + 3),
    extract_append w (by rfl : 7 = 5 + 2), extract_append w (by rfl : 5 = 3 + 2),
    extract_append w (by rfl : 3 = 2 + 1), extract_append w (by rfl : 2 = 0 + 2)]

theorem encCJ_self (w : BitVec 16) (h0 : w.extractLsb' 0 2 = 0b01#2) :
    encCJ (w.extractLsb' 13 3) (cJumpOff w) = .half w := by
  unfold encCJ cJumpOff
  rw [← h0]
  simp (disch := omega) only [BitVec.extractLsb'_append_eq_of_add_le, BitVec.extractLsb'_append_eq_of_le]
  simp only [Nat.reduceSub, extract_all, extract_append w (by rfl : 13 = 12 + 1),
    extract_append w (by rfl : 12 = 11 + 1), extract_append w (by rfl : 11 = 9 + 2),
    extract_append w (by rfl : 9 = 8 + 1), extract_append w (by rfl : 8 = 7 + 1),
    extract_append w (by rfl : 7 = 6 + 1), extract_append w (by rfl : 6 = 3 + 3),
    extract_append w (by rfl : 3 = 2 + 1), extract_append w (by rfl : 2 = 0 + 2)]

end Sys2Proof
end

