-- ==== Sys2Proof/Laws/Exec.lean ====
section
/-! SUPPORT. Everything an instruction can do when it goes on, by its kind (00_scope.md R9, 30_encoding.md R108). -/

namespace Sys2Proof.Machine

/-- What an instruction of each kind makes of the state when it raises nothing; `n` is its length in bytes. -/
def Effect (s t : State) (n : Nat) : Kind → Prop
  | .compute | .load => ∃ rd v, t = (s.writeX rd v).advance n
  | .floatLoad => ∃ rd v, t = (s.writeF rd v).advance n
  | .store => ∃ a k v u, memWrite s a k v = .ok u ∧ t = u.advance n
  | .atomic => ∃ a k v u rd w, memWrite s a k v = .ok u ∧ t = (u.writeX rd w).advance n
  | .csr => ∃ u rd v, CsrReach s u ∧ t = (u.writeX rd v).advance n
  | .branch => t = s.advance n ∨ ∃ target : Word, target.toNat % s.cfg.ialignBytes = 0 ∧ t = s.writePc target
  | .jump => s.cfg.ext.c = true ∧
      (t = s.advance n ∨ ∃ rd v target, (s.readPc.toNat % 2 = 0 → target.toNat % 2 = 0) ∧
        t = (s.writeX rd v).writePc target)
  | .environment => False

/-- Going on, by the instruction's own effect or by env's answer to the exception it raises. -/
def GoesOn (s t : State) (n : Nat) (k : Kind) : Prop := Effect s t n k ∨ ∃ e, raise s e = .next t

theorem goesOn_finish {s t : State} {rd : Reg} {v : Word} {n : Nat} {k : Kind} (hk : k = .compute ∨ k = .load)
    (h : finish s rd v n = .next t) : GoesOn s t n k := by
  cases h
  rcases hk with rfl | rfl <;> exact .inl ⟨rd, v, rfl⟩

theorem goesOn_orStop {α : Type} {s t : State} {r : Except Stop α} {f : α → Out} {n : Nat} {k : Kind}
    (hf : ∀ a, r = .ok a → f a = .next t → Effect s t n k) (h : orStop s r f = .next t) : GoesOn s t n k := by
  rcases of_orStop_next h with ⟨a, h1, h2⟩ | ⟨e, -, h2⟩
  · exact .inl (hf a h1 h2)
  · exact .inr ⟨e, h2⟩

theorem goesOn_loadWord {s t : State} {rd : Reg} {a : Word} (h : loadWord s rd a = .next t) : GoesOn s t 2 .load :=
  goesOn_orStop (fun _ _ hv => ⟨rd, _, (Host.Outcome.next.inj hv).symm⟩) h

theorem goesOn_loadDouble {s t : State} {rd : Reg} {a : Word} (h : loadDouble s rd a = .next t) : GoesOn s t 2 .load :=
  goesOn_orStop (fun _ _ hv => ⟨rd, _, (Host.Outcome.next.inj hv).symm⟩) h

theorem goesOn_loadFWord {s t : State} {rd : Reg} {a : Word} (h : loadFWord s rd a = .next t) :
    GoesOn s t 2 .floatLoad :=
  goesOn_orStop (fun _ _ hv => ⟨rd, _, (Host.Outcome.next.inj hv).symm⟩) h

theorem goesOn_loadFDouble {s t : State} {rd : Reg} {a : Word} (h : loadFDouble s rd a = .next t) :
    GoesOn s t 2 .floatLoad :=
  goesOn_orStop (fun _ _ hv => ⟨rd, _, (Host.Outcome.next.inj hv).symm⟩) h

theorem goesOn_store {s t : State} {a v : Word} {n : Nat} (h : storeBytes s a n v = .next t) : GoesOn s t 2 .store :=
  goesOn_orStop (fun u hu hv => ⟨a, n, v, u, hu, (Host.Outcome.next.inj hv).symm⟩) h

theorem of_amoUpdate_ok {s : State} {a : Word} {n : Nat} {new : Word → Word} {r : Word × State}
    (h : amoUpdate s a n new = .ok r) : memRead s .amo a n = .ok r.1 ∧ memWrite s a n (new r.1) = .ok r.2 := by
  unfold amoUpdate at h
  split at h
  · cases h
  · rename_i v hv
    split at h
    · cases h
    · rename_i u hu
      cases h
      exact ⟨hv, hu⟩

theorem goesOn_amo32 {s t : State} {rs2 rs1 rd : Reg} {op : (w : Nat) → BitVec w → BitVec w → BitVec w}
    (h : amo32 s rs2 rs1 rd op = .next t) : GoesOn s t 4 .atomic :=
  goesOn_orStop (fun r hr hv => ⟨_, _, _, r.2, rd, _, (of_amoUpdate_ok hr).2, (Host.Outcome.next.inj hv).symm⟩) h

theorem goesOn_amo64 {s t : State} {rs2 rs1 rd : Reg} {op : (w : Nat) → BitVec w → BitVec w → BitVec w}
    (h : amo64 s rs2 rs1 rd op = .next t) : GoesOn s t 4 .atomic :=
  goesOn_orStop (fun r hr hv => ⟨_, _, _, r.2, rd, _, (of_amoUpdate_ok hr).2, (Host.Outcome.next.inj hv).symm⟩) h

theorem goesOn_branch {s t : State} {rs1 rs2 : Reg} {off : BitVec 12} {cond : (w : Nat) → BitVec w → BitVec w → Bool}
    (h : branch s rs1 rs2 off cond = .next t) : GoesOn s t 4 .branch := by
  unfold branch at h
  split at h
  · unfold jumpChecked at h
    split at h
    · exact .inr ⟨_, h⟩
    · rename_i ha
      cases h
      exact .inl (.inr ⟨_, by omega, rfl⟩)
  · cases h
    exact .inl (.inl rfl)

theorem goesOn_csr {i : Instr} {s t : State} {rd : Reg} {a : BitVec 12} {doRead doWrite : Bool} {new : State → Word → Word}
    (h : csrInstr i s rd a doRead doWrite new = .next t) : GoesOn s t 4 .csr := by
  rcases of_csrInstr_next h with ⟨v, u, -, hu, e⟩ | e
  · exact .inl ⟨u, rd, v, hu, e⟩
  · exact .inr ⟨_, e⟩

/-- The six CSR instructions are one shape over their operands. -/
theorem exec_csrOperands {i : Instr} {s : State} {rd : Reg} {a : BitVec 12} {doRead doWrite : Bool} {new : State → Word → Word}
    (h : csrOperands i s = some (rd, a, doRead, doWrite, new)) :
    exec i s = csrInstr i s rd a doRead doWrite new := by
  cases i <;> simp only [csrOperands, Option.some.injEq, Prod.mk.injEq, reduceCtorEq] at h
  all_goals
    obtain ⟨rfl, rfl, rfl, rfl, rfl⟩ := h
    simp only [exec, execCsrrc, execCsrrci, execCsrrs, execCsrrsi, execCsrrw, execCsrrwi]
    congr 1
    rw [Bool.eq_iff_iff]
    simp

/-- Every instruction of kind csr has CSR operands. -/
theorem csrOperands_of_kind {i : Instr} (s : State) (h : Instr.kind i = .csr) :
    ∃ rd a doRead doWrite new, csrOperands i s = some (rd, a, doRead, doWrite, new) := by
  cases i <;> first | exact ⟨_, _, _, _, _, rfl⟩ | cases h

/-- A target at an even distance from an even pc is even. -/
theorem even_target {k : Nat} (s : State) (off : BitVec k) (h : s.readPc.toNat % 2 = 0) :
    (addX s.xl s.readPc (offset s.xl off)).toNat % 2 = 0 := by
  rw [addX_offset]
  have := xval_toNat s.xl (s.readPc.toNat + 2 * off.toInt)
  rcases XLen.bits_cases s.xl with hb | hb <;> rw [hb] at this <;> omega

theorem goesOn_cBranch {s t : State} {rs1 : CReg} {off : BitVec 8} {cond : (w : Nat) → BitVec w → BitVec w → Bool}
    (hc : s.cfg.ext.c = true) (h : cBranch s rs1 off cond = .next t) : GoesOn s t 2 .jump := by
  unfold cBranch at h
  split at h
  · cases h
    exact .inl ⟨hc, .inr ⟨0, 0, _, even_target s off, rfl⟩⟩
  · cases h
    exact .inl ⟨hc, .inl rfl⟩

theorem goesOn_shift {s t : State} {rd : Reg} {u : BitVec 6} {sh : XLen → Nat → Word → Word}
    (h : shiftBy s rd u sh = .next t) : GoesOn s t 2 .compute := by
  unfold shiftBy at h
  split at h
  · cases h
  · exact goesOn_finish (.inl rfl) h

theorem clearBit0_even (v : Word) : (clearBit0 v).toNat % 2 = 0 := by rw [clearBit0_toNat]; omega

/-- Everything an instruction can do when it goes on. -/
theorem of_exec_next (i : Instr) {s t : State} (h : exec i s = .next t) :
    GoesOn s t (encode i).ilen (Instr.kind i) := by
  cases i
  case add | addi | and | andi | auipc => exact goesOn_finish (.inl rfl) h
  case addiw | addw | div | divu | divuw | divw =>
    have h2 := (of_ifPresent_next (show ifPresent _ s _ = _ from h)).2
    exact goesOn_finish (.inl rfl) h2
  case amoaddD | amoandD | amomaxD | amomaxuD | amominD | amominuD | amoorD | amoswapD | amoxorD =>
    have h2 := (of_ifPresent_next (show ifPresent _ s _ = _ from h)).2
    exact goesOn_amo64 h2
  case amoaddW | amoandW | amomaxW | amomaxuW | amominW | amominuW | amoorW | amoswapW | amoxorW =>
    have h2 := (of_ifPresent_next (show ifPresent _ s _ = _ from h)).2
    exact goesOn_amo32 h2
  case beq | bge | bgeu | blt | bltu | bne =>
    simp only [exec, execBeq, execBge, execBgeu, execBlt, execBltu, execBne] at h
    exact goesOn_branch h
  case csrrc | csrrci | csrrs | csrrsi | csrrw | csrrwi =>
    simp only [exec, execCsrrc, execCsrrci, execCsrrs, execCsrrsi, execCsrrw, execCsrrwi] at h
    exact goesOn_csr h
  case ebreak | ecall => exact .inr ⟨_, h⟩
  case cEbreak => exact .inr ⟨_, (of_ifPresent_next h).2⟩
  case cFld | cFldsp =>
    have h2 := (of_ifPresent_next (show ifPresent _ s _ = _ from h)).2
    exact goesOn_loadFDouble h2
  case cFlw | cFlwsp =>
    have h2 := (of_ifPresent_next (show ifPresent _ s _ = _ from h)).2
    exact goesOn_loadFWord h2
  case cLd | cLdsp =>
    have h2 := (of_ifPresent_next (show ifPresent _ s _ = _ from h)).2
    exact goesOn_loadDouble h2
  case cLw | cLwsp =>
    have h2 := (of_ifPresent_next (show ifPresent _ s _ = _ from h)).2
    exact goesOn_loadWord h2
  case cFsd | cSw | cFsw | cSd | cFsdsp | cSwsp | cFswsp | cSdsp =>
    have h2 := (of_ifPresent_next (show ifPresent _ s _ = _ from h)).2
    exact goesOn_store h2
  case cAddi4spn | cAddi | cAddiw | cLi | cAddi16sp | cLui | cAndi | cSub | cXor | cOr | cAnd | cSubw | cAddw | cMv
    | cAdd =>
    have h2 := (of_ifPresent_next (show ifPresent _ s _ = _ from h)).2
    exact goesOn_finish (.inl rfl) h2
  case cSrli | cSrai | cSlli =>
    have h2 := (of_ifPresent_next (show ifPresent _ s _ = _ from h)).2
    exact goesOn_shift h2
  case cBeqz | cBnez =>
    obtain ⟨h1, h2⟩ := of_ifPresent_next (show ifPresent _ s _ = _ from h)
    exact goesOn_cBranch h1 h2
  case cJ =>
    obtain ⟨hc, h⟩ := of_ifPresent_next (show ifPresent _ s _ = _ from h)
    cases h
    exact .inl ⟨hc, .inr ⟨0, 0, _, even_target s _, rfl⟩⟩
  case cJr =>
    obtain ⟨hc, h⟩ := of_ifPresent_next (show ifPresent _ s _ = _ from h)
    cases h
    exact .inl ⟨hc, .inr ⟨0, 0, _, fun _ => clearBit0_even _, rfl⟩⟩
  case cJal =>
    obtain ⟨hc, h⟩ := of_ifPresent_next (show ifPresent _ s _ = _ from h)
    cases h
    exact .inl ⟨(Bool.and_eq_true _ _ ▸ hc).1, .inr ⟨1, _, _, even_target s _, rfl⟩⟩
  case cJalr =>
    obtain ⟨hc, h⟩ := of_ifPresent_next (show ifPresent _ s _ = _ from h)
    cases h
    exact .inl ⟨hc, .inr ⟨1, _, _, fun _ => clearBit0_even _, rfl⟩⟩

end Sys2Proof.Machine
end

