-- ==== Sys2Proof/Laws/Fetch.lean ====
section
/-! SUPPORT. Fetching an instruction word (20_memory.md R56, R57, R67). -/

namespace Sys2Proof.Machine

theorem peek_two (s : State) (a : Word) :
    (s.peek a 2).setWidth 16 = parcelOfBytes (s.byte (xval s.xl a.toNat).toNat) (s.byte (xval s.xl (a.toNat + 1)).toNat) := by
  have h : accessBytes s.xl a 2 = [(xval s.xl a.toNat).toNat, (xval s.xl (a.toNat + 1)).toNat] := by
    rw [accessBytes_eq _ _ (by omega)]
    simp [List.range_succ]
  apply BitVec.eq_of_toNat_eq
  rw [BitVec.toNat_setWidth, State.peek, leValue_toNat _ (by simp), h]
  simp only [List.map_cons, List.map_nil, littleEndian, parcelOfBytes, BitVec.toNat_append]
  have h0 := (s.byte (xval s.xl a.toNat).toNat).isLt
  have h1 := (s.byte (xval s.xl (a.toNat + 1)).toNat).isLt
  rw [Nat.shiftLeft_eq, Nat.mul_comm (BitVec.toNat _) (2 ^ 8), ← Nat.two_pow_add_eq_or_of_lt h0]
  omega

/-- A parcel that a fetch may read. -/
theorem fetchParcel_ok {s : State} {a : Word} (h0 : a.toNat % 2 = 0) (h1 : memAdmit s.cfg a 2 .fetch = true)
    (h2 : ∀ i : Nat, i < 2 → Config.inCode s.cfg (xval s.xl (a.toNat + i)).toNat = true) :
    fetchParcel s a = .ok ((s.peek a 2).setWidth 16) := by
  unfold fetchParcel
  rw [memRead_ok h0 h1]
  have : (accessBytes s.xl a 2).all (Config.inCode s.cfg) = true := by
    rw [List.all_eq_true]
    intro b hb
    obtain ⟨i, hi, rfl⟩ := (mem_accessBytes (by omega)).1 hb
    exact h2 i hi
  simp only [this, if_true]

/-- Everything a fetch of a parcel that answers can be. -/
theorem of_fetchParcel_ok {s : State} {a : Word} {p : BitVec 16} (h : fetchParcel s a = .ok p) :
    a.toNat % 2 = 0 ∧ memAdmit s.cfg a 2 .fetch = true ∧ (accessBytes s.xl a 2).all (Config.inCode s.cfg) = true ∧
      p = (s.peek a 2).setWidth 16 := by
  unfold fetchParcel at h
  split at h
  · cases h
  · rename_i v hv
    split at h
    · cases h
      obtain ⟨h0, h1, rfl⟩ := of_memRead_ok hv
      exact ⟨h0, h1, by assumption, rfl⟩
    · cases h

theorem secondParcel_eq (s : State) : secondParcel s = xval s.xl (s.readPc.toNat + 2) := by
  unfold secondParcel
  rw [addX_eq_xval]; rfl

/-- Everything a fetch that answers can be. -/
theorem of_fetch_ok {s : State} {w : InstrWord} (h : fetch s = .ok w) :
    s.readPc.toNat % s.cfg.ialignBytes = 0 ∧ ∃ lo, fetchParcel s s.readPc = .ok lo ∧
      ((isLong lo = false ∧ w = .half lo) ∨
        (isLong lo = true ∧ ∃ hi, fetchParcel s (secondParcel s) = .ok hi ∧ w = .full (hi ++ lo))) := by
  unfold fetch at h
  split at h
  · cases h
  · rename_i hp
    refine ⟨by omega, ?_⟩
    split at h
    · cases h
    · rename_i lo hlo
      refine ⟨lo, hlo, ?_⟩
      split at h
      · rename_i hl
        split at h
        · cases h
        · rename_i hi hhi
          cases h
          exact .inr ⟨hl, hi, hhi, rfl⟩
      · rename_i hl
        cases h
        exact .inl ⟨by simpa using hl, rfl⟩

/-- An address that is aligned for a fetch is even. -/
theorem even_of_ialign {s : State} {a : Nat} (h : a % s.cfg.ialignBytes = 0) : a % 2 = 0 := by
  unfold Config.ialignBytes at h
  split at h <;> omega

theorem ialignBytes_cases (c : Config) : c.ialignBytes = 2 ∨ c.ialignBytes = 4 := by
  unfold Config.ialignBytes; split <;> simp

/-- Going on by a distance that is aligned for a fetch keeps an address aligned, modulo 2^XLEN too. -/
theorem wrap_add_aligned {c : Config} {a n : Word} (ha : a.toNat % c.ialignBytes = 0) (hn : n.toNat % c.ialignBytes = 0) :
    (wrap c.xlen (a + n)).toNat % c.ialignBytes = 0 := by
  rw [wrap_toNat, BitVec.toNat_add]
  rcases XLen.bits_cases c.xlen with hb | hb <;> rcases ialignBytes_cases c with hc | hc <;> rw [hc] at ha hn ⊢ <;>
    rw [hb] <;> omega

/-- A fetch of a word that the bytes at pc hold, where the word's low bits tell its length. -/
theorem fetch_holds {s : State} {w : InstrWord} (h : HoldsAtPc s w) (hw : wordOfBytes (bytesOfWord w) = some w) :
    fetch s = .ok w := by
  obtain ⟨h1, h2, h3, h4⟩ := h
  have hev : s.readPc.toNat % 2 = 0 := even_of_ialign h1
  have a0 := h2 0 (by cases w <;> simp [InstrWord.ilen])
  simp at a0
  rw [xval_of_lt s.readPc_lt] at a0
  have i0 : ∀ i : Nat, i < 2 → Config.inCode s.cfg (xval s.xl (s.readPc.toNat + i)).toNat = true :=
    fun i hi => h3 i (by cases w <;> simp [InstrWord.ilen] <;> omega)
  unfold fetch
  rw [if_neg (by simpa using h1), fetchParcel_ok hev a0 i0, peek_two]
  cases w with
  | half w =>
    simp only [bytesOfWord, InstrWord.ilen, List.range, List.range.loop, List.map, List.cons.injEq] at h4
    obtain ⟨b0, b1, -⟩ := h4
    simp only [Nat.cast_zero, Nat.cast_one, add_zero] at b0 b1
    have e : parcelOfBytes (w.extractLsb' 0 8) (w.extractLsb' 8 8) = w :=
      (extract_append w (by rfl : 8 = 0 + 8)).trans (extract_all w)
    rw [b0, b1, e]
    simp only [bytesOfWord, wordOfBytes, e] at hw
    split at hw
    · cases hw
    · rename_i hl
      simp only [hl]
      rfl
  | full w =>
    have a1 := h2 1 (by simp [InstrWord.ilen])
    simp at a1
    have hx := xval_toNat s.xl (s.readPc.toNat + 2)
    have hx2 : (xval s.xl (s.readPc.toNat + 2)).toNat % 2 = 0 := by
      rcases XLen.bits_cases s.xl with hb | hb <;> rw [hb] at hx <;> omega
    have hadd : ∀ i : Nat, xval s.xl (((xval s.xl (s.readPc.toNat + 2)).toNat : Int) + i) =
        xval s.xl (s.readPc.toNat + (2 + i : Nat)) := by
      intro i
      rw [xval_xval_add]
      congr 1
      push_cast
      ring
    have i1 : ∀ i : Nat, i < 2 →
        Config.inCode s.cfg (xval s.xl ((xval s.xl (s.readPc.toNat + 2)).toNat + i)).toNat = true := by
      intro i hi
      rw [hadd]
      exact h3 (2 + i) (by simp [InstrWord.ilen]; omega)
    simp only [secondParcel_eq]
    rw [fetchParcel_ok hx2 a1 i1, peek_two]
    simp only [bytesOfWord, InstrWord.ilen, List.range, List.range.loop, List.map, List.cons.injEq] at h4
    obtain ⟨b0, b1, b2, b3, -⟩ := h4
    have e0 := hadd 0
    have e1 := hadd 1
    simp only [Nat.cast_zero, Nat.cast_one, add_zero, Nat.cast_ofNat, Nat.reduceAdd] at b0 b1 b2 b3 e0 e1
    rw [e0, e1, b0, b1, b2, b3]
    simp only [bytesOfWord, wordOfBytes] at hw
    split at hw
    · rename_i hl
      simp only [Option.some.injEq, InstrWord.full.injEq] at hw
      simp only [hl, if_true, hw]
    · cases hw

end Sys2Proof.Machine
end

