-- ==== Sys2Proof/Laws/Functions.lean ====
section
/-! SUPPORT. The evaluation of the parameters that are functions: the writes that updates make, one update at a time, and
the results of div_spec as integers (00_scope.md R5, 46_divide.md R260). -/

namespace Sys2Proof.Machine

@[simp] theorem fnWrites_nil (v : View) (args : List Word) : fnWrites v args [] = ⟨[], [], [], []⟩ := rfl

@[simp] theorem fnWrites_cons (v : View) (args : List Word) (u : Update) (us : List Update) :
    fnWrites v args (u :: us) = addWrite v args u (fnWrites v args us) := rfl

/-- A function whose updates give no byte a value reaches no program text. -/
theorem fnWrites_noMem (v : View) (args : List Word) (us : List Update)
    (h : ∀ u ∈ us, ∀ a, u.place ≠ .byte a) : (fnWrites v args us).mem = [] := by
  induction us with
  | nil => rfl
  | cons u us ih =>
    have hu := h u List.mem_cons_self
    have hs := ih fun d hd => h d (List.mem_cons_of_mem _ hd)
    rw [fnWrites_cons, addWrite]
    split
    · split
      · exact hs
      · exact hs
      · exact hs
      · rename_i a e; exact absurd e (hu a)
    · exact hs

/-- Writes that give no byte a value reach no program text. -/
theorem writesCode_noMem {c : Config} {w : Writes} (h : w.mem = []) : w.writesCode c = false := by
  unfold Writes.writesCode; rw [h]; rfl

/-- A result of div_spec is that integer modulo 2^n, whichever reading of the dividend is taken. -/
theorem divResult_eq {n : Nat} (a : BitVec n) (z : Int) (hz : z % 2 ^ n = a.toNat) (r : DivResult) :
    divResult n a r = BitVec.ofInt n (resultOf n z r) := by
  induction r with
  | number k => rfl
  | dividend =>
    apply BitVec.eq_of_toNat_eq
    have : (BitVec.ofInt n z).toNat = (z % 2 ^ n).toNat := by simp [BitVec.toNat_ofInt]
    rw [show divResult n a .dividend = a from rfl, show resultOf n z .dividend = z from rfl, this, hz]
    rfl
  | onDividend b k other ih =>
    unfold divResult resultOf
    rw [hz]
    by_cases h : a.toNat = b.toNat
    · rw [if_pos h, if_pos (by exact_mod_cast h)]
    · rw [if_neg h, if_neg (by exact_mod_cast h), ih]

end Sys2Proof.Machine
end

