-- ==== Sys2Proof/Laws/PerInstr.lean ====
section
/-! SUPPORT. Families of statements over every instruction, one lemma per constructor. EncodingLength: the bytes of an
instruction's encoding are read back as that word, whatever bytes follow them, so an encoding tells its own length
(20_memory.md R56, 30_encoding.md R80). -/

namespace Sys2Proof.Laws.EncodingLength

/-- The bytes of the encoding, with any bytes after them, hold that word. -/
def Statement (i : Instr) : Prop := ∀ rest, wordOfBytes (bytesOfWord (encode i) ++ rest) = some (encode i)

theorem parcel_low (w : BitVec 16) : parcelOfBytes (w.extractLsb' 0 8) (w.extractLsb' 8 8) = w := by
  unfold parcelOfBytes
  rw [extract_append w (by rfl : 8 = 0 + 8)]
  exact extract_all w

theorem parcel_full (w : BitVec 32) : parcelOfBytes (w.extractLsb' 16 8) (w.extractLsb' 24 8) ++
    parcelOfBytes (w.extractLsb' 0 8) (w.extractLsb' 8 8) = w := by
  unfold parcelOfBytes
  rw [extract_append w (by rfl : 8 = 0 + 8), extract_append w (by rfl : 24 = 16 + 8),
    extract_append w (by rfl : 16 = 0 + (8 + 8))]
  exact extract_all w

/-- A 32-bit word whose opcode ends in 11. -/
theorem of_full {w : BitVec 32} (h : w.extractLsb' 0 2 = 0b11#2) (rest : List Byte) :
    wordOfBytes (bytesOfWord (.full w) ++ rest) = some (.full w) := by
  have hl : isLong (parcelOfBytes (w.extractLsb' 0 8) (w.extractLsb' 8 8)) = true := by
    unfold isLong parcelOfBytes
    rw [extract_append w (by rfl : 8 = 0 + 8), BitVec.extractLsb'_extractLsb'_of_le (by omega), h]
    rfl
  simp only [bytesOfWord, List.cons_append, List.nil_append, wordOfBytes, hl, if_true, parcel_full]

/-- A 16-bit word whose quadrant is not 11. -/
theorem of_half {w : BitVec 16} (h : w.extractLsb' 0 2 ≠ 0b11#2) (rest : List Byte) :
    wordOfBytes (bytesOfWord (.half w) ++ rest) = some (.half w) := by
  have hl : isLong w = false := by
    unfold isLong
    simpa using h
  simp [bytesOfWord, wordOfBytes, hl, parcel_low]

/-- Bits 1:0 of a word are those of its opcode. -/
theorem low_of_opcode {w : BitVec 32} {op : BitVec 7} (h : w.extractLsb' 0 7 = op) (hop : op.extractLsb' 0 2 = 0b11#2) :
    w.extractLsb' 0 2 = 0b11#2 := by
  rw [← hop, ← h, BitVec.extractLsb'_extractLsb'_of_le (by omega)]

theorem of_encR {f7 : BitVec 7} {rs2 rs1 : Reg} {f3 : BitVec 3} {rd : Reg} {op : BitVec 7}
    (hop : op.extractLsb' 0 2 = 0b11#2) (rest : List Byte) :
    wordOfBytes (bytesOfWord (encR f7 rs2 rs1 f3 rd op) ++ rest) = some (encR f7 rs2 rs1 f3 rd op) := by
  obtain ⟨w, e, h, -⟩ := encR_fields f7 rs2 rs1 f3 rd op
  rw [e]; exact of_full (low_of_opcode h hop) rest

theorem of_encI {imm : BitVec 12} {rs1 : Reg} {f3 : BitVec 3} {rd : Reg} {op : BitVec 7}
    (hop : op.extractLsb' 0 2 = 0b11#2) (rest : List Byte) :
    wordOfBytes (bytesOfWord (encI imm rs1 f3 rd op) ++ rest) = some (encI imm rs1 f3 rd op) := by
  obtain ⟨w, e, h, -⟩ := encI_fields imm rs1 f3 rd op
  rw [e]; exact of_full (low_of_opcode h hop) rest

theorem of_encU {imm : BitVec 20} {rd : Reg} {op : BitVec 7} (hop : op.extractLsb' 0 2 = 0b11#2) (rest : List Byte) :
    wordOfBytes (bytesOfWord (.full (imm ++ rd ++ op)) ++ rest) = some (.full (imm ++ rd ++ op)) := by
  obtain ⟨w, e, h, -⟩ := encU_fields imm rd op
  rw [e]; exact of_full (low_of_opcode h hop) rest

theorem of_encAmo (f5 : BitVec 5) (aq rl : Bool) (rs2 rs1 : Reg) (f3 : BitVec 3) (rd : Reg) (rest : List Byte) :
    wordOfBytes (bytesOfWord (encAmo f5 aq rl rs2 rs1 f3 rd) ++ rest) = some (encAmo f5 aq rl rs2 rs1 f3 rd) := by
  obtain ⟨w, e, h, -⟩ := encAmo_fields f5 aq rl rs2 rs1 f3 rd
  rw [e]; exact of_full (low_of_opcode h rfl) rest

theorem of_encB (off : BitVec 12) (rs2 rs1 : Reg) (f3 : BitVec 3) (rest : List Byte) :
    wordOfBytes (bytesOfWord (encB off rs2 rs1 f3) ++ rest) = some (encB off rs2 rs1 f3) := by
  obtain ⟨w, e, h, -⟩ := encB_fields off rs2 rs1 f3
  rw [e]; exact of_full (low_of_opcode h rfl) rest

/-- A 16-bit encoding with a known quadrant. -/
theorem of_quadrant {i : InstrWord} {q : BitVec 2} (h : ∃ w, i = .half w ∧ w.extractLsb' 0 2 = q) (hq : q ≠ 0b11#2)
    (rest : List Byte) : wordOfBytes (bytesOfWord i ++ rest) = some i := by
  obtain ⟨w, rfl, rfl⟩ := h
  exact of_half hq rest

theorem quadrant {i : InstrWord} {q : BitVec 2} {P : BitVec 16 → Prop}
    (h : ∃ w, i = .half w ∧ w.extractLsb' 0 2 = q ∧ P w) : ∃ w, i = .half w ∧ w.extractLsb' 0 2 = q := by
  obtain ⟨w, e, h, -⟩ := h
  exact ⟨w, e, h⟩

theorem add (rd rs1 rs2 : Reg) : Statement (.add rd rs1 rs2) :=
  fun rest => of_encR rfl rest
theorem addi (rd rs1 : Reg) (imm : BitVec 12) : Statement (.addi rd rs1 imm) :=
  fun rest => of_encI rfl rest
theorem addiw (rd rs1 : Reg) (imm : BitVec 12) : Statement (.addiw rd rs1 imm) :=
  fun rest => of_encI rfl rest
theorem addw (rd rs1 rs2 : Reg) : Statement (.addw rd rs1 rs2) :=
  fun rest => of_encR rfl rest
theorem and (rd rs1 rs2 : Reg) : Statement (.and rd rs1 rs2) :=
  fun rest => of_encR rfl rest
theorem andi (rd rs1 : Reg) (imm : BitVec 12) : Statement (.andi rd rs1 imm) :=
  fun rest => of_encI rfl rest
theorem auipc (rd : Reg) (imm : BitVec 20) : Statement (.auipc rd imm) :=
  fun rest => of_encU rfl rest
theorem amoaddD (aq rl : Bool) (rs2 rs1 rd : Reg) : Statement (.amoaddD aq rl rs2 rs1 rd) :=
  fun rest => of_encAmo _ _ _ _ _ _ _ rest
theorem amoaddW (aq rl : Bool) (rs2 rs1 rd : Reg) : Statement (.amoaddW aq rl rs2 rs1 rd) :=
  fun rest => of_encAmo _ _ _ _ _ _ _ rest
theorem amoandD (aq rl : Bool) (rs2 rs1 rd : Reg) : Statement (.amoandD aq rl rs2 rs1 rd) :=
  fun rest => of_encAmo _ _ _ _ _ _ _ rest
theorem amoandW (aq rl : Bool) (rs2 rs1 rd : Reg) : Statement (.amoandW aq rl rs2 rs1 rd) :=
  fun rest => of_encAmo _ _ _ _ _ _ _ rest
theorem amomaxD (aq rl : Bool) (rs2 rs1 rd : Reg) : Statement (.amomaxD aq rl rs2 rs1 rd) :=
  fun rest => of_encAmo _ _ _ _ _ _ _ rest
theorem amomaxW (aq rl : Bool) (rs2 rs1 rd : Reg) : Statement (.amomaxW aq rl rs2 rs1 rd) :=
  fun rest => of_encAmo _ _ _ _ _ _ _ rest
theorem amomaxuD (aq rl : Bool) (rs2 rs1 rd : Reg) : Statement (.amomaxuD aq rl rs2 rs1 rd) :=
  fun rest => of_encAmo _ _ _ _ _ _ _ rest
theorem amomaxuW (aq rl : Bool) (rs2 rs1 rd : Reg) : Statement (.amomaxuW aq rl rs2 rs1 rd) :=
  fun rest => of_encAmo _ _ _ _ _ _ _ rest
theorem amominD (aq rl : Bool) (rs2 rs1 rd : Reg) : Statement (.amominD aq rl rs2 rs1 rd) :=
  fun rest => of_encAmo _ _ _ _ _ _ _ rest
theorem amominW (aq rl : Bool) (rs2 rs1 rd : Reg) : Statement (.amominW aq rl rs2 rs1 rd) :=
  fun rest => of_encAmo _ _ _ _ _ _ _ rest
theorem amominuD (aq rl : Bool) (rs2 rs1 rd : Reg) : Statement (.amominuD aq rl rs2 rs1 rd) :=
  fun rest => of_encAmo _ _ _ _ _ _ _ rest
theorem amominuW (aq rl : Bool) (rs2 rs1 rd : Reg) : Statement (.amominuW aq rl rs2 rs1 rd) :=
  fun rest => of_encAmo _ _ _ _ _ _ _ rest
theorem amoorD (aq rl : Bool) (rs2 rs1 rd : Reg) : Statement (.amoorD aq rl rs2 rs1 rd) :=
  fun rest => of_encAmo _ _ _ _ _ _ _ rest
theorem amoorW (aq rl : Bool) (rs2 rs1 rd : Reg) : Statement (.amoorW aq rl rs2 rs1 rd) :=
  fun rest => of_encAmo _ _ _ _ _ _ _ rest
theorem amoswapD (aq rl : Bool) (rs2 rs1 rd : Reg) : Statement (.amoswapD aq rl rs2 rs1 rd) :=
  fun rest => of_encAmo _ _ _ _ _ _ _ rest
theorem amoswapW (aq rl : Bool) (rs2 rs1 rd : Reg) : Statement (.amoswapW aq rl rs2 rs1 rd) :=
  fun rest => of_encAmo _ _ _ _ _ _ _ rest
theorem amoxorD (aq rl : Bool) (rs2 rs1 rd : Reg) : Statement (.amoxorD aq rl rs2 rs1 rd) :=
  fun rest => of_encAmo _ _ _ _ _ _ _ rest
theorem amoxorW (aq rl : Bool) (rs2 rs1 rd : Reg) : Statement (.amoxorW aq rl rs2 rs1 rd) :=
  fun rest => of_encAmo _ _ _ _ _ _ _ rest
theorem beq (rs1 rs2 : Reg) (off : BitVec 12) : Statement (.beq rs1 rs2 off) :=
  fun rest => of_encB _ _ _ _ rest
theorem bge (rs1 rs2 : Reg) (off : BitVec 12) : Statement (.bge rs1 rs2 off) :=
  fun rest => of_encB _ _ _ _ rest
theorem bgeu (rs1 rs2 : Reg) (off : BitVec 12) : Statement (.bgeu rs1 rs2 off) :=
  fun rest => of_encB _ _ _ _ rest
theorem blt (rs1 rs2 : Reg) (off : BitVec 12) : Statement (.blt rs1 rs2 off) :=
  fun rest => of_encB _ _ _ _ rest
theorem bltu (rs1 rs2 : Reg) (off : BitVec 12) : Statement (.bltu rs1 rs2 off) :=
  fun rest => of_encB _ _ _ _ rest
theorem bne (rs1 rs2 : Reg) (off : BitVec 12) : Statement (.bne rs1 rs2 off) :=
  fun rest => of_encB _ _ _ _ rest
theorem csrrc (rd : Reg) (csr : BitVec 12) (rs1 : Reg) : Statement (.csrrc rd csr rs1) :=
  fun rest => of_encI rfl rest
theorem csrrci (rd : Reg) (csr : BitVec 12) (zimm : BitVec 5) : Statement (.csrrci rd csr zimm) :=
  fun rest => of_encI rfl rest
theorem csrrs (rd : Reg) (csr : BitVec 12) (rs1 : Reg) : Statement (.csrrs rd csr rs1) :=
  fun rest => of_encI rfl rest
theorem csrrsi (rd : Reg) (csr : BitVec 12) (zimm : BitVec 5) : Statement (.csrrsi rd csr zimm) :=
  fun rest => of_encI rfl rest
theorem csrrw (rd : Reg) (csr : BitVec 12) (rs1 : Reg) : Statement (.csrrw rd csr rs1) :=
  fun rest => of_encI rfl rest
theorem csrrwi (rd : Reg) (csr : BitVec 12) (zimm : BitVec 5) : Statement (.csrrwi rd csr zimm) :=
  fun rest => of_encI rfl rest
theorem div (rd rs1 rs2 : Reg) : Statement (.div rd rs1 rs2) :=
  fun rest => of_encR rfl rest
theorem divu (rd rs1 rs2 : Reg) : Statement (.divu rd rs1 rs2) :=
  fun rest => of_encR rfl rest
theorem divuw (rd rs1 rs2 : Reg) : Statement (.divuw rd rs1 rs2) :=
  fun rest => of_encR rfl rest
theorem divw (rd rs1 rs2 : Reg) : Statement (.divw rd rs1 rs2) :=
  fun rest => of_encR rfl rest
theorem ebreak : Statement .ebreak :=
  fun rest => of_encI rfl rest
theorem ecall : Statement .ecall :=
  fun rest => of_encI rfl rest
theorem cAddi4spn (rd : CReg) (uimm : BitVec 8) : Statement (.cAddi4spn rd uimm) :=
  fun rest => of_quadrant (quadrant (encCIW_fields _ _)) (by decide) rest
theorem cFld (rd rs1 : CReg) (uimm : BitVec 5) : Statement (.cFld rd rs1 uimm) :=
  fun rest => of_quadrant (quadrant (encDoubleMem_fields _ _ _ _)) (by decide) rest
theorem cLw (rd rs1 : CReg) (uimm : BitVec 5) : Statement (.cLw rd rs1 uimm) :=
  fun rest => of_quadrant (quadrant (encWordMem_fields _ _ _ _)) (by decide) rest
theorem cFlw (rd rs1 : CReg) (uimm : BitVec 5) : Statement (.cFlw rd rs1 uimm) :=
  fun rest => of_quadrant (quadrant (encWordMem_fields _ _ _ _)) (by decide) rest
theorem cLd (rd rs1 : CReg) (uimm : BitVec 5) : Statement (.cLd rd rs1 uimm) :=
  fun rest => of_quadrant (quadrant (encDoubleMem_fields _ _ _ _)) (by decide) rest
theorem cFsd (rs2 rs1 : CReg) (uimm : BitVec 5) : Statement (.cFsd rs2 rs1 uimm) :=
  fun rest => of_quadrant (quadrant (encDoubleMem_fields _ _ _ _)) (by decide) rest
theorem cSw (rs2 rs1 : CReg) (uimm : BitVec 5) : Statement (.cSw rs2 rs1 uimm) :=
  fun rest => of_quadrant (quadrant (encWordMem_fields _ _ _ _)) (by decide) rest
theorem cFsw (rs2 rs1 : CReg) (uimm : BitVec 5) : Statement (.cFsw rs2 rs1 uimm) :=
  fun rest => of_quadrant (quadrant (encWordMem_fields _ _ _ _)) (by decide) rest
theorem cSd (rs2 rs1 : CReg) (uimm : BitVec 5) : Statement (.cSd rs2 rs1 uimm) :=
  fun rest => of_quadrant (quadrant (encDoubleMem_fields _ _ _ _)) (by decide) rest
theorem cAddi (rd : Reg) (imm : BitVec 6) : Statement (.cAddi rd imm) :=
  fun rest => of_quadrant (quadrant (encCI_fields _ _ _ _)) (by decide) rest
theorem cJal (off : BitVec 11) : Statement (.cJal off) :=
  fun rest => of_quadrant (quadrant (encCJ_fields _ _)) (by decide) rest
theorem cAddiw (rd : Reg) (imm : BitVec 6) : Statement (.cAddiw rd imm) :=
  fun rest => of_quadrant (quadrant (encCI_fields _ _ _ _)) (by decide) rest
theorem cLi (rd : Reg) (imm : BitVec 6) : Statement (.cLi rd imm) :=
  fun rest => of_quadrant (quadrant (encCI_fields _ _ _ _)) (by decide) rest
theorem cAddi16sp (imm : BitVec 6) : Statement (.cAddi16sp imm) :=
  fun rest => of_quadrant (quadrant (encAddi16sp_fields _)) (by decide) rest
theorem cLui (rd : Reg) (imm : BitVec 6) : Statement (.cLui rd imm) :=
  fun rest => of_quadrant (quadrant (encCI_fields _ _ _ _)) (by decide) rest
theorem cSrli (rd : CReg) (uimm : BitVec 6) : Statement (.cSrli rd uimm) :=
  fun rest => of_quadrant (quadrant (encCBArith_fields _ _ _)) (by decide) rest
theorem cSrai (rd : CReg) (uimm : BitVec 6) : Statement (.cSrai rd uimm) :=
  fun rest => of_quadrant (quadrant (encCBArith_fields _ _ _)) (by decide) rest
theorem cAndi (rd : CReg) (imm : BitVec 6) : Statement (.cAndi rd imm) :=
  fun rest => of_quadrant (quadrant (encCBArith_fields _ _ _)) (by decide) rest
theorem cSub (rd rs2 : CReg) : Statement (.cSub rd rs2) :=
  fun rest => of_quadrant (quadrant (encCA_fields _ _ _ _)) (by decide) rest
theorem cXor (rd rs2 : CReg) : Statement (.cXor rd rs2) :=
  fun rest => of_quadrant (quadrant (encCA_fields _ _ _ _)) (by decide) rest
theorem cOr (rd rs2 : CReg) : Statement (.cOr rd rs2) :=
  fun rest => of_quadrant (quadrant (encCA_fields _ _ _ _)) (by decide) rest
theorem cAnd (rd rs2 : CReg) : Statement (.cAnd rd rs2) :=
  fun rest => of_quadrant (quadrant (encCA_fields _ _ _ _)) (by decide) rest
theorem cSubw (rd rs2 : CReg) : Statement (.cSubw rd rs2) :=
  fun rest => of_quadrant (quadrant (encCA_fields _ _ _ _)) (by decide) rest
theorem cAddw (rd rs2 : CReg) : Statement (.cAddw rd rs2) :=
  fun rest => of_quadrant (quadrant (encCA_fields _ _ _ _)) (by decide) rest
theorem cJ (off : BitVec 11) : Statement (.cJ off) :=
  fun rest => of_quadrant (quadrant (encCJ_fields _ _)) (by decide) rest
theorem cBeqz (rs1 : CReg) (off : BitVec 8) : Statement (.cBeqz rs1 off) :=
  fun rest => of_quadrant (quadrant (encCBBranch_fields _ _ _)) (by decide) rest
theorem cBnez (rs1 : CReg) (off : BitVec 8) : Statement (.cBnez rs1 off) :=
  fun rest => of_quadrant (quadrant (encCBBranch_fields _ _ _)) (by decide) rest
theorem cSlli (rd : Reg) (uimm : BitVec 6) : Statement (.cSlli rd uimm) :=
  fun rest => of_quadrant (quadrant (encCI_fields _ _ _ _)) (by decide) rest
theorem cFldsp (rd : Reg) (uimm : BitVec 6) : Statement (.cFldsp rd uimm) :=
  fun rest => of_quadrant (quadrant (encLdsp_fields _ _ _)) (by decide) rest
theorem cLwsp (rd : Reg) (uimm : BitVec 6) : Statement (.cLwsp rd uimm) :=
  fun rest => of_quadrant (quadrant (encLwsp_fields _ _ _)) (by decide) rest
theorem cFlwsp (rd : Reg) (uimm : BitVec 6) : Statement (.cFlwsp rd uimm) :=
  fun rest => of_quadrant (quadrant (encLwsp_fields _ _ _)) (by decide) rest
theorem cLdsp (rd : Reg) (uimm : BitVec 6) : Statement (.cLdsp rd uimm) :=
  fun rest => of_quadrant (quadrant (encLdsp_fields _ _ _)) (by decide) rest
theorem cJr (rs1 : Reg) : Statement (.cJr rs1) :=
  fun rest => of_quadrant (quadrant (encCR_fields _ _ _)) (by decide) rest
theorem cMv (rd rs2 : Reg) : Statement (.cMv rd rs2) :=
  fun rest => of_quadrant (quadrant (encCR_fields _ _ _)) (by decide) rest
theorem cEbreak : Statement .cEbreak :=
  fun rest => of_quadrant (quadrant (encCR_fields _ _ _)) (by decide) rest
theorem cJalr (rs1 : Reg) : Statement (.cJalr rs1) :=
  fun rest => of_quadrant (quadrant (encCR_fields _ _ _)) (by decide) rest
theorem cAdd (rd rs2 : Reg) : Statement (.cAdd rd rs2) :=
  fun rest => of_quadrant (quadrant (encCR_fields _ _ _)) (by decide) rest
theorem cFsdsp (rs2 : Reg) (uimm : BitVec 6) : Statement (.cFsdsp rs2 uimm) :=
  fun rest => of_quadrant (quadrant (encSdsp_fields _ _ _)) (by decide) rest
theorem cSwsp (rs2 : Reg) (uimm : BitVec 6) : Statement (.cSwsp rs2 uimm) :=
  fun rest => of_quadrant (quadrant (encSwsp_fields _ _ _)) (by decide) rest
theorem cFswsp (rs2 : Reg) (uimm : BitVec 6) : Statement (.cFswsp rs2 uimm) :=
  fun rest => of_quadrant (quadrant (encSwsp_fields _ _ _)) (by decide) rest
theorem cSdsp (rs2 : Reg) (uimm : BitVec 6) : Statement (.cSdsp rs2 uimm) :=
  fun rest => of_quadrant (quadrant (encSdsp_fields _ _ _)) (by decide) rest

end Sys2Proof.Laws.EncodingLength
end

