-- ==== Sys2Proof/Tests/Slice0.lean ====
section
/-! SUPPORT. Tests: each check of WellFormed refuses an ill-formed term; each constructor is decoded from a word written
out from the encoding column of spec/opcode_table.json (30_encoding.md R100, R102); one step of each instruction with the
values of a vector of 95_test_vectors.md, named in the theorem; and a witness for the hypotheses of each obligation. -/

namespace Sys2Proof.Tests

open Sys2Proof.Machine

/-! ## WellFormed -/

theorem test_wf_cAddi4spn : Instr.wf (.cAddi4spn 1 0) = false := by decide
theorem test_wf_cAddiw : Instr.wf (.cAddiw 0 1) = false := by decide
theorem test_wf_cAddi16sp : Instr.wf (.cAddi16sp 0) = false := by decide
theorem test_wf_cLui_rd : Instr.wf (.cLui 2 1) = false := by decide
theorem test_wf_cLui_imm : Instr.wf (.cLui 1 0) = false := by decide
theorem test_wf_cLwsp : Instr.wf (.cLwsp 0 1) = false := by decide
theorem test_wf_cLdsp : Instr.wf (.cLdsp 0 1) = false := by decide
theorem test_wf_cJr : Instr.wf (.cJr 0) = false := by decide
theorem test_wf_cMv : Instr.wf (.cMv 1 0) = false := by decide
theorem test_wf_cJalr : Instr.wf (.cJalr 0) = false := by decide
theorem test_wf_cAdd_rd : Instr.wf (.cAdd 0 1) = false := by decide
theorem test_wf_cAdd_rs2 : Instr.wf (.cAdd 1 0) = false := by decide
theorem test_wf_cMv_x0 : Instr.wf (.cMv 0 1) = true := by decide

/-! ## Decoding -/

theorem test_decode_add :
    decode Config.atReset (.full 0b0000000_01011_10010_000_00101_0110011) =
      .instr (.add 5 18 11) := by decide

theorem test_decode_addi :
    decode Config.atReset (.full 0b101100100110_10010_000_00101_0010011) =
      .instr (.addi 5 18 0xB26) := by decide

theorem test_decode_addiw :
    decode Config.atReset (.full 0b101100100110_10010_000_00101_0011011) =
      .instr (.addiw 5 18 0xB26) := by decide

theorem test_decode_addw :
    decode Config.atReset (.full 0b0000000_01011_10010_000_00101_0111011) =
      .instr (.addw 5 18 11) := by decide

theorem test_decode_and :
    decode Config.atReset (.full 0b0000000_01011_10010_111_00101_0110011) =
      .instr (.and 5 18 11) := by decide

theorem test_decode_andi :
    decode Config.atReset (.full 0b101100100110_10010_111_00101_0010011) =
      .instr (.andi 5 18 0xB26) := by decide

theorem test_decode_auipc :
    decode Config.atReset (.full 0b10110010011010111001_00101_0010111) =
      .instr (.auipc 5 0xB26B9) := by decide

theorem test_decode_amoaddD :
    decode Config.atReset (.full 0b00000_1_0_01011_10010_011_00101_0101111) =
      .instr (.amoaddD true false 11 18 5) := by decide

theorem test_decode_amoaddW :
    decode Config.atReset (.full 0b00000_1_0_01011_10010_010_00101_0101111) =
      .instr (.amoaddW true false 11 18 5) := by decide

theorem test_decode_amoandD :
    decode Config.atReset (.full 0b01100_1_0_01011_10010_011_00101_0101111) =
      .instr (.amoandD true false 11 18 5) := by decide

theorem test_decode_amoandW :
    decode Config.atReset (.full 0b01100_1_0_01011_10010_010_00101_0101111) =
      .instr (.amoandW true false 11 18 5) := by decide

theorem test_decode_amomaxD :
    decode Config.atReset (.full 0b10100_1_0_01011_10010_011_00101_0101111) =
      .instr (.amomaxD true false 11 18 5) := by decide

theorem test_decode_amomaxW :
    decode Config.atReset (.full 0b10100_1_0_01011_10010_010_00101_0101111) =
      .instr (.amomaxW true false 11 18 5) := by decide

theorem test_decode_amomaxuD :
    decode Config.atReset (.full 0b11100_1_0_01011_10010_011_00101_0101111) =
      .instr (.amomaxuD true false 11 18 5) := by decide

theorem test_decode_amomaxuW :
    decode Config.atReset (.full 0b11100_1_0_01011_10010_010_00101_0101111) =
      .instr (.amomaxuW true false 11 18 5) := by decide

theorem test_decode_amominD :
    decode Config.atReset (.full 0b10000_1_0_01011_10010_011_00101_0101111) =
      .instr (.amominD true false 11 18 5) := by decide

theorem test_decode_amominW :
    decode Config.atReset (.full 0b10000_1_0_01011_10010_010_00101_0101111) =
      .instr (.amominW true false 11 18 5) := by decide

theorem test_decode_amominuD :
    decode Config.atReset (.full 0b11000_1_0_01011_10010_011_00101_0101111) =
      .instr (.amominuD true false 11 18 5) := by decide

theorem test_decode_amominuW :
    decode Config.atReset (.full 0b11000_1_0_01011_10010_010_00101_0101111) =
      .instr (.amominuW true false 11 18 5) := by decide

theorem test_decode_amoorD :
    decode Config.atReset (.full 0b01000_1_0_01011_10010_011_00101_0101111) =
      .instr (.amoorD true false 11 18 5) := by decide

theorem test_decode_amoorW :
    decode Config.atReset (.full 0b01000_1_0_01011_10010_010_00101_0101111) =
      .instr (.amoorW true false 11 18 5) := by decide

theorem test_decode_amoswapD :
    decode Config.atReset (.full 0b00001_1_0_01011_10010_011_00101_0101111) =
      .instr (.amoswapD true false 11 18 5) := by decide

theorem test_decode_amoswapW :
    decode Config.atReset (.full 0b00001_1_0_01011_10010_010_00101_0101111) =
      .instr (.amoswapW true false 11 18 5) := by decide

theorem test_decode_amoxorD :
    decode Config.atReset (.full 0b00100_1_0_01011_10010_011_00101_0101111) =
      .instr (.amoxorD true false 11 18 5) := by decide

theorem test_decode_amoxorW :
    decode Config.atReset (.full 0b00100_1_0_01011_10010_010_00101_0101111) =
      .instr (.amoxorW true false 11 18 5) := by decide

theorem test_decode_beq :
    decode Config.atReset (.full 0b1110010_01011_10010_000_01100_1100011) =
      .instr (.beq 18 11 0xB26) := by decide

theorem test_decode_bge :
    decode Config.atReset (.full 0b1110010_01011_10010_101_01100_1100011) =
      .instr (.bge 18 11 0xB26) := by decide

theorem test_decode_bgeu :
    decode Config.atReset (.full 0b1110010_01011_10010_111_01100_1100011) =
      .instr (.bgeu 18 11 0xB26) := by decide

theorem test_decode_blt :
    decode Config.atReset (.full 0b1110010_01011_10010_100_01100_1100011) =
      .instr (.blt 18 11 0xB26) := by decide

theorem test_decode_bltu :
    decode Config.atReset (.full 0b1110010_01011_10010_110_01100_1100011) =
      .instr (.bltu 18 11 0xB26) := by decide

theorem test_decode_bne :
    decode Config.atReset (.full 0b1110010_01011_10010_001_01100_1100011) =
      .instr (.bne 18 11 0xB26) := by decide

theorem test_decode_csrrc :
    decode Config.atReset (.full 0b101101000001_10010_011_00101_1110011) =
      .instr (.csrrc 5 0xB41 18) := by decide

theorem test_decode_csrrci :
    decode Config.atReset (.full 0b101101000001_10110_111_00101_1110011) =
      .instr (.csrrci 5 0xB41 22) := by decide

theorem test_decode_csrrs :
    decode Config.atReset (.full 0b101101000001_10010_010_00101_1110011) =
      .instr (.csrrs 5 0xB41 18) := by decide

theorem test_decode_csrrsi :
    decode Config.atReset (.full 0b101101000001_10110_110_00101_1110011) =
      .instr (.csrrsi 5 0xB41 22) := by decide

theorem test_decode_csrrw :
    decode Config.atReset (.full 0b101101000001_10010_001_00101_1110011) =
      .instr (.csrrw 5 0xB41 18) := by decide

theorem test_decode_csrrwi :
    decode Config.atReset (.full 0b101101000001_10110_101_00101_1110011) =
      .instr (.csrrwi 5 0xB41 22) := by decide

theorem test_decode_div :
    decode Config.atReset (.full 0b0000001_01011_10010_100_00101_0110011) =
      .instr (.div 5 18 11) := by decide

theorem test_decode_divu :
    decode Config.atReset (.full 0b0000001_01011_10010_101_00101_0110011) =
      .instr (.divu 5 18 11) := by decide

theorem test_decode_divuw :
    decode Config.atReset (.full 0b0000001_01011_10010_101_00101_0111011) =
      .instr (.divuw 5 18 11) := by decide

theorem test_decode_divw :
    decode Config.atReset (.full 0b0000001_01011_10010_100_00101_0111011) =
      .instr (.divw 5 18 11) := by decide

theorem test_decode_ebreak :
    decode Config.atReset (.full 0b000000000001_00000_000_00000_1110011) =
      .instr .ebreak := by decide

theorem test_decode_ecall :
    decode Config.atReset (.full 0b000000000000_00000_000_00000_1110011) =
      .instr .ecall := by decide

theorem test_decode_cAddi4spn :
    decode Config.atReset (.half 0b000_00101101_110_00) =
      .instr (.cAddi4spn 6 0xB2) := by decide

theorem test_decode_cFld :
    decode Config.atReset (.half 0b001_110_011_10_110_00) =
      .instr (.cFld 6 3 0x16) := by decide

theorem test_decode_cLw :
    decode Config.atReset (.half 0b010_011_011_01_110_00) =
      .instr (.cLw 6 3 0x16) := by decide

theorem test_decode_cFlw :
    decode Config.atReset32 (.half 0b011_011_011_01_110_00) =
      .instr (.cFlw 6 3 0x16) := by decide

theorem test_decode_cLd :
    decode Config.atReset (.half 0b011_110_011_10_110_00) =
      .instr (.cLd 6 3 0x16) := by decide

theorem test_decode_cFsd :
    decode Config.atReset (.half 0b101_110_011_10_101_00) =
      .instr (.cFsd 5 3 0x16) := by decide

theorem test_decode_cSw :
    decode Config.atReset (.half 0b110_011_011_01_101_00) =
      .instr (.cSw 5 3 0x16) := by decide

theorem test_decode_cFsw :
    decode Config.atReset32 (.half 0b111_011_011_01_101_00) =
      .instr (.cFsw 5 3 0x16) := by decide

theorem test_decode_cSd :
    decode Config.atReset (.half 0b111_110_011_10_101_00) =
      .instr (.cSd 5 3 0x16) := by decide

theorem test_decode_cAddi :
    decode Config.atReset (.half 0b000_1_00101_01100_01) =
      .instr (.cAddi 5 0x2C) := by decide

theorem test_decode_cJal :
    decode Config.atReset32 (.half 0b001_10110000111_01) =
      .instr (.cJal 0x593) := by decide

theorem test_decode_cAddiw :
    decode Config.atReset (.half 0b001_1_00101_01100_01) =
      .instr (.cAddiw 5 0x2C) := by decide

theorem test_decode_cLi :
    decode Config.atReset (.half 0b010_1_00101_01100_01) =
      .instr (.cLi 5 0x2C) := by decide

theorem test_decode_cAddi16sp :
    decode Config.atReset (.half 0b011_1_00010_01010_01) =
      .instr (.cAddi16sp 0x2C) := by decide

theorem test_decode_cLui :
    decode Config.atReset (.half 0b011_1_00101_01100_01) =
      .instr (.cLui 5 0x2C) := by decide

theorem test_decode_cSrli :
    decode Config.atReset (.half 0b100_1_00_110_01100_01) =
      .instr (.cSrli 6 0x2C) := by decide

theorem test_decode_cSrai :
    decode Config.atReset (.half 0b100_1_01_110_01100_01) =
      .instr (.cSrai 6 0x2C) := by decide

theorem test_decode_cAndi :
    decode Config.atReset (.half 0b100_1_10_110_01100_01) =
      .instr (.cAndi 6 0x2C) := by decide

theorem test_decode_cSub :
    decode Config.atReset (.half 0b100011_110_00_101_01) =
      .instr (.cSub 6 5) := by decide

theorem test_decode_cXor :
    decode Config.atReset (.half 0b100011_110_01_101_01) =
      .instr (.cXor 6 5) := by decide

theorem test_decode_cOr :
    decode Config.atReset (.half 0b100011_110_10_101_01) =
      .instr (.cOr 6 5) := by decide

theorem test_decode_cAnd :
    decode Config.atReset (.half 0b100011_110_11_101_01) =
      .instr (.cAnd 6 5) := by decide

theorem test_decode_cSubw :
    decode Config.atReset (.half 0b100111_110_00_101_01) =
      .instr (.cSubw 6 5) := by decide

theorem test_decode_cAddw :
    decode Config.atReset (.half 0b100111_110_01_101_01) =
      .instr (.cAddw 6 5) := by decide

theorem test_decode_cJ :
    decode Config.atReset (.half 0b101_10110000111_01) =
      .instr (.cJ 0x593) := by decide

theorem test_decode_cBeqz :
    decode Config.atReset (.half 0b110_100_011_01101_01) =
      .instr (.cBeqz 3 0xB2) := by decide

theorem test_decode_cBnez :
    decode Config.atReset (.half 0b111_100_011_01101_01) =
      .instr (.cBnez 3 0xB2) := by decide

theorem test_decode_cSlli :
    decode Config.atReset (.half 0b000_1_00101_01100_10) =
      .instr (.cSlli 5 0x2C) := by decide

theorem test_decode_cFldsp :
    decode Config.atReset (.half 0b001_1_00101_00101_10) =
      .instr (.cFldsp 5 0x2C) := by decide

theorem test_decode_cLwsp :
    decode Config.atReset (.half 0b010_1_00101_10010_10) =
      .instr (.cLwsp 5 0x2C) := by decide

theorem test_decode_cFlwsp :
    decode Config.atReset32 (.half 0b011_1_00101_10010_10) =
      .instr (.cFlwsp 5 0x2C) := by decide

theorem test_decode_cLdsp :
    decode Config.atReset (.half 0b011_1_00101_00101_10) =
      .instr (.cLdsp 5 0x2C) := by decide

theorem test_decode_cJr :
    decode Config.atReset (.half 0b100_0_10010_00000_10) =
      .instr (.cJr 18) := by decide

theorem test_decode_cMv :
    decode Config.atReset (.half 0b100_0_00101_01011_10) =
      .instr (.cMv 5 11) := by decide

theorem test_decode_cEbreak :
    decode Config.atReset (.half 0b100_1_00000_00000_10) =
      .instr .cEbreak := by decide

theorem test_decode_cJalr :
    decode Config.atReset (.half 0b100_1_10010_00000_10) =
      .instr (.cJalr 18) := by decide

theorem test_decode_cAdd :
    decode Config.atReset (.half 0b100_1_00101_01011_10) =
      .instr (.cAdd 5 11) := by decide

theorem test_decode_cFsdsp :
    decode Config.atReset (.half 0b101_100101_01011_10) =
      .instr (.cFsdsp 11 0x2C) := by decide

theorem test_decode_cSwsp :
    decode Config.atReset (.half 0b110_110010_01011_10) =
      .instr (.cSwsp 11 0x2C) := by decide

theorem test_decode_cFswsp :
    decode Config.atReset32 (.half 0b111_110010_01011_10) =
      .instr (.cFswsp 11 0x2C) := by decide

theorem test_decode_cSdsp :
    decode Config.atReset (.half 0b111_100101_01011_10) =
      .instr (.cSdsp 11 0x2C) := by decide

theorem test_decode_illegal : decode Config.atReset (.half 0x0000) = .illegal := by decide
theorem test_decode_no_entry : decode Config.atReset (.full 0x30200073) = .notInSpec := by decide
theorem test_decode_absent : decode Config.atReset32 (.full 0b0000000_01011_10010_000_00101_0111011) = .notInSpec := by
  decide
theorem test_decodeTableWord : decodeTableWord 32 0x002081B3 = some (.add 3 1 2) := by decide

/-! ## One step of each instruction -/

/-- EXT with nothing besides I. -/
def extI : Ext := ⟨false, false, false, false, false⟩

/-- EXT of A. -/
def extA : Ext := ⟨false, true, false, false, false⟩

/-- EXT of C. -/
def extC : Ext := ⟨false, false, false, false, true⟩

/-- EXT of M. -/
def extM : Ext := ⟨true, false, false, false, false⟩

/-- EXT of FC. -/
def extFC : Ext := ⟨false, false, true, false, true⟩

/-- EXT of FDC. -/
def extFDC : Ext := ⟨false, false, true, true, true⟩

/-- A machine that is about to run a word: the word is all the program text, the CSRs listed are all there are, every
access is admitted. -/
def machine (xl : XLen) (ext : Ext) (word : InstrWord) (xs : List (Reg × Word)) (fs : List (Reg × Word) := [])
    (cs : List (BitVec 12 × Word) := []) (ms : List (Word × Nat × Word) := []) (pc : Word := 0x1000)
    (writable : Bool := true) : State :=
  let bytes : List (Nat × Byte) := (accessBytes xl pc 4).zip (bytesOfWord word)
  let s : State := { State.reset with
    pc := pc
    cfg := { xlen := xl, ext := ext, resetPc := pc, memAdmit := admitAll, codeRegion := [⟨pc.toNat, word.ilen⟩],
             csrModel := cs.map fun e => ⟨e.1.toNat, e.1.toNat, .storage true writable (BitVec.allOnes 64)⟩
             env := [], divSpec := .standard } }
  let s := xs.foldl (fun t e => t.writeX e.1 e.2) (s.setBytes bytes)
  let s := fs.foldl (fun t e => t.writeF e.1 e.2) s
  let s := cs.foldl (fun t e => t.setCsr e.1 e.2) s
  ms.foldl (fun t e => t.poke e.1 e.2.1 e.2.2) s

/-- The outcome is a next state with a property. -/
def goes (o : Out) (p : State → Bool) : Bool :=
  match o with
  | .next t => p t
  | .fault _ => false
  | .refused _ => false

/-- The outcome is this trap. -/
def stops (o : Out) (e : Exception) : Bool :=
  match o with
  | .next _ => false
  | .fault f => f == .trap e
  | .refused _ => false

/-- The outcome is this refusal. -/
def refuses (o : Out) (r : Refusal) : Bool :=
  match o with
  | .next _ => false
  | .fault _ => false
  | .refused q => q == r

theorem test_add_VA1 :
    goes (step (machine .rv32 extI (.full 0x007302B3) [(6, 0x7FFFFFFF), (7, 0x1)]))
      (fun t => t.readX 5 = 0x80000000 ∧ t.readPc = 0x1004) = true := by decide

theorem test_add_VA4 :
    goes (step (machine .rv32 extI (.full 0x005282B3) [(5, 0x80000001)]))
      (fun t => t.readX 5 = 0x2 ∧ t.readPc = 0x1004) = true := by decide

theorem test_addi_VA5 :
    goes (step (machine .rv32 extI (.full 0xFFF30293) [(6, 0)]))
      (fun t => t.readX 5 = 0xFFFFFFFF ∧ t.readPc = 0x1004) = true := by decide

theorem test_addi_VA6 :
    goes (step (machine .rv64 extI (.full 0x80030293) [(6, 0x800)]))
      (fun t => t.readX 5 = 0 ∧ t.readPc = 0x1004) = true := by decide

theorem test_addiw_VA10 :
    goes (step (machine .rv64 extI (.full 0x0003029B) [(6, 0x1234567880000000)]))
      (fun t => t.readX 5 = 0xFFFFFFFF80000000 ∧ t.readPc = 0x1004) = true := by decide

theorem test_addw_VA13 :
    goes (step (machine .rv64 extI (.full 0x007302BB) [(6, 0x7FFFFFFF), (7, 0x7FFFFFFF)]))
      (fun t => t.readX 5 = 0xFFFFFFFFFFFFFFFE ∧ t.readPc = 0x1004) = true := by decide

theorem test_and_VA14 :
    goes (step (machine .rv32 extI (.full 0x007372B3) [(6, 0xF0F0A5A5), (7, 0xFF0FFFF)]))
      (fun t => t.readX 5 = 0xF0A5A5 ∧ t.readPc = 0x1004) = true := by decide

theorem test_andi_VA15 :
    goes (step (machine .rv32 extI (.full 0xFF037293) [(6, 0x12345678)]))
      (fun t => t.readX 5 = 0x12345670 ∧ t.readPc = 0x1004) = true := by decide

theorem test_auipc_VA18 :
    goes (step (machine .rv64 extI (.full 0x80000297) []))
      (fun t => t.readX 5 = 0xFFFFFFFF80001000 ∧ t.readPc = 0x1004) = true := by decide

theorem test_auipc_VA19 :
    goes (step (machine .rv32 extI (.full 0x80000297) [] (pc := 0x80001000)))
      (fun t => t.readX 5 = 0x1000 ∧ t.readPc = 0x80001004) = true := by decide

theorem test_amoaddW_VB2 :
    goes (step (machine .rv64 extA (.full 0x007322AF) [(6, 0x2000), (7, 0xABCDEF0000000001)] (ms := [(0x2000, 4, 0x7FFFFFFF), (0x2004, 4, 0x55555555)])))
      (fun t => t.readX 5 = 0x7FFFFFFF ∧ t.peek 0x2000 4 = 0x80000000 ∧ t.readPc = 0x1004) = true := by decide

theorem test_amoaddD_VB3 :
    goes (step (machine .rv64 extA (.full 0x007332AF) [(6, 0x2000), (7, 0x2)] (ms := [(0x2000, 8, 0xFFFFFFFFFFFFFFFF)])))
      (fun t => t.readX 5 = 0xFFFFFFFFFFFFFFFF ∧ t.peek 0x2000 8 = 0x1 ∧ t.readPc = 0x1004) = true := by decide

theorem test_amoandW_VB6 :
    goes (step (machine .rv32 extA (.full 0x607322AF) [(6, 0x2000), (7, 0xF0F0F0F)] (ms := [(0x2000, 4, 0x12345678)])))
      (fun t => t.readX 5 = 0x12345678 ∧ t.peek 0x2000 4 = 0x2040608 ∧ t.readPc = 0x1004) = true := by decide

theorem test_amoandD_VB7 :
    goes (step (machine .rv64 extA (.full 0x607332AF) [(6, 0x2000), (7, 0xFFFFFFFF00000000)] (ms := [(0x2000, 8, 0x123456789ABCDEF0)])))
      (fun t => t.readX 5 = 0x123456789ABCDEF0 ∧ t.peek 0x2000 8 = 0x1234567800000000 ∧ t.readPc = 0x1004) = true := by decide

theorem test_amoorW_VB8 :
    goes (step (machine .rv32 extA (.full 0x407322AF) [(6, 0x2000), (7, 0xF0F0F0F)] (ms := [(0x2000, 4, 0x12345678)])))
      (fun t => t.readX 5 = 0x12345678 ∧ t.peek 0x2000 4 = 0x1F3F5F7F ∧ t.readPc = 0x1004) = true := by decide

theorem test_amoorD_VB9 :
    goes (step (machine .rv64 extA (.full 0x407332AF) [(6, 0x2000), (7, 0x8000000000000000)] (ms := [(0x2000, 8, 0x1)])))
      (fun t => t.readX 5 = 0x1 ∧ t.peek 0x2000 8 = 0x8000000000000001 ∧ t.readPc = 0x1004) = true := by decide

theorem test_amoxorW_VB10 :
    goes (step (machine .rv32 extA (.full 0x207322AF) [(6, 0x2000), (7, 0xFFFFFFFF)] (ms := [(0x2000, 4, 0x12345678)])))
      (fun t => t.readX 5 = 0x12345678 ∧ t.peek 0x2000 4 = 0xEDCBA987 ∧ t.readPc = 0x1004) = true := by decide

theorem test_amoxorD_VB11 :
    goes (step (machine .rv64 extA (.full 0x207332AF) [(6, 0x2000), (7, 0xFFFFFFFFFFFFFFFF)] (ms := [(0x2000, 8, 0xFFFFFFFF)])))
      (fun t => t.readX 5 = 0xFFFFFFFF ∧ t.peek 0x2000 8 = 0xFFFFFFFF00000000 ∧ t.readPc = 0x1004) = true := by decide

theorem test_amoswapW_VB12 :
    goes (step (machine .rv32 extA (.full 0x087322AF) [(6, 0x2000), (7, 0xCAFEBABE)] (ms := [(0x2000, 4, 0x12345678)])))
      (fun t => t.readX 5 = 0x12345678 ∧ t.peek 0x2000 4 = 0xCAFEBABE ∧ t.readPc = 0x1004) = true := by decide

theorem test_amoswapD_VB13 :
    goes (step (machine .rv64 extA (.full 0x087332AF) [(6, 0x2000), (7, 0x1122334455667788)] (ms := [(0x2000, 8, 0x8877665544332211)])))
      (fun t => t.readX 5 = 0x8877665544332211 ∧ t.peek 0x2000 8 = 0x1122334455667788 ∧ t.readPc = 0x1004) = true := by decide

theorem test_amomaxW_VB14 :
    goes (step (machine .rv32 extA (.full 0xA07322AF) [(6, 0x2000), (7, 0x1)] (ms := [(0x2000, 4, 0xFFFFFFFF)])))
      (fun t => t.readX 5 = 0xFFFFFFFF ∧ t.peek 0x2000 4 = 0x1 ∧ t.readPc = 0x1004) = true := by decide

theorem test_amominW_VB16 :
    goes (step (machine .rv32 extA (.full 0x807322AF) [(6, 0x2000), (7, 0x1)] (ms := [(0x2000, 4, 0xFFFFFFFF)])))
      (fun t => t.readX 5 = 0xFFFFFFFF ∧ t.peek 0x2000 4 = 0xFFFFFFFF ∧ t.readPc = 0x1004) = true := by decide

theorem test_amominuW_VB17 :
    goes (step (machine .rv32 extA (.full 0xC07322AF) [(6, 0x2000), (7, 0x1)] (ms := [(0x2000, 4, 0xFFFFFFFF)])))
      (fun t => t.readX 5 = 0xFFFFFFFF ∧ t.peek 0x2000 4 = 0x1 ∧ t.readPc = 0x1004) = true := by decide

theorem test_amomaxD_VB18 :
    goes (step (machine .rv64 extA (.full 0xA07332AF) [(6, 0x2000), (7, 0x7FFFFFFFFFFFFFFF)] (ms := [(0x2000, 8, 0x8000000000000000)])))
      (fun t => t.readX 5 = 0x8000000000000000 ∧ t.peek 0x2000 8 = 0x7FFFFFFFFFFFFFFF ∧ t.readPc = 0x1004) = true := by decide

theorem test_amomaxuD_VB19 :
    goes (step (machine .rv64 extA (.full 0xE07332AF) [(6, 0x2000), (7, 0x7FFFFFFFFFFFFFFF)] (ms := [(0x2000, 8, 0x8000000000000000)])))
      (fun t => t.readX 5 = 0x8000000000000000 ∧ t.peek 0x2000 8 = 0x8000000000000000 ∧ t.readPc = 0x1004) = true := by decide

theorem test_amominD_VB20 :
    goes (step (machine .rv64 extA (.full 0x807332AF) [(6, 0x2000), (7, 0x7FFFFFFFFFFFFFFF)] (ms := [(0x2000, 8, 0x8000000000000000)])))
      (fun t => t.readX 5 = 0x8000000000000000 ∧ t.peek 0x2000 8 = 0x8000000000000000 ∧ t.readPc = 0x1004) = true := by decide

theorem test_amominuD_VB21 :
    goes (step (machine .rv64 extA (.full 0xC07332AF) [(6, 0x2000), (7, 0x7FFFFFFFFFFFFFFF)] (ms := [(0x2000, 8, 0x8000000000000000)])))
      (fun t => t.readX 5 = 0x8000000000000000 ∧ t.peek 0x2000 8 = 0x7FFFFFFFFFFFFFFF ∧ t.readPc = 0x1004) = true := by decide

theorem test_amomaxW_VB22 :
    goes (step (machine .rv64 extA (.full 0xA07322AF) [(6, 0x2000), (7, 0xFFFFFFFF00000005)] (ms := [(0x2000, 4, 0x3)])))
      (fun t => t.readX 5 = 0x3 ∧ t.peek 0x2000 4 = 0x5 ∧ t.readPc = 0x1004) = true := by decide

theorem test_amomaxuW_VB23 :
    goes (step (machine .rv64 extA (.full 0xE07322AF) [(6, 0x2000), (7, 0)] (ms := [(0x2000, 4, 0x80000000)])))
      (fun t => t.readX 5 = 0xFFFFFFFF80000000 ∧ t.peek 0x2000 4 = 0x80000000 ∧ t.readPc = 0x1004) = true := by decide

theorem test_amoaddW_VB25 :
    goes (step (machine .rv32 extA (.full 0x0073232F) [(6, 0x2000), (7, 0x1)] (ms := [(0x2000, 4, 0x10)])))
      (fun t => t.readX 6 = 0x10 ∧ t.peek 0x2000 4 = 0x11 ∧ t.readPc = 0x1004) = true := by decide

theorem test_amoaddD_VB29 :
    stops (step (machine .rv64 extA (.full 0x007332AF) [(6, 0x2004), (7, 0x1)])) (.storeAMOAddressMisaligned 0x2004) = true := by decide

theorem test_bne_VC3 :
    goes (step (machine .rv32 extI (.full 0xFE6298E3) [(5, 0x7), (6, 0x8)]))
      (fun t => t.readPc = 0xFF0) = true := by decide

theorem test_bne_VC4 :
    goes (step (machine .rv32 extI (.full 0xFE5298E3) [(5, 0x7)]))
      (fun t => t.readPc = 0x1004) = true := by decide

theorem test_bltu_VC6 :
    goes (step (machine .rv32 extI (.full 0x0062E463) [(5, 0xFFFFFFFF), (6, 0x1)]))
      (fun t => t.readPc = 0x1004) = true := by decide

theorem test_bge_VC7 :
    goes (step (machine .rv32 extI (.full 0x0062D463) [(5, 0xFFFFFFFF), (6, 0x1)]))
      (fun t => t.readPc = 0x1004) = true := by decide

theorem test_bgeu_VC8 :
    goes (step (machine .rv32 extI (.full 0x0062F463) [(5, 0xFFFFFFFF), (6, 0x1)]))
      (fun t => t.readPc = 0x1008) = true := by decide

theorem test_bge_VC9 :
    goes (step (machine .rv32 extI (.full 0x0062D463) [(5, 0x5), (6, 0x5)]))
      (fun t => t.readPc = 0x1008) = true := by decide

theorem test_blt_VC11 :
    goes (step (machine .rv64 extI (.full 0x0062C463) [(5, 0x80000000), (6, 0)]))
      (fun t => t.readPc = 0x1004) = true := by decide

theorem test_blt_VC12 :
    goes (step (machine .rv32 extI (.full 0x0062C463) [(5, 0x80000000), (6, 0)]))
      (fun t => t.readPc = 0x1008) = true := by decide

theorem test_beq_VC13 :
    stops (step (machine .rv32 extI (.full 0x7E000FE3) [])) (.instructionAddressMisaligned 0x1FFE) = true := by decide

theorem test_beq_VC14 :
    goes (step (machine .rv32 extC (.full 0x7E000FE3) []))
      (fun t => t.readPc = 0x1FFE) = true := by decide

theorem test_cAdd_VD1 :
    goes (step (machine .rv32 extC (.half 0x952E) [(10, 0xFFFFFFFF), (11, 0x2)]))
      (fun t => t.readX 10 = 0x1 ∧ t.readPc = 0x1002) = true := by decide

theorem test_cMv_VD2 :
    goes (step (machine .rv32 extC (.half 0x852E) [(10, 0x1), (11, 0x1234)]))
      (fun t => t.readX 10 = 0x1234 ∧ t.readPc = 0x1002) = true := by decide

theorem test_cAddi_VD4 :
    goes (step (machine .rv32 extC (.half 0x1501) [(10, 0x10)]))
      (fun t => t.readX 10 = 0xFFFFFFF0 ∧ t.readPc = 0x1002) = true := by decide

theorem test_cAddi16sp_VD7 :
    goes (step (machine .rv32 extC (.half 0x7101) [(2, 0x2000)]))
      (fun t => t.readX 2 = 0x1E00 ∧ t.readPc = 0x1002) = true := by decide

theorem test_cAddi4spn_VD10 :
    goes (step (machine .rv32 extC (.half 0x1FFC) [(2, 0x2000)]))
      (fun t => t.readX 15 = 0x23FC ∧ t.readPc = 0x1002) = true := by decide

theorem test_cAddiw_VD12 :
    goes (step (machine .rv64 extC (.half 0x2501) [(10, 0x1FFFFFFFF)]))
      (fun t => t.readX 10 = 0xFFFFFFFFFFFFFFFF ∧ t.readPc = 0x1002) = true := by decide

theorem test_cAddw_VD13 :
    goes (step (machine .rv64 extC (.half 0x9C25) [(8, 0x7FFFFFFF), (9, 0x1)]))
      (fun t => t.readX 8 = 0xFFFFFFFF80000000 ∧ t.readPc = 0x1002) = true := by decide

theorem test_cSubw_VD14 :
    goes (step (machine .rv64 extC (.half 0x9C05) [(8, 0), (9, 0x1)]))
      (fun t => t.readX 8 = 0xFFFFFFFFFFFFFFFF ∧ t.readPc = 0x1002) = true := by decide

theorem test_cSub_VD16 :
    goes (step (machine .rv32 extC (.half 0x8C05) [(8, 0), (9, 0x1)]))
      (fun t => t.readX 8 = 0xFFFFFFFF ∧ t.readPc = 0x1002) = true := by decide

theorem test_cAnd_VD18 :
    goes (step (machine .rv32 extC (.half 0x8C65) [(8, 0xFF00FF00), (9, 0xFF00FF0)]))
      (fun t => t.readX 8 = 0xF000F00 ∧ t.readPc = 0x1002) = true := by decide

theorem test_cOr_VD19 :
    goes (step (machine .rv32 extC (.half 0x8C45) [(8, 0xFF00FF00), (9, 0xFF00FF0)]))
      (fun t => t.readX 8 = 0xFFF0FFF0 ∧ t.readPc = 0x1002) = true := by decide

theorem test_cXor_VD20 :
    goes (step (machine .rv32 extC (.half 0x8C25) [(8, 0xFF00FF00), (9, 0xFF00FF0)]))
      (fun t => t.readX 8 = 0xF0F0F0F0 ∧ t.readPc = 0x1002) = true := by decide

theorem test_cAndi_VD21 :
    goes (step (machine .rv32 extC (.half 0x9841) [(8, 0x12345678)]))
      (fun t => t.readX 8 = 0x12345670 ∧ t.readPc = 0x1002) = true := by decide

theorem test_cLi_VD23 :
    goes (step (machine .rv32 extC (.half 0x5501) []))
      (fun t => t.readX 10 = 0xFFFFFFE0 ∧ t.readPc = 0x1002) = true := by decide

theorem test_cLui_VD27 :
    goes (step (machine .rv64 extC (.half 0x7501) []))
      (fun t => t.readX 10 = 0xFFFFFFFFFFFE0000 ∧ t.readPc = 0x1002) = true := by decide

theorem test_cSlli_VD29 :
    goes (step (machine .rv64 extC (.half 0x157E) [(10, 0x3)]))
      (fun t => t.readX 10 = 0x8000000000000000 ∧ t.readPc = 0x1002) = true := by decide

theorem test_cSlli_VD30 :
    refuses (step (machine .rv32 extC (.half 0x1502) [(10, 0x3)])) .shiftAmountTooWide = true := by decide

theorem test_cSrai_VD34 :
    goes (step (machine .rv64 extC (.half 0x947D) [(8, 0x8000000000000000)]))
      (fun t => t.readX 8 = 0xFFFFFFFFFFFFFFFF ∧ t.readPc = 0x1002) = true := by decide

theorem test_cSrli_VD35 :
    goes (step (machine .rv64 extC (.half 0x9001) [(8, 0xFFFFFFFF00000000)]))
      (fun t => t.readX 8 = 0xFFFFFFFF ∧ t.readPc = 0x1002) = true := by decide

theorem test_cBeqz_VE1 :
    goes (step (machine .rv32 extC (.half 0xC409) [(8, 0)]))
      (fun t => t.readPc = 0x100A) = true := by decide

theorem test_cBnez_VE3 :
    goes (step (machine .rv32 extC (.half 0xF381) [(15, 0x1)]))
      (fun t => t.readPc = 0xF00) = true := by decide

theorem test_cJ_VE5 :
    goes (step (machine .rv32 extC (.half 0xB001) []))
      (fun t => t.readPc = 0x800) = true := by decide

theorem test_cJal_VE8 :
    goes (step (machine .rv32 extC (.half 0x2FFD) [(1, 0)]))
      (fun t => t.readX 1 = 0x1002 ∧ t.readPc = 0x17FE) = true := by decide

theorem test_cJr_VE11 :
    goes (step (machine .rv32 extC (.half 0x8282) [(5, 0x2469)]))
      (fun t => t.readPc = 0x2468) = true := by decide

theorem test_cJalr_VE13 :
    goes (step (machine .rv32 extC (.half 0x9082) [(1, 0x2468)]))
      (fun t => t.readX 1 = 0x1002 ∧ t.readPc = 0x2468) = true := by decide

theorem test_cEbreak_VE14 :
    stops (step (machine .rv32 extC (.half 0x9002) [])) (.breakpoint 0x1000) = true := by decide

theorem test_cLw_VF2 :
    goes (step (machine .rv64 extC (.half 0x5C64) [(8, 0x2000)] (ms := [(0x207C, 4, 0x80000001)])))
      (fun t => t.readX 9 = 0xFFFFFFFF80000001 ∧ t.readPc = 0x1002) = true := by decide

theorem test_cLw_VF3 :
    stops (step (machine .rv32 extC (.half 0x4004) [(8, 0x2002)])) (.loadAddressMisaligned 0x2002) = true := by decide

theorem test_cLwsp_VF6 :
    goes (step (machine .rv32 extC (.half 0x557E) [(2, 0x2000)] (ms := [(0x20FC, 4, 0x7FFFFFFF)])))
      (fun t => t.readX 10 = 0x7FFFFFFF ∧ t.readPc = 0x1002) = true := by decide

theorem test_cLd_VF7 :
    goes (step (machine .rv64 extC (.half 0x7C64) [(8, 0x2000)] (ms := [(0x20F8, 8, 0x123456789ABCDEF)])))
      (fun t => t.readX 9 = 0x123456789ABCDEF ∧ t.readPc = 0x1002) = true := by decide

theorem test_cLd_VF8 :
    stops (step (machine .rv64 extC (.half 0x6004) [(8, 0x2004)])) (.loadAddressMisaligned 0x2004) = true := by decide

theorem test_cLdsp_VF9 :
    goes (step (machine .rv64 extC (.half 0x757E) [(2, 0x2000)] (ms := [(0x21F8, 8, 0xFFFFFFFFFFFFFFFF)])))
      (fun t => t.readX 10 = 0xFFFFFFFFFFFFFFFF ∧ t.readPc = 0x1002) = true := by decide

theorem test_cSw_VF11 :
    goes (step (machine .rv64 extC (.half 0xC004) [(8, 0x2000), (9, 0xAABBCCDD11223344)]))
      (fun t => t.peek 0x2000 4 = 0x11223344 ∧ t.readPc = 0x1002) = true := by decide

theorem test_cSwsp_VF12 :
    goes (step (machine .rv32 extC (.half 0xDFAA) [(2, 0x2000), (10, 0xDEADBEEF)]))
      (fun t => t.peek 0x20FC 4 = 0xDEADBEEF ∧ t.readPc = 0x1002) = true := by decide

theorem test_cSd_VF14 :
    goes (step (machine .rv64 extC (.half 0xE404) [(8, 0x2000), (9, 0x123456789ABCDEF)]))
      (fun t => t.peek 0x2008 8 = 0x123456789ABCDEF ∧ t.readPc = 0x1002) = true := by decide

theorem test_cSdsp_VF15 :
    goes (step (machine .rv64 extC (.half 0xFFAA) [(2, 0x2000), (10, 0x123456789ABCDEF)]))
      (fun t => t.peek 0x21F8 8 = 0x123456789ABCDEF ∧ t.readPc = 0x1002) = true := by decide

theorem test_cSw_VF18 :
    refuses (step (machine .rv32 extC (.half 0xC004) [(8, 0x1000), (9, 0x1)])) .storeToCode = true := by decide

theorem test_cFlw_VF20 :
    goes (step (machine .rv32 extFDC (.half 0x6044) [(8, 0x2000)] (ms := [(0x2004, 4, 0xBF800000)])))
      (fun t => t.readF 9 = 0xFFFFFFFFBF800000 ∧ t.readPc = 0x1002) = true := by decide

theorem test_cFlwsp_VF22 :
    goes (step (machine .rv32 extFC (.half 0x6522) [(2, 0x2000)] (ms := [(0x2008, 4, 0x40490FDB)])))
      (fun t => t.readF 10 = 0x40490FDB ∧ t.readPc = 0x1002) = true := by decide

theorem test_cFld_VF23 :
    goes (step (machine .rv32 extFDC (.half 0x2404) [(8, 0x2000)] (ms := [(0x2008, 8, 0xC000000000000000)])))
      (fun t => t.readF 9 = 0xC000000000000000 ∧ t.readPc = 0x1002) = true := by decide

theorem test_cFldsp_VF24 :
    goes (step (machine .rv64 extFDC (.half 0x357E) [(2, 0x2000)] (ms := [(0x21F8, 8, 0x400921FB54442D18)])))
      (fun t => t.readF 10 = 0x400921FB54442D18 ∧ t.readPc = 0x1002) = true := by decide

theorem test_cFsw_VF26 :
    goes (step (machine .rv32 extFDC (.half 0xE044) [(8, 0x2000)] (fs := [(9, 0x123456783F800000)])))
      (fun t => t.peek 0x2004 4 = 0x3F800000 ∧ t.readPc = 0x1002) = true := by decide

theorem test_cFswsp_VF27 :
    goes (step (machine .rv32 extFC (.half 0xFFAA) [(2, 0x2000)] (fs := [(10, 0x7FC00000)])))
      (fun t => t.peek 0x20FC 4 = 0x7FC00000 ∧ t.readPc = 0x1002) = true := by decide

theorem test_cFsd_VF28 :
    goes (step (machine .rv64 extFDC (.half 0xA404) [(8, 0x2000)] (fs := [(9, 0x400921FB54442D18)])))
      (fun t => t.peek 0x2008 8 = 0x400921FB54442D18 ∧ t.readPc = 0x1002) = true := by decide

theorem test_cFsdsp_VF29 :
    goes (step (machine .rv32 extFDC (.half 0xBFAA) [(2, 0x2000)] (fs := [(10, 0xFFFFFFFF3F800000)])))
      (fun t => t.peek 0x21F8 8 = 0xFFFFFFFF3F800000 ∧ t.readPc = 0x1002) = true := by decide

theorem test_cFsd_VF32 :
    stops (step (machine .rv32 extFDC (.half 0xA004) [(8, 0x2004)] (fs := [(9, 0x1)]))) (.storeAMOAddressMisaligned 0x2004) = true := by decide

theorem test_csrrw_VG1 :
    goes (step (machine .rv32 extI (.full 0x340312F3) [(6, 0x12345678)] (cs := [(0x340, 0xAAAA5555)])))
      (fun t => t.readX 5 = 0xAAAA5555 ∧ t.csr 0x340 = 0x12345678 ∧ t.readPc = 0x1004) = true := by decide

theorem test_csrrs_VG4 :
    goes (step (machine .rv32 extI (.full 0x340322F3) [(6, 0xFF00)] (cs := [(0x340, 0xAAAA5555)])))
      (fun t => t.readX 5 = 0xAAAA5555 ∧ t.csr 0x340 = 0xAAAAFF55 ∧ t.readPc = 0x1004) = true := by decide

theorem test_csrrs_VG6 :
    stops (step (machine .rv32 extI (.full 0xC00322F3) [(6, 0)] (cs := [(0xC00, 0x1234)]) (writable := false))) (.illegalInstruction 0xC00322F3) = true := by decide

theorem test_csrrc_VG8 :
    goes (step (machine .rv32 extI (.full 0x340332F3) [(6, 0xFF00)] (cs := [(0x340, 0xAAAA5555)])))
      (fun t => t.readX 5 = 0xAAAA5555 ∧ t.csr 0x340 = 0xAAAA0055 ∧ t.readPc = 0x1004) = true := by decide

theorem test_csrrwi_VG11 :
    goes (step (machine .rv32 extI (.full 0x340FD2F3) [] (cs := [(0x340, 0xAAAA5555)])))
      (fun t => t.readX 5 = 0xAAAA5555 ∧ t.csr 0x340 = 0x1F ∧ t.readPc = 0x1004) = true := by decide

theorem test_csrrsi_VG13 :
    goes (step (machine .rv32 extI (.full 0x340562F3) [] (cs := [(0x340, 0xAAAA5555)])))
      (fun t => t.readX 5 = 0xAAAA5555 ∧ t.csr 0x340 = 0xAAAA555F ∧ t.readPc = 0x1004) = true := by decide

theorem test_csrrci_VG15 :
    goes (step (machine .rv32 extI (.full 0x340AF2F3) [] (cs := [(0x340, 0xAAAA5555)])))
      (fun t => t.readX 5 = 0xAAAA5555 ∧ t.csr 0x340 = 0xAAAA5540 ∧ t.readPc = 0x1004) = true := by decide

theorem test_csrrwi_VG19 :
    stops (step (machine .rv32 extI (.full 0xC000D2F3) [] (cs := [(0xC00, 0x7)]) (writable := false))) (.illegalInstruction 0xC000D2F3) = true := by decide

theorem test_div_VH2 :
    goes (step (machine .rv32 extM (.full 0x027342B3) [(6, 0x14), (7, 0xFFFFFFFD)]))
      (fun t => t.readX 5 = 0xFFFFFFFA ∧ t.readPc = 0x1004) = true := by decide

theorem test_div_VH5 :
    goes (step (machine .rv32 extM (.full 0x027342B3) [(6, 0x80000000), (7, 0xFFFFFFFF)]))
      (fun t => t.readX 5 = 0x80000000 ∧ t.readPc = 0x1004) = true := by decide

theorem test_divu_VH8 :
    goes (step (machine .rv32 extM (.full 0x027352B3) [(6, 0xFFFFFFEC), (7, 0x3)]))
      (fun t => t.readX 5 = 0x5555554E ∧ t.readPc = 0x1004) = true := by decide

theorem test_divu_VH9 :
    goes (step (machine .rv32 extM (.full 0x027352B3) [(6, 0x14), (7, 0)]))
      (fun t => t.readX 5 = 0xFFFFFFFF ∧ t.readPc = 0x1004) = true := by decide

theorem test_divw_VH12 :
    goes (step (machine .rv64 extM (.full 0x027342BB) [(6, 0x80000000), (7, 0xFFFFFFFF)]))
      (fun t => t.readX 5 = 0xFFFFFFFF80000000 ∧ t.readPc = 0x1004) = true := by decide

theorem test_divw_VH13 :
    goes (step (machine .rv64 extM (.full 0x027342BB) [(6, 0x7), (7, 0x100000000)]))
      (fun t => t.readX 5 = 0xFFFFFFFFFFFFFFFF ∧ t.readPc = 0x1004) = true := by decide

theorem test_divuw_VH15 :
    goes (step (machine .rv64 extM (.full 0x027352BB) [(6, 0xFFFFFFFF), (7, 0x1)]))
      (fun t => t.readX 5 = 0xFFFFFFFFFFFFFFFF ∧ t.readPc = 0x1004) = true := by decide

theorem test_divuw_VH16 :
    goes (step (machine .rv64 extM (.full 0x027352BB) [(6, 0x5), (7, 0)]))
      (fun t => t.readX 5 = 0xFFFFFFFFFFFFFFFF ∧ t.readPc = 0x1004) = true := by decide

theorem test_ebreak_VI1 :
    stops (step (machine .rv32 extI (.full 0x00100073) [])) (.breakpoint 0x1000) = true := by decide

theorem test_ecall_VI2 :
    stops (step (machine .rv64 extI (.full 0x00000073) [(17, 0x5D), (10, 0)])) (.environmentCall) = true := by decide

/-! ## The environment -/

/-- An env (60_exceptions.md R283) that answers every ecall with x10 = x11 + 1 and pc + 4, and stops at anything else. -/
def serviceEnv : List EnvRule :=
  [⟨.op .eq (.arg 0) (.const 8),
    .goOn (.op .add .pc (.const 4)) [⟨.const 1, .x 10, .op .add (.x 11) (.const 1)⟩]⟩]

/-- An env that goes on after every exception, past a 4-byte instruction. -/
def resumeEnv : List EnvRule := [⟨.const 1, .goOn (.op .add .pc (.const 4)) []⟩]

/-- An env whose answer writes program text. -/
def textEnv : List EnvRule := [⟨.const 1, .goOn .pc [⟨.const 1, .byte (.const 0x1003), .const 1⟩]⟩]

theorem test_ecall_continues :
    goes (step ((machine .rv64 extI (.full 0x00000073) [(11, 0x29)]).withEnv serviceEnv))
      (fun t => t.readX 10 = 0x2A ∧ t.readX 11 = 0x29 ∧ t.readPc = 0x1004) = true := by decide

theorem test_ebreak_stops :
    stops (step ((machine .rv64 extI (.full 0x00100073) []).withEnv serviceEnv)) (.breakpoint 0x1000) = true := by decide

/-- log 12: an answer that writes program text is refused. -/
theorem test_ecall_text :
    refuses (step ((machine .rv64 extI (.full 0x00000073) []).withEnv textEnv)) .storeToCode = true := by decide

/-! ## CSRs with functions of their own (10_state.md R30), another div_spec (46_divide.md R260) -/

/-- A CSR that reads as x31 plus the accesses so far, clears x31 when read, and keeps twice the value written, with a copy
in memory; it may be written while x30 is not zero. -/
def csrFns : CsrFns :=
  { mayRead := .const 1
    mayWrite := .x 30
    read := .op .add (.x 31) .tick
    readEffect := [⟨.const 1, .x 31, .const 0⟩]
    write := [⟨.const 1, .csr (.arg 0), .op .add (.arg 1) (.arg 1)⟩, ⟨.const 1, .byte (.const 0x8000), .arg 1⟩] }

/-- A machine with that CSR at 0x340. -/
def fnMachine (word : InstrWord) (xs : List (Reg × Word)) : State :=
  let s := machine .rv64 extI word xs
  { s with cfg := { s.cfg with csrModel := [⟨0x340, 0x340, .functions csrFns⟩] } }

/-- `csrrw x5, 0x340, x6`. -/
theorem test_csr_functions :
    goes (step (fnMachine (.full 0x340312F3) [(6, 0x21), (30, 1), (31, 7)]))
      (fun t => t.readX 5 = 7 ∧ t.readX 31 = 0 ∧ t.csr 0x340 = 0x42 ∧ t.byte 0x8000 = 0x21 ∧ t.readPc = 0x1004 ∧
        t.tick = 2) = true := by decide

/-- `csrrc x5, 0x340, x31`, whose read clears x31: x[rs1] stands after CsrRead in R245 and sees that (00_scope.md R8). -/
theorem test_csrrc_operand :
    goes (step (fnMachine (.full 0x340FB2F3) [(30, 1), (31, 7)]))
      (fun t => t.readX 5 = 7 ∧ t.readX 31 = 0 ∧ t.csr 0x340 = 0x0E ∧ t.byte 0x8000 = 7) = true := by decide

theorem test_csr_functions_denied :
    stops (step (fnMachine (.full 0x340312F3) [(6, 0x21), (31, 7)])) (.illegalInstruction 0x340312F3) = true := by decide

/-- A div_spec with other results, the remainder of which is R260's. -/
def otherDivSpec : DivSpec := { DivSpec.standard with wide := ⟨.onDividend 5 9 (.number 0), .dividend, .number 3⟩ }

/-- `divu x5, x6, x7` with a zero divisor. -/
theorem test_divu_other_spec :
    let s := machine .rv64 extM (.full 0x027352B3) [(6, 5)]
    goes (step { s with cfg := { s.cfg with divSpec := otherDivSpec } }) (fun t => t.readX 5 = 9) = true := by decide

/-! ## Pseudo-instructions whose expansions the spec does not hold -/

/-- 45_call_and_csr.md R240: a target below pc, with offset[11] = 1. -/
theorem test_call :
    goes (execPseudo (.call 1 0x0F00) (machine .rv64 extI (.full 0x00000013) []))
      (fun t => t.readX 1 = 0x1008 ∧ t.readPc = 0x0F00) = true := by decide

/-- 48_fp_pseudo.md R276: at FLEN = 64 a value that is not boxed reads as the canonical NaN. -/
theorem test_fabs_s_unboxed :
    goes (execPseudo (.fabsS 1 2) (machine .rv64 extFDC (.full 0x00000013) [] (fs := [(2, 0x00000000BF800000)])))
      (fun t => t.readF 1 = 0xFFFFFFFF7FC00000) = true := by decide

/-- 48_fp_pseudo.md R275. -/
theorem test_fabs_d :
    goes (execPseudo (.fabsD 1 2) (machine .rv64 extFDC (.full 0x00000013) [] (fs := [(2, 0x8000000000000000)])))
      (fun t => t.readF 1 = 0) = true := by decide

/-! ## Witnesses: a concrete state and operands that meet the hypotheses of each obligation -/

/-- All extensions, `add x3, x1, x2` at pc, the address 0x8000 in x2, x6, x8, two CSRs. -/
def wit (xl : XLen) : State :=
  machine xl Ext.all (.full 0x002081B3) [(2, 0x8000), (6, 0x8000), (8, 0x8000)] (cs := [(0x000, 1), (0xFFF, 2)])

/-- The same with other windows of admission. -/
def witAdmit (xl : XLen) (ws : List AdmitWindow) : State := { wit xl with cfg := { (wit xl).cfg with memAdmit := ws } }

theorem witness_DecodeOfEncode :
    Instr.wf (.cAdd 31 31) = true ∧ Instr.present Config.atReset (.cAdd 31 31) = true := by decide

theorem witness_EncodeOfDecode : decode Config.atReset (.half 0x952E) = .instr (.cAdd 10 11) := by decide

theorem witness_StepRunsDecoded :
    HoldsAtPc (wit .rv64) (.full 0x002081B3) ∧ decode (wit .rv64).cfg (.full 0x002081B3) = .instr (.add 3 1 2) := by
  decide

theorem witness_StepRunsDecoded_half :
    HoldsAtPc (machine .rv32 extC (.half 0x952E) []) (.half 0x952E) ∧
      decode (machine .rv32 extC (.half 0x952E) []).cfg (.half 0x952E) = .instr (.cAdd 10 11) := by decide

theorem witness_StepOnOtherWords_illegal :
    HoldsAtPc (machine .rv32 extC (.half 0x0000) []) (.half 0x0000) ∧
      wordOfBytes (bytesOfWord (.half 0x0000)) = some (.half 0x0000) ∧
      decode (machine .rv32 extC (.half 0x0000) []).cfg (.half 0x0000) = .illegal := by decide

theorem witness_StepOnOtherWords_notInSpec :
    HoldsAtPc (machine .rv32 extI (.full 0x30200073) []) (.full 0x30200073) ∧
      wordOfBytes (bytesOfWord (.full 0x30200073)) = some (.full 0x30200073) ∧
      decode (machine .rv32 extI (.full 0x30200073) []).cfg (.full 0x30200073) = .notInSpec := by decide

theorem witness_FetchChecks_misaligned :
    let s := { wit .rv64 with pc := 0x1001 }
    s.readPc.toNat % s.cfg.ialignBytes ≠ 0 := by decide

theorem witness_FetchChecks_first :
    let s := witAdmit .rv64 []
    s.readPc.toNat % s.cfg.ialignBytes = 0 ∧ memAdmit s.cfg s.readPc 2 .fetch = false := by decide

theorem witness_FetchChecks_outside :
    let s := { wit .rv64 with pc := 0x1004 }
    s.readPc.toNat % s.cfg.ialignBytes = 0 ∧ memAdmit s.cfg s.readPc 2 .fetch = true ∧ ¬ InsideText s s.readPc 2 := by
  decide

theorem witness_FetchChecks_second :
    let s := witAdmit .rv64 [⟨[.fetch], [2], 0x1000, 0x1000⟩]
    s.readPc.toNat % s.cfg.ialignBytes = 0 ∧ memAdmit s.cfg s.readPc 2 .fetch = true ∧ InsideText s s.readPc 2 ∧
      valueAt s s.readPc 2 % 4 = 3 ∧ memAdmit s.cfg (seqPc s 2) 2 .fetch = false := by decide

theorem witness_FetchChecks_second_outside :
    let s := { wit .rv64 with cfg := { (wit .rv64).cfg with codeRegion := [⟨0x1000, 2⟩] } }
    s.readPc.toNat % s.cfg.ialignBytes = 0 ∧ memAdmit s.cfg s.readPc 2 .fetch = true ∧ InsideText s s.readPc 2 ∧
      valueAt s s.readPc 2 % 4 = 3 ∧ memAdmit s.cfg (seqPc s 2) 2 .fetch = true ∧ ¬ InsideText s (seqPc s 2) 2 := by
  decide

theorem witness_AbsentInstructionsRefused : Instr.present (wit .rv32).cfg (.addw 1 2 3) = false := by decide

theorem witness_AddwAndAddiw : (wit .rv64).cfg.xlen = .rv64 ∧ (wit .rv32).cfg.xlen = .rv32 := by decide

theorem witness_AmoWord :
    (wit .rv32).cfg.ext.a = true ∧ Memory.wf (wit .rv32).mem = true ∧ AmoOk (wit .rv32) ((wit .rv32).readX 6) 4 := by
  decide

theorem witness_AmoDouble :
    (wit .rv64).cfg.ext.a = true ∧ (wit .rv64).cfg.xlen = .rv64 ∧ Memory.wf (wit .rv64).mem = true ∧
      AmoOk (wit .rv64) ((wit .rv64).readX 6) 8 := by decide

theorem witness_AmoTraps_misaligned :
    let s := (wit .rv64).writeX 6 0x8004
    s.cfg.ext.a = true ∧ s.cfg.xlen = .rv64 ∧ (s.readX 6).toNat % 8 ≠ 0 := by decide

theorem witness_AmoTraps_amo :
    let s := witAdmit .rv64 [⟨[.store], [4], 0, 0xFFFF⟩]
    s.cfg.ext.a = true ∧ (s.readX 6).toNat % 4 = 0 ∧ memAdmit s.cfg (s.readX 6) 4 .amo = false := by decide

theorem witness_AmoTraps_store :
    let s := witAdmit .rv64 [⟨[.amo], [4], 0, 0xFFFF⟩]
    s.cfg.ext.a = true ∧ (s.readX 6).toNat % 4 = 0 ∧ memAdmit s.cfg (s.readX 6) 4 .store = false := by decide

theorem witness_AmoTraps_text :
    let s := (wit .rv64).writeX 6 0x1000
    s.cfg.ext.a = true ∧ (s.readX 6).toNat % 4 = 0 ∧ memAdmit s.cfg (s.readX 6) 4 .amo = true ∧
      memAdmit s.cfg (s.readX 6) 4 .store = true ∧ ¬ OutsideText s (s.readX 6) 4 := by decide

theorem witness_AqRlNoEffect : (wit .rv64).cfg.ext.a = true ∧ (wit .rv64).cfg.xlen = .rv64 := by decide

/-- The least offset. -/
theorem witness_Branches_taken :
    let s := wit .rv32
    BranchOp.eq.holds s.xl (s.readX 0) (s.readX 0) ∧
      (relPc s (2 * (0x800 : BitVec 12).toInt)).toNat % s.cfg.ialignBytes = 0 := by decide

/-- The greatest offset without C (vector VC13). -/
theorem witness_Branches_misaligned :
    let s := machine .rv32 extI (.full 0x7E000FE3) []
    BranchOp.eq.holds s.xl (s.readX 0) (s.readX 0) ∧
      (relPc s (2 * (0x7FF : BitVec 12).toInt)).toNat % s.cfg.ialignBytes ≠ 0 := by decide

theorem witness_Branches_not_taken : ¬ BranchOp.ne.holds .rv32 ((wit .rv32).readX 6) ((wit .rv32).readX 6) := by decide

theorem witness_Branches_even : (wit .rv64).cfg.ext.c = true ∧ (wit .rv64).readPc.toNat % 2 = 0 := by decide

theorem witness_CompressedAdds : (wit .rv32).cfg.ext.c = true ∧ (31 : Reg) ≠ 0 ∧ (1 : Reg) ≠ 0 := by decide

theorem witness_CompressedWordAdds : (wit .rv64).cfg.ext.c = true ∧ (wit .rv64).cfg.xlen = .rv64 := by decide

theorem witness_CompressedLogicAndSub : (wit .rv32).cfg.ext.c = true := by decide

theorem witness_CompressedMoves : (wit .rv32).cfg.ext.c = true := by decide

theorem witness_CompressedShifts :
    (wit .rv64).cfg.ext.c = true ∧ (63 : BitVec 6).toNat < (wit .rv64).xl.bits ∧
      (wit .rv32).cfg.ext.c = true ∧ (31 : BitVec 6).toNat < (wit .rv32).xl.bits := by decide

theorem witness_WideShiftsRefused :
    (wit .rv32).cfg.ext.c = true ∧ (wit .rv32).cfg.xlen = .rv32 ∧ 32 ≤ (32 : BitVec 6).toNat := by decide

theorem witness_CompressedJumps : (wit .rv32).cfg.ext.c = true ∧ (wit .rv32).cfg.xlen = .rv32 := by decide

theorem witness_CompressedRegisterJumps : (wit .rv32).cfg.ext.c = true := by decide

theorem witness_CompressedBranches :
    (wit .rv32).cfg.ext.c = true ∧ (wit .rv32).readX (creg 1) = 0 ∧ (wit .rv32).readX (creg 0) ≠ 0 := by decide

/-- Each of the four loads at its greatest uimm. -/
theorem witness_CompressedLoads :
    let s := wit .rv64
    s.cfg.ext.c = true ∧ s.cfg.xlen = .rv64 ∧
      LoadOk s (xval s.xl ((s.readX (creg 0)).toNat + 4 * (31 : BitVec 5).toNat)) 4 ∧
      LoadOk s (xval s.xl ((s.readX 2).toNat + 4 * (63 : BitVec 6).toNat)) 4 ∧
      LoadOk s (xval s.xl ((s.readX (creg 0)).toNat + 8 * (31 : BitVec 5).toNat)) 8 ∧
      LoadOk s (xval s.xl ((s.readX 2).toNat + 8 * (63 : BitVec 6).toNat)) 8 := by decide

theorem witness_CompressedFloatLoads :
    let s := wit .rv32
    s.cfg.ext.c = true ∧ s.cfg.ext.d = true ∧ s.cfg.ext.f = true ∧ s.cfg.xlen = .rv32 ∧
      LoadOk s (xval s.xl ((s.readX (creg 0)).toNat + 8 * (31 : BitVec 5).toNat)) 8 ∧
      LoadOk s (xval s.xl ((s.readX 2).toNat + 8 * (63 : BitVec 6).toNat)) 8 ∧
      LoadOk s (xval s.xl ((s.readX (creg 0)).toNat + 4 * (31 : BitVec 5).toNat)) 4 ∧
      LoadOk s (xval s.xl ((s.readX 2).toNat + 4 * (63 : BitVec 6).toNat)) 4 := by decide

theorem witness_CompressedStores :
    let s := wit .rv64
    s.cfg.ext.c = true ∧ Memory.wf s.mem = true ∧ s.cfg.xlen = .rv64 ∧
      StoreOk s (xval s.xl ((s.readX (creg 0)).toNat + 4 * (31 : BitVec 5).toNat)) 4 ∧
      StoreOk s (xval s.xl ((s.readX 2).toNat + 4 * (63 : BitVec 6).toNat)) 4 ∧
      StoreOk s (xval s.xl ((s.readX (creg 0)).toNat + 8 * (31 : BitVec 5).toNat)) 8 ∧
      StoreOk s (xval s.xl ((s.readX 2).toNat + 8 * (63 : BitVec 6).toNat)) 8 := by decide

theorem witness_CompressedFloatStores :
    let s := wit .rv32
    s.cfg.ext.c = true ∧ Memory.wf s.mem = true ∧ s.cfg.ext.d = true ∧ s.cfg.ext.f = true ∧ s.cfg.xlen = .rv32 ∧
      StoreOk s (xval s.xl ((s.readX (creg 0)).toNat + 8 * (31 : BitVec 5).toNat)) 8 ∧
      StoreOk s (xval s.xl ((s.readX 2).toNat + 8 * (63 : BitVec 6).toNat)) 8 ∧
      StoreOk s (xval s.xl ((s.readX (creg 0)).toNat + 4 * (31 : BitVec 5).toNat)) 4 ∧
      StoreOk s (xval s.xl ((s.readX 2).toNat + 4 * (63 : BitVec 6).toNat)) 4 := by decide

theorem witness_LoadAndStoreTraps_misaligned :
    let s := (wit .rv64).writeX 8 0x8004
    Instr.present s.cfg (.cLd 1 0 0) = true ∧ memOperand (.cLd 1 0 0) s = some (0x8004, 8) ∧
      Instr.kind (.cLd 1 0 0) = .load ∧ (0x8004 : Word).toNat % 8 ≠ 0 ∧
      Instr.present s.cfg (.cSd 1 0 0) = true ∧ memOperand (.cSd 1 0 0) s = some (0x8004, 8) ∧
      Instr.kind (.cSd 1 0 0) = .store := by decide

theorem witness_LoadAndStoreTraps_fault :
    let s := witAdmit .rv32 []
    Instr.present s.cfg (.cFld 1 0 0) = true ∧ memOperand (.cFld 1 0 0) s = some (0x8000, 8) ∧
      Instr.kind (.cFld 1 0 0) = .floatLoad ∧ (0x8000 : Word).toNat % 8 = 0 ∧
      memAdmit s.cfg 0x8000 8 .load = false ∧ Instr.present s.cfg (.cFsd 1 0 0) = true ∧
      memOperand (.cFsd 1 0 0) s = some (0x8000, 8) ∧ Instr.kind (.cFsd 1 0 0) = .store ∧
      memAdmit s.cfg 0x8000 8 .store = false := by decide

theorem witness_LoadAndStoreTraps_text :
    let s := (wit .rv32).writeX 8 0x1000
    Instr.present s.cfg (.cSw 1 0 0) = true ∧ memOperand (.cSw 1 0 0) s = some (0x1000, 4) ∧
      Instr.kind (.cSw 1 0 0) = .store ∧ (0x1000 : Word).toNat % 4 = 0 ∧ memAdmit s.cfg 0x1000 4 .store = true ∧
      ¬ OutsideText s 0x1000 4 := by decide

theorem witness_CompressedAgreesWithExpansion :
    let s := wit .rv64
    s.cfg.ext.c = true ∧ s.cfg.xlen = .rv64 ∧ s.readX (creg 1) = 0 ∧ s.readX (creg 0) ≠ 0 ∧
      s.readPc.toNat % 2 = 0 := by decide

/-- The greatest CSR address with rd ≠ x0, and the least one without the right to read with rd = x0. -/
theorem witness_CsrReadWrite :
    let s := wit .rv64
    sparseWf s.csrs = true ∧ csrDesc s.cfg 0xFFF = some (.storage true true (BitVec.allOnes 64)) ∧
      csrDesc { s.cfg with csrModel := [⟨0, 0, .storage false true 0xFF⟩] } 0 = some (.storage false true 0xFF) := by
  decide

theorem witness_CsrSetClear :
    let s := wit .rv64
    sparseWf s.csrs = true ∧ csrDesc s.cfg 0xFFF = some (.storage true true (BitVec.allOnes 64)) ∧
      csrDesc { s.cfg with csrModel := [⟨0, 0, .storage true false 0xFF⟩] } 0 = some (.storage true false 0xFF) := by
  decide

theorem witness_CsrAccesses :
    let s := wit .rv64
    (∃ new, csrOperands (.csrrs 5 0xFFF 6) s = some (5, 0xFFF, true, true, new)) ∧
      (csrDesc s.cfg 0xFFF).isSome = true ∧ csrReadable s 0xFFF = true ∧ csrWritable s 0xFFF = true ∧
      csrGet s 0xFFF = .ok (2, s) ∧ ∃ u, csrSet s 0xFFF 3 = .ok u := by
  refine ⟨⟨_, rfl⟩, by decide, by decide, by decide, rfl, ⟨_, rfl⟩⟩

/-- A CSR whose write reaches program text. -/
theorem witness_CsrAccesses_text :
    let s := { wit .rv64 with cfg := { (wit .rv64).cfg with csrModel := [⟨0, 0, .functions
      ⟨.const 1, .const 1, .const 0, [], [⟨.const 1, .byte (.const 0x1003), .const 1⟩]⟩⟩] } }
    (∃ new, csrOperands (.csrrw 0 0 6) s = some (0, 0, false, true, new)) ∧ (csrDesc s.cfg 0).isSome = true ∧
      csrWritable s 0 = true ∧ csrSet s 0 (s.readX 6) = .error (.refuse .storeToCode) := by
  refine ⟨⟨_, rfl⟩, by decide, by decide, rfl⟩

theorem witness_CsrFunctions :
    let s := fnMachine (.full 0x340312F3) [(30, 1), (31, 7)]
    csrDesc s.cfg 0x340 = some (.functions csrFns) ∧ Memory.wf s.mem = true ∧ sparseWf s.csrs = true ∧
      (fnWrites s.view [csrArg 0x340] csrFns.readEffect).writesCode s.cfg = false ∧
      (fnWrites s.view [csrArg 0x340, 5] csrFns.write).writesCode s.cfg = false := by decide

/-- An effect of a read, and of a write, that reaches program text. -/
theorem witness_CsrFunctions_text :
    let s := fnMachine (.full 0x340312F3) []
    let us : List Update := [⟨.const 1, .byte (.const 0x1003), .const 1⟩]
    csrDesc { s.cfg with csrModel := [⟨0, 0, .functions ⟨.const 1, .const 1, .const 0, us, us⟩⟩] } 0 =
        some (.functions ⟨.const 1, .const 1, .const 0, us, us⟩) ∧
      (fnWrites s.view [csrArg 0] us).writesCode s.cfg = true ∧
      (fnWrites s.view [csrArg 0, 5] us).writesCode s.cfg = true := by decide

theorem witness_CsrIllegal_missing :
    (∃ new, csrOperands (.csrrw 0 0x7FF 6) (wit .rv64) = some (0, 0x7FF, false, true, new)) ∧
      (csrDesc (wit .rv64).cfg 0x7FF).isSome = false := by
  refine ⟨⟨_, rfl⟩, ?_⟩
  decide

theorem witness_CsrIllegal_read :
    let s := { wit .rv64 with cfg := { (wit .rv64).cfg with csrModel := [⟨0, 0, .storage false true 0xFF⟩] } }
    (∃ new, csrOperands (.csrrs 5 0 0) s = some (5, 0, true, false, new)) ∧ csrReadable s 0 = false := by
  refine ⟨⟨_, rfl⟩, ?_⟩
  decide

theorem witness_CsrIllegal_write :
    let s := { wit .rv64 with cfg := { (wit .rv64).cfg with csrModel := [⟨0, 0, .storage true false 0xFF⟩] } }
    (∃ new, csrOperands (.csrrwi 0 0 0) s = some (0, 0, false, true, new)) ∧ csrWritable s 0 = false := by
  refine ⟨⟨_, rfl⟩, ?_⟩
  decide

theorem witness_Divide : (wit .rv32).cfg.ext.m = true ∧ (wit .rv32).cfg.divSpec = DivSpec.standard := by decide

theorem witness_DivideWord :
    (wit .rv64).cfg.ext.m = true ∧ (wit .rv64).cfg.xlen = .rv64 ∧ (wit .rv64).cfg.divSpec = DivSpec.standard := by decide

theorem witness_EnvironmentInstructions :
    (wit .rv64).cfg.ext.c = true ∧ envAnswer (wit .rv64) .environmentCall = none ∧
      (∃ a, envAnswer ((wit .rv64).withEnv resumeEnv) (.breakpoint 0x1000) = some a ∧
        a.writesCode (wit .rv64).cfg = false) ∧
      ∃ a, envAnswer ((wit .rv64).withEnv textEnv) .environmentCall = some a ∧ a.writesCode (wit .rv64).cfg = true :=
  ⟨by decide, by decide, ⟨_, rfl, by decide⟩, ⟨_, rfl, by decide⟩⟩

theorem witness_ContinueState : Memory.wf (wit .rv64).mem = true ∧ sparseWf (wit .rv64).csrs = true := by decide

theorem witness_PreciseTraps :
    let s := machine .rv64 extI (.full 0x00100073) []
    step s = .fault (.trap (.breakpoint 0x1000)) ∧
      ∃ a, envAnswer (s.withEnv resumeEnv) (.breakpoint 0x1000) = some a ∧ a.writesCode s.cfg = false :=
  ⟨rfl, ⟨_, rfl, by decide⟩⟩

theorem witness_TrapsByKind_atomic :
    exec (.amoaddW false false 7 6 5) ((wit .rv32).writeX 6 0x8002) =
      .fault (.trap (.storeAMOAddressMisaligned 0x8002)) := rfl

theorem witness_TrapsByKind_branch :
    exec (.beq 0 0 0x7FF) (machine .rv32 extI (.full 0x7E000FE3) []) =
      .fault (.trap (.instructionAddressMisaligned 0x1FFE)) := rfl

theorem witness_TrapsByKind_csr :
    exec (.csrrwi 0 0x7FF 1) (wit .rv64) = .fault (.trap (.illegalInstruction 0x7FF0D073)) := rfl

theorem witness_TrapsByKind_load :
    exec (.cLw 1 0 0) (witAdmit .rv32 []) = .fault (.trap (.loadAccessFault 0x8000)) := rfl

theorem witness_TrapsByKind_store :
    exec (.cSw 1 0 0) (witAdmit .rv32 []) = .fault (.trap (.storeAMOAccessFault 0x8000)) := rfl

theorem witness_TrapsByKind_environment : exec .ecall (wit .rv32) = .fault (.trap .environmentCall) := rfl

/-- The last doubleword of the 32-bit address space. -/
theorem witness_MixedWidths :
    let s := wit .rv32
    Memory.wf s.mem = true ∧ StoreOk s 0xFFFFFFF8 8 ∧ StoreOk s 0xFFFFFFF8 4 ∧
      StoreOk s (xval s.xl ((0xFFFFFFF8 : Word).toNat + 4)) 4 := by decide

theorem witness_MixedWidths_parcel :
    (0x1000 : Word).toNat < 2 ^ (wit .rv32).xl.bits ∧ fetchParcel (wit .rv32) 0x1000 = .ok 0x81B3 := ⟨by decide, rfl⟩

theorem witness_CanonicalMemoryUnique :
    Memory.wf (wit .rv32).mem = true ∧ ∀ a, sparseRead (wit .rv32).mem a = sparseRead (wit .rv32).mem a :=
  ⟨by decide, fun _ => rfl⟩

/-- For OnlyStoresWriteMemory, OnlyCsrInstructionsReachCsrs, OnlyFloatLoadsWriteF and SequentialPc. -/
theorem witness_frames :
    (wit .rv64).cfg.env = [] ∧ exec (.add 3 1 2) (wit .rv64) = .next (((wit .rv64).writeX 3 0x8000).advance 4) ∧
      Instr.kind (.add 3 1 2) = .compute ∧ PlainCsr (.add 3 1 2) (wit .rv64) :=
  ⟨rfl, rfl, rfl, fun _ _ _ _ _ h => by cases h⟩

/-- For OnlyStoresWriteMemory and OnlyFloatLoadsWriteF: a CSR instruction on plain storage. -/
theorem witness_PlainCsr : PlainCsr (.csrrw 5 0xFFF 6) (wit .rv64) ∧
    ∃ t, exec (.csrrw 5 0xFFF 6) (wit .rv64) = .next t := by
  refine ⟨fun _ _ _ _ _ h d => ?_, ⟨_, rfl⟩⟩
  simp only [csrOperands, Option.some.injEq, Prod.mk.injEq] at h
  obtain ⟨-, rfl, -⟩ := h
  exact fun e => by cases (show some (CsrDesc.storage true true (BitVec.allOnes 64)) = _ from e)

theorem witness_Inv : Inv (wit .rv64) :=
  ⟨by decide, by decide, by decide, by decide, by decide, ⟨by decide, by decide, by decide⟩, ⟨by decide, by decide⟩⟩

/-- For InvKeptByStep and ProgramTextConstant, with `witness_Inv`. -/
theorem witness_InvKeptByStep : step (wit .rv64) = .next (((wit .rv64).writeX 3 0x8000).advance 4) := rfl

theorem witness_ProgramTextConstant : Config.inCode (wit .rv64).cfg 0x1003 = true := by decide

theorem witness_PcAlignedKeptByStep : PcAligned (wit .rv64) :=
  ⟨by decide, fun u e a hu _ h => by
    have hn : u.cfg.env = [] := by rw [hu]; rfl
    unfold envAnswer at h
    rw [hn] at h
    cases h⟩

/-- An env that answers pc + 4 keeps an aligned pc aligned, at either XLEN and either IALIGN. -/
theorem resumeEnv_aligned (s : State) (h : s.readPc.toNat % s.cfg.ialignBytes = 0) :
    PcAligned (s.withEnv resumeEnv) := by
  refine ⟨h, fun u e a hu hp ha => ?_⟩
  have hn : u.cfg.env = resumeEnv := by rw [hu]; rfl
  unfold envAnswer at ha
  rw [hn] at ha
  cases ha
  exact wrap_add_aligned (n := 4) hp (by rcases ialignBytes_cases (s.withEnv resumeEnv).cfg with h | h <;> rw [h] <;> rfl)

theorem witness_PcAlignedKeptByStep_env :
    PcAligned ((wit .rv64).withEnv resumeEnv) := resumeEnv_aligned _ (by decide)

/-- The least offset, taken. -/
theorem witness_BranchPseudos_taken :
    let s := wit .rv32
    pseudoCondition s (.bgez 6 0x800) = some (0x800, 0 ≤ sgn s.xl (s.readX 6)) ∧ 0 ≤ sgn s.xl (s.readX 6) ∧
      (relPc s (2 * (0x800 : BitVec 12).toInt)).toNat % s.cfg.ialignBytes = 0 := ⟨rfl, by decide, by decide⟩

/-- Without C an offset of 2 is misaligned. -/
theorem witness_BranchPseudos_misaligned :
    let s := machine .rv32 extI (.full 0x00000163) []
    pseudoCondition s (.beqz 0 1) = some (1, s.readX 0 = 0) ∧ s.readX 0 = 0 ∧
      (relPc s (2 * (1 : BitVec 12).toInt)).toNat % s.cfg.ialignBytes ≠ 0 := ⟨rfl, by decide, by decide⟩

theorem witness_BranchPseudos_not_taken :
    let s := wit .rv32
    pseudoCondition s (.bltz 6 1) = some (1, sgn s.xl (s.readX 6) < 0) ∧ ¬ sgn s.xl (s.readX 6) < 0 :=
  ⟨rfl, by decide⟩

theorem witness_CsrPseudos :
    sparseWf (wit .rv32).csrs = true ∧
      csrDesc (wit .rv32).cfg 0xFFF = some (.storage true true (BitVec.allOnes 64)) := by decide

/-- The two ends of the pair's reach at XLEN = 64. -/
theorem witness_CallEffect :
    let s := { wit .rv64 with pc := 0x100000000 }
    let low : Word := 0x7FFFF800
    let high : Word := 0x17FFFF7FE
    (1 : Reg) ≠ 0 ∧ low.toNat < 2 ^ s.xl.bits ∧ low.toNat % s.cfg.ialignBytes = 0 ∧
      (-2 ^ 31 - 2048 ≤ (low.toNat : Int) - s.readPc.toNat ∧ (low.toNat : Int) - s.readPc.toNat < 2 ^ 31 - 2048) ∧
      high.toNat < 2 ^ s.xl.bits ∧ high.toNat % s.cfg.ialignBytes = 0 ∧
      (-2 ^ 31 - 2048 ≤ (high.toNat : Int) - s.readPc.toNat ∧
        (high.toNat : Int) - s.readPc.toNat < 2 ^ 31 - 2048) := by decide

theorem witness_FabsEffect :
    (wit .rv64).cfg.ext.d = true ∧ (wit .rv64).cfg.ext.f = true ∧
      (machine .rv32 extFC (.full 0x00000013) []).cfg.ext.f = true ∧
      (machine .rv32 extFC (.full 0x00000013) []).cfg.ext.d = false := by decide

end Sys2Proof.Tests
end

section
/-! PROOFS. The family 10_state.md: what pc reads as in the state after reset. -/

namespace Sys2Proof.Machine

@[simp] theorem State.reset_pc : State.reset.pc = State.reset.cfg.resetPc := rfl

/-- The pc of a launch state is stored at RESET_PC, read through the XLEN-bit view of R25. -/
theorem launch_of_pc_eq_resetPc {s : State} (h : s.pc = s.cfg.resetPc) : Launch s := by
  unfold Launch State.readPc
  rw [h]

/-- Settles O51: the state after reset is a launch state (R28). -/
theorem resetPc : Obligations.ResetPc :=
  launch_of_pc_eq_resetPc State.reset_pc

end Sys2Proof.Machine
end

section
/-! PROOFS. The family 40_integer_computational.md: the rows of R100 that its words match, the meaning of each
instruction as one register write and an advance of pc (R120), and each result as a number modulo 2^XLEN. -/

namespace Sys2Proof

/-! ## Decoding a 32-bit word (30_encoding.md R81, R83, R85, R100, R104, R108) -/

theorem decode_full_present {c : Config} {w : BitVec 32} {i : Instr} (h : decode32 w = some i)
    (hp : i.present c = true) : decode c (.full w) = .instr i := by
  simp only [decode, h, Decoded.restrict, hp, if_true]

theorem decode_full_absent {c : Config} {w : BitVec 32} {i : Instr} (h : decode32 w = some i)
    (hp : i.present c = false) : decode c (.full w) = .notInSpec := by
  simp only [decode, h, Decoded.restrict, hp, Bool.false_eq_true, if_false]

theorem decode32_op (f7 : BitVec 7) (rs2 rs1 : Reg) (f3 : BitVec 3) (rd : Reg) :
    decode32 (f7 ++ rs2 ++ rs1 ++ f3 ++ rd ++ 0b0110011#7) = decodeRegReg false f7 f3 rd rs1 rs2 := by
  obtain ⟨w, e, hop, hrd, hf3, hrs1, hrs2, hf7⟩ := encR_fields f7 rs2 rs1 f3 rd 0b0110011#7
  rw [InstrWord.full.inj e]
  simp [decode32, hop, hrd, hf3, hrs1, hrs2, hf7]

theorem decode32_op32 (f7 : BitVec 7) (rs2 rs1 : Reg) (f3 : BitVec 3) (rd : Reg) :
    decode32 (f7 ++ rs2 ++ rs1 ++ f3 ++ rd ++ 0b0111011#7) = decodeRegReg true f7 f3 rd rs1 rs2 := by
  obtain ⟨w, e, hop, hrd, hf3, hrs1, hrs2, hf7⟩ := encR_fields f7 rs2 rs1 f3 rd 0b0111011#7
  rw [InstrWord.full.inj e]
  simp [decode32, hop, hrd, hf3, hrs1, hrs2, hf7]

theorem decode32_opImm (imm : BitVec 12) (rs1 : Reg) (f3 : BitVec 3) (rd : Reg) :
    decode32 (imm ++ rs1 ++ f3 ++ rd ++ 0b0010011#7) =
      if f3 = 0b000#3 then some (.addi rd rs1 imm) else if f3 = 0b111#3 then some (.andi rd rs1 imm) else none := by
  obtain ⟨w, e, hop, hrd, hf3, hrs1, himm⟩ := encI_fields imm rs1 f3 rd 0b0010011#7
  rw [InstrWord.full.inj e]
  simp [decode32, hop, hrd, hf3, hrs1, himm]

theorem decode32_opImm32 (imm : BitVec 12) (rs1 : Reg) (f3 : BitVec 3) (rd : Reg) :
    decode32 (imm ++ rs1 ++ f3 ++ rd ++ 0b0011011#7) = if f3 = 0b000#3 then some (.addiw rd rs1 imm) else none := by
  obtain ⟨w, e, hop, hrd, hf3, hrs1, himm⟩ := encI_fields imm rs1 f3 rd 0b0011011#7
  rw [InstrWord.full.inj e]
  simp [decode32, hop, hrd, hf3, hrs1, himm]

theorem decode32_auipc (imm : BitVec 20) (rd : Reg) :
    decode32 (imm ++ rd ++ 0b0010111#7) = some (.auipc rd imm) := by
  obtain ⟨w, e, hop, hrd, himm⟩ := encU_fields imm rd 0b0010111#7
  rw [InstrWord.full.inj e]
  simp [decode32, hop, hrd, himm]

/-! ## The R-type rows of the family -/

theorem decodeRegReg_add (rd rs1 rs2 : Reg) :
    decodeRegReg false 0b0000000#7 0b000#3 rd rs1 rs2 = some (.add rd rs1 rs2) := rfl

theorem decodeRegReg_and (rd rs1 rs2 : Reg) :
    decodeRegReg false 0b0000000#7 0b111#3 rd rs1 rs2 = some (.and rd rs1 rs2) := rfl

theorem decodeRegReg_addw (rd rs1 rs2 : Reg) :
    decodeRegReg true 0b0000000#7 0b000#3 rd rs1 rs2 = some (.addw rd rs1 rs2) := rfl

/-! ## Presence of the word instructions -/

theorem Config.is64_of_rv64 {c : Config} (h : c.xlen = .rv64) : c.is64 = true := by
  rw [Config.is64, h]; rfl

theorem Config.is64_of_rv32 {c : Config} (h : c.xlen = .rv32) : c.is64 = false := by
  rw [Config.is64, h]; rfl

end Sys2Proof

namespace Sys2Proof.Machine

/-! ## The results as numbers (00_scope.md R7, 30_encoding.md R97) -/

@[simp] theorem wrap_andX (xl : XLen) (a b : Word) : wrap xl (andX xl a b) = andX xl a b := wrap_onX ..

theorem immI_eq_xval (xl : XLen) {k : Nat} (imm : BitVec k) : immI xl imm = xval xl imm.toInt := sextX_eq_xval xl imm

theorem addX_immI (xl : XLen) {k : Nat} (a : Word) (imm : BitVec k) :
    addX xl a (immI xl imm) = xval xl (a.toNat + imm.toInt) := addX_sextX xl a imm

theorem addX_immU (xl : XLen) (a : Word) (imm : BitVec 20) :
    addX xl a (immU xl imm) = xval xl (a.toNat + imm.toInt * 4096) := by
  rw [immU, addX_sextX, append_zero_toInt]; norm_num

/-- Narrowing to XLEN bits first does not change the low word. -/
theorem sextWord_xval (xl : XLen) (z : Int) : sextWord xl (xval xl z) = xval xl (low32 z) := by
  rw [sextWord_eq_xval, low32_xval]

/-! ## The meaning of each instruction (R121 to R127) -/

theorem exec_add (rd rs1 rs2 : Reg) (s : State) :
    exec (.add rd rs1 rs2) s = finish s rd (addX s.xl (s.readX rs1) (s.readX rs2)) 4 := rfl

theorem exec_addi (rd rs1 : Reg) (imm : BitVec 12) (s : State) :
    exec (.addi rd rs1 imm) s = finish s rd (addX s.xl (s.readX rs1) (immI s.xl imm)) 4 := rfl

theorem exec_addiw (rd rs1 : Reg) (imm : BitVec 12) {s : State} (h : s.cfg.xlen = .rv64) :
    exec (.addiw rd rs1 imm) s = finish s rd (sextWord s.xl (addX s.xl (s.readX rs1) (immI s.xl imm))) 4 :=
  ifPresent_of (i := .addiw rd rs1 imm) (Config.is64_of_rv64 h) _

theorem exec_addw (rd rs1 rs2 : Reg) {s : State} (h : s.cfg.xlen = .rv64) :
    exec (.addw rd rs1 rs2) s = finish s rd (sextWord s.xl (addX s.xl (s.readX rs1) (s.readX rs2))) 4 :=
  ifPresent_of (i := .addw rd rs1 rs2) (Config.is64_of_rv64 h) _

theorem exec_and (rd rs1 rs2 : Reg) (s : State) :
    exec (.and rd rs1 rs2) s = finish s rd (andX s.xl (s.readX rs1) (s.readX rs2)) 4 := rfl

theorem exec_andi (rd rs1 : Reg) (imm : BitVec 12) (s : State) :
    exec (.andi rd rs1 imm) s = finish s rd (andX s.xl (s.readX rs1) (immI s.xl imm)) 4 := rfl

theorem exec_auipc (rd : Reg) (imm : BitVec 20) (s : State) :
    exec (.auipc rd imm) s = finish s rd (addX s.xl s.readPc (immU s.xl imm)) 4 := rfl

/-! ## The statements

Each instruction completes by `completesX_finish`, from its meaning and its result as a number. -/

/-- Settles O10: the words are rows of every configuration, and each result is the sum as a number (R121, R122). -/
theorem addAndAddi : Obligations.AddAndAddi := by
  intro s rd rs1 rs2 imm
  refine ⟨?decodeAdd, ?add, ?decodeAddi, ?addi⟩
  case decodeAdd => exact decode_full_present (by rw [decode32_op, decodeRegReg_add]) rfl
  case add => exact completesX_finish (by norm_num) (exec_add ..) (by rw [wrap_addX, addX_eq_xval])
  case decodeAddi => exact decode_full_present (by rw [decode32_opImm, if_pos rfl]) rfl
  case addi => exact completesX_finish (by norm_num) (exec_addi ..) (by rw [wrap_addX, addX_immI])

/-- Settles O11: the words decode to a row present at XLEN = 64 only, and the low word of the sum does not depend on
where the sum was narrowed (R123, R124). -/
theorem addwAndAddiw : Obligations.AddwAndAddiw := by
  intro s rd rs1 rs2 imm
  have haddiw : decode32 (imm ++ rs1 ++ 0b000#3 ++ rd ++ 0b0011011#7) = some (.addiw rd rs1 imm) := by
    rw [decode32_opImm32, if_pos rfl]
  have haddw : decode32 (0b0000000#7 ++ rs2 ++ rs1 ++ 0b000#3 ++ rd ++ 0b0111011#7) = some (.addw rd rs1 rs2) := by
    rw [decode32_op32, decodeRegReg_addw]
  refine ⟨fun h64 => ⟨?decodeAddiw, ?addiw, ?decodeAddw, ?addw⟩, fun h32 => ⟨?absentAddiw, ?absentAddw⟩⟩
  case decodeAddiw => exact decode_full_present haddiw (Config.is64_of_rv64 h64)
  case addiw =>
    exact completesX_finish (by norm_num) (exec_addiw _ _ _ h64) (by rw [wrap_sextWord, addX_immI, sextWord_xval])
  case decodeAddw => exact decode_full_present haddw (Config.is64_of_rv64 h64)
  case addw =>
    exact completesX_finish (by norm_num) (exec_addw _ _ _ h64) (by rw [wrap_sextWord, addX_eq_xval, sextWord_xval])
  case absentAddiw => exact decode_full_absent haddiw (Config.is64_of_rv32 h32)
  case absentAddw => exact decode_full_absent haddw (Config.is64_of_rv32 h32)

/-- Settles O12: the AND at width XLEN is the AND of the containers, since x[rs1] is below 2^XLEN (R125, R126). -/
theorem andAndAndi : Obligations.AndAndAndi := by
  intro s rd rs1 rs2 imm
  have hlt : (s.readX rs1).toNat < 2 ^ s.xl.bits := s.readX_lt rs1
  refine ⟨?decodeAnd, ?and, ?decodeAndi, ?andi⟩
  case decodeAnd => exact decode_full_present (by rw [decode32_op, decodeRegReg_and]) rfl
  case and => exact completesX_finish (by norm_num) (exec_and ..) (by rw [wrap_andX, andX_eq _ hlt])
  case decodeAndi => exact decode_full_present (by rw [decode32_opImm, if_neg (by decide), if_pos rfl]) rfl
  case andi => exact completesX_finish (by norm_num) (exec_andi ..) (by rw [wrap_andX, andX_eq _ hlt, immI_eq_xval])

/-- Settles O13: twelve zero bits below the immediate make it 4096 times as large (R97, R127). -/
theorem auipc : Obligations.Auipc := by
  intro s rd imm
  refine ⟨?decodeAuipc, ?auipc⟩
  case decodeAuipc => exact decode_full_present (decode32_auipc imm rd) rfl
  case auipc => exact completesX_finish (by norm_num) (exec_auipc ..) (by rw [wrap_addX, addX_immU])

end Sys2Proof.Machine
end

section
/-! PROOFS. The opcode map (30_encoding.md section 5): decoding undoes encoding on well-formed instructions that are
present, a word that decodes is the encoding of its instruction, and the illegal words are those of R101. -/

namespace Sys2Proof

/-! ## From a row to `decode` (R108) -/

theorem decode_half_present {c : Config} {w : BitVec 16} {i : Instr} (h : decode16 c.xlen w = .instr i)
    (hp : i.present c = true) : decode c (.half w) = .instr i := by
  simp only [decode, h, Decoded.restrict, hp, if_true]

theorem decode32_amo (f5 : BitVec 5) (aq rl : Bool) (rs2 rs1 : Reg) (f3 : BitVec 3) (rd : Reg) :
    decode32 (f5 ++ bit1 aq ++ bit1 rl ++ rs2 ++ rs1 ++ f3 ++ rd ++ 0b0101111#7) = decodeAmo f5 aq rl rs2 rs1 f3 rd := by
  obtain ⟨w, e, hop, hrd, hf3, hrs1, hrs2, hrl, haq, hf5⟩ := encAmo_fields f5 aq rl rs2 rs1 f3 rd
  rw [InstrWord.full.inj e]
  simp [decode32, hop, hrd, hf3, hrs1, hrs2, hrl, haq, hf5]

theorem decode32_branch (off : BitVec 12) (rs2 rs1 : Reg) (f3 : BitVec 3) :
    decode32 (off.extractLsb' 11 1 ++ off.extractLsb' 4 6 ++ rs2 ++ rs1 ++ f3 ++ off.extractLsb' 0 4 ++
      off.extractLsb' 10 1 ++ 0b1100011#7) = decodeBranch f3 rs1 rs2 off := by
  obtain ⟨w, e, hop, hf3, hrs1, hrs2, hoff⟩ := encB_fields off rs2 rs1 f3
  rw [InstrWord.full.inj e]
  simp [decode32, hop, hf3, hrs1, hrs2, hoff]

theorem decode32_system (csr : BitVec 12) (rs1 : Reg) (f3 : BitVec 3) (rd : Reg) :
    decode32 (csr ++ rs1 ++ f3 ++ rd ++ 0b1110011#7) = decodeSystem csr rs1 f3 rd := by
  obtain ⟨w, e, hop, hrd, hf3, hrs1, himm⟩ := encI_fields csr rs1 f3 rd 0b1110011#7
  rw [InstrWord.full.inj e]
  simp [decode32, hop, hrd, hf3, hrs1, himm]

/-! ## From a layout to the quadrant that reads it (R87 to R95, R102) -/

theorem decode16_q0 {w : BitVec 16} (xl : XLen) (h : w.extractLsb' 0 2 = 0b00#2) : decode16 xl w = decodeQ0 xl w := by
  simp [decode16, h]

theorem decode16_q1 {w : BitVec 16} (xl : XLen) (h : w.extractLsb' 0 2 = 0b01#2) : decode16 xl w = decodeQ1 xl w := by
  simp [decode16, h]

theorem decode16_q2 {w : BitVec 16} (xl : XLen) (h : w.extractLsb' 0 2 = 0b10#2) : decode16 xl w = decodeQ2 xl w := by
  simp [decode16, h]

/-- A layout of quadrant 00, by what its slices are (`encCIW_fields` and the like). -/
theorem decode_q0 {c : Config} {e : InstrWord} {i : Instr} {P : BitVec 16 → Prop}
    (hf : ∃ w, e = .half w ∧ w.extractLsb' 0 2 = 0b00#2 ∧ P w) (hp : i.present c = true)
    (h : ∀ w, P w → decodeQ0 c.xlen w = .instr i) : decode c e = .instr i := by
  obtain ⟨w, rfl, hq, hw⟩ := hf
  exact decode_half_present ((decode16_q0 _ hq).trans (h w hw)) hp

/-- A layout of quadrant 01. -/
theorem decode_q1 {c : Config} {e : InstrWord} {i : Instr} {P : BitVec 16 → Prop}
    (hf : ∃ w, e = .half w ∧ w.extractLsb' 0 2 = 0b01#2 ∧ P w) (hp : i.present c = true)
    (h : ∀ w, P w → decodeQ1 c.xlen w = .instr i) : decode c e = .instr i := by
  obtain ⟨w, rfl, hq, hw⟩ := hf
  exact decode_half_present ((decode16_q1 _ hq).trans (h w hw)) hp

/-- A layout of quadrant 10. -/
theorem decode_q2 {c : Config} {e : InstrWord} {i : Instr} {P : BitVec 16 → Prop}
    (hf : ∃ w, e = .half w ∧ w.extractLsb' 0 2 = 0b10#2 ∧ P w) (hp : i.present c = true)
    (h : ∀ w, P w → decodeQ2 c.xlen w = .instr i) : decode c e = .instr i := by
  obtain ⟨w, rfl, hq, hw⟩ := hf
  exact decode_half_present ((decode16_q2 _ hq).trans (h w hw)) hp

theorem decodeQ1_arith {xl : XLen} {w : BitVec 16} (h : w.extractLsb' 13 3 = 0b100#3) :
    decodeQ1 xl w = decodeQ1Arith w := by simp [decodeQ1, h]

/-- The XLEN of a configuration that has an instruction of one width only. -/
theorem Config.rv64_of_is64 {c : Config} (h : c.is64 = true) : c.xlen = .rv64 := by simpa [Config.is64] using h

theorem Config.rv32_of_is32 {c : Config} (h : c.is32 = true) : c.xlen = .rv32 := by simpa [Config.is32] using h

theorem beq_false_of_bne {k : Nat} {a b : BitVec k} (h : (a != b) = true) : (a == b) = false := by
  simpa using h

theorem unlessIllegal_of {bad : Bool} {i : Instr} (h : bad = false) : unlessIllegal bad i = .instr i := by
  rw [h]; rfl

/-- Settles O2: for each layout, the decoder's slices of the encoder's word are the operands (`enc…_fields`), and the
conditions of `Instr.wf` are those under which the row is not an illegal word. -/
theorem decodeOfEncode : Obligations.DecodeOfEncode := by
  intro c i hwf hp
  cases i
  case add | and | div | divu => exact decode_full_present (decode32_op ..) hp
  case addw | divw | divuw => exact decode_full_present (decode32_op32 ..) hp
  case addi | andi => exact decode_full_present (decode32_opImm ..) hp
  case addiw => exact decode_full_present (decode32_opImm32 ..) hp
  case auipc => exact decode_full_present (decode32_auipc ..) hp
  case amoaddD | amoandD | amomaxD | amomaxuD | amominD | amominuD | amoorD | amoswapD | amoxorD | amoaddW | amoandW
    | amomaxW | amomaxuW | amominW | amominuW | amoorW | amoswapW | amoxorW =>
    exact decode_full_present (decode32_amo ..) hp
  case beq | bge | bgeu | blt | bltu | bne => exact decode_full_present (decode32_branch ..) hp
  case csrrc | csrrci | csrrs | csrrsi | csrrw | csrrwi | ebreak | ecall =>
    exact decode_full_present (decode32_system ..) hp
  case cAddi4spn =>
    refine decode_q0 (encCIW_fields _ _) hp fun w ⟨hrd, hf3, hu⟩ => ?_
    simp only [decodeQ0, hrd, hf3, hu, if_true]
    exact unlessIllegal_of (beq_false_of_bne hwf)
  case cLw | cSw =>
    exact decode_q0 (encWordMem_fields _ _ _ _) hp fun w ⟨hr2, hr1, hf3, hu⟩ => by simp [decodeQ0, hr2, hr1, hf3, hu]
  case cFlw | cFsw =>
    have hx := Config.rv32_of_is32 (Bool.and_eq_true _ _ ▸ hp).2
    exact decode_q0 (encWordMem_fields _ _ _ _) hp fun w ⟨hr2, hr1, hf3, hu⟩ => by
      simp [decodeQ0, hx, hr2, hr1, hf3, hu]
  case cFld | cFsd =>
    exact decode_q0 (encDoubleMem_fields _ _ _ _) hp fun w ⟨hr2, hr1, hf3, hu⟩ => by simp [decodeQ0, hr2, hr1, hf3, hu]
  case cLd | cSd =>
    have hx := Config.rv64_of_is64 (Bool.and_eq_true _ _ ▸ hp).2
    exact decode_q0 (encDoubleMem_fields _ _ _ _) hp fun w ⟨hr2, hr1, hf3, hu⟩ => by
      simp [decodeQ0, hx, hr2, hr1, hf3, hu]
  case cAddi | cLi =>
    exact decode_q1 (encCI_fields _ _ _ _) hp fun w ⟨hrd, hf3, hu⟩ => by simp [decodeQ1, hrd, hf3, hu]
  case cAddiw =>
    have hx := Config.rv64_of_is64 (Bool.and_eq_true _ _ ▸ hp).2
    exact decode_q1 (encCI_fields _ _ _ _) hp fun w ⟨hrd, hf3, hu⟩ => by
      simpa [decodeQ1, hx, hrd, hf3, hu] using unlessIllegal_of (beq_false_of_bne hwf)
  case cAddi16sp =>
    exact decode_q1 (encAddi16sp_fields _) hp fun w ⟨hrd, hf3, hu⟩ => by
      simpa [decodeQ1, hrd, hf3, hu] using unlessIllegal_of (beq_false_of_bne hwf)
  case cLui rd imm =>
    obtain ⟨hwrd, hwimm⟩ : (rd != 2) = true ∧ (imm != 0) = true := Bool.and_eq_true _ _ ▸ hwf
    have hrd2 : rd ≠ 2#5 := bne_iff_ne.1 hwrd
    exact decode_q1 (encCI_fields _ _ _ _) hp fun w ⟨hrd, hf3, hu⟩ => by
      simpa [decodeQ1, hrd, hf3, hu, hrd2] using unlessIllegal_of (beq_false_of_bne hwimm)
  case cSrli | cSrai | cAndi =>
    exact decode_q1 (encCBArith_fields _ _ _) hp fun w ⟨hrd, hf2, hf3, hu⟩ => by
      simp [decodeQ1_arith hf3, decodeQ1Arith, hrd, hf2, hu]
  case cSub | cXor | cOr | cAnd | cSubw | cAddw =>
    exact decode_q1 (encCA_fields _ _ _ _) hp fun w ⟨hrs2, hf2, hrd, h11, hb, hf3⟩ => by
      simp [decodeQ1_arith hf3, decodeQ1Arith, hrs2, hf2, hrd, h11, hb]
  case cJ => exact decode_q1 (encCJ_fields _ _) hp fun w ⟨hf3, hu⟩ => by simp [decodeQ1, hf3, hu]
  case cJal =>
    have hx := Config.rv32_of_is32 (Bool.and_eq_true _ _ ▸ hp).2
    exact decode_q1 (encCJ_fields _ _) hp fun w ⟨hf3, hu⟩ => by simp [decodeQ1, hx, hf3, hu]
  case cBeqz | cBnez =>
    exact decode_q1 (encCBBranch_fields _ _ _) hp fun w ⟨hrs1, hf3, hu⟩ => by simp [decodeQ1, hrs1, hf3, hu]
  case cSlli => exact decode_q2 (encCI_fields _ _ _ _) hp fun w ⟨hrd, hf3, hu⟩ => by simp [decodeQ2, hrd, hf3, hu]
  case cFldsp => exact decode_q2 (encLdsp_fields _ _ _) hp fun w ⟨hrd, hf3, hu⟩ => by simp [decodeQ2, hrd, hf3, hu]
  case cLwsp =>
    exact decode_q2 (encLwsp_fields _ _ _) hp fun w ⟨hrd, hf3, hu⟩ => by
      simpa [decodeQ2, hrd, hf3, hu] using unlessIllegal_of (beq_false_of_bne hwf)
  case cFlwsp =>
    have hx := Config.rv32_of_is32 (Bool.and_eq_true _ _ ▸ hp).2
    exact decode_q2 (encLwsp_fields _ _ _) hp fun w ⟨hrd, hf3, hu⟩ => by simp [decodeQ2, hx, hrd, hf3, hu]
  case cLdsp =>
    have hx := Config.rv64_of_is64 (Bool.and_eq_true _ _ ▸ hp).2
    exact decode_q2 (encLdsp_fields _ _ _) hp fun w ⟨hrd, hf3, hu⟩ => by
      simpa [decodeQ2, hx, hrd, hf3, hu] using unlessIllegal_of (beq_false_of_bne hwf)
  case cFsdsp => exact decode_q2 (encSdsp_fields _ _ _) hp fun w ⟨hrs2, hf3, hu⟩ => by simp [decodeQ2, hrs2, hf3, hu]
  case cSwsp => exact decode_q2 (encSwsp_fields _ _ _) hp fun w ⟨hrs2, hf3, hu⟩ => by simp [decodeQ2, hrs2, hf3, hu]
  case cFswsp =>
    have hx := Config.rv32_of_is32 (Bool.and_eq_true _ _ ▸ hp).2
    exact decode_q2 (encSwsp_fields _ _ _) hp fun w ⟨hrs2, hf3, hu⟩ => by simp [decodeQ2, hx, hrs2, hf3, hu]
  case cSdsp =>
    have hx := Config.rv64_of_is64 (Bool.and_eq_true _ _ ▸ hp).2
    exact decode_q2 (encSdsp_fields _ _ _) hp fun w ⟨hrs2, hf3, hu⟩ => by simp [decodeQ2, hx, hrs2, hf3, hu]
  case cEbreak =>
    exact decode_q2 (encCR_fields _ _ _) hp fun w ⟨hr2, hr1, hb, hf3⟩ => by simp [decodeQ2, hr2, hr1, hb, hf3]
  case cJr =>
    exact decode_q2 (encCR_fields _ _ _) hp fun w ⟨hr2, hr1, hb, hf3⟩ => by
      simpa [decodeQ2, hr2, hr1, hb, hf3] using unlessIllegal_of (beq_false_of_bne hwf)
  case cMv rd rs2 =>
    have hrs2 : rs2 ≠ 0#5 := bne_iff_ne.1 hwf
    exact decode_q2 (encCR_fields _ _ _) hp fun w ⟨hr2, hr1, hb, hf3⟩ => by simp [decodeQ2, hr2, hr1, hb, hf3, hrs2]
  case cJalr rs1 =>
    have hrs1 : rs1 ≠ 0#5 := bne_iff_ne.1 hwf
    exact decode_q2 (encCR_fields _ _ _) hp fun w ⟨hr2, hr1, hb, hf3⟩ => by simp [decodeQ2, hr2, hr1, hb, hf3, hrs1]
  case cAdd rd rs2 =>
    obtain ⟨hwrd, hwrs2⟩ : (rd != 0) = true ∧ (rs2 != 0) = true := Bool.and_eq_true _ _ ▸ hwf
    have hrs2 : rs2 ≠ 0#5 := bne_iff_ne.1 hwrs2
    exact decode_q2 (encCR_fields _ _ _) hp fun w ⟨hr2, hr1, hb, hf3⟩ => by
      simpa [decodeQ2, hr2, hr1, hb, hf3, hrs2] using unlessIllegal_of (beq_false_of_bne hwrd)

end Sys2Proof
end

section
/-! PROOFS. The converse direction: a word that decodes is the encoding of its instruction (`enc…_self`), and the words
that decode as illegal, field by field (30_encoding.md R101). -/

namespace Sys2Proof

/-! ## The rows of the 32-bit opcode map -/

/-- One row of a table of rows. -/
theorem of_row {p : Prop} [Decidable p] {i j : Instr} {rest : Option Instr} (h : (if p then some j else rest) = some i) :
    (p ∧ j = i) ∨ rest = some i := by
  split at h
  · exact .inl ⟨by assumption, Option.some.inj h⟩
  · exact .inr h

theorem of_decodeRegReg {op32 : Bool} {f7 : BitVec 7} {f3 : BitVec 3} {rd rs1 rs2 : Reg} {i : Instr}
    (h : decodeRegReg op32 f7 f3 rd rs1 rs2 = some i) :
    encode i = encR f7 rs2 rs1 f3 rd (if op32 then 0b0111011 else 0b0110011) ∧ i.wf = true := by
  unfold decodeRegReg at h
  by_cases h0 : f7 = 0b0000000#7
  · rw [if_pos h0] at h
    subst h0
    obtain ⟨rfl, rfl⟩ | h := of_row h
    · cases op32 <;> exact ⟨rfl, rfl⟩
    obtain ⟨⟨rfl, rfl⟩, rfl⟩ | h := of_row h
    · exact ⟨rfl, rfl⟩
    cases h
  rw [if_neg h0] at h
  by_cases h1 : f7 = 0b0000001#7
  · rw [if_pos h1] at h
    subst h1
    iterate 2
      obtain ⟨rfl, rfl⟩ | h := of_row h
      · cases op32 <;> exact ⟨rfl, rfl⟩
    cases h
  · rw [if_neg h1] at h
    cases h

theorem of_decodeAmo {f5 : BitVec 5} {aq rl : Bool} {rs2 rs1 : Reg} {f3 : BitVec 3} {rd : Reg} {i : Instr}
    (h : decodeAmo f5 aq rl rs2 rs1 f3 rd = some i) : encode i = encAmo f5 aq rl rs2 rs1 f3 rd ∧ i.wf = true := by
  unfold decodeAmo at h
  by_cases hw : f3 = 0b010#3
  · rw [if_pos hw] at h
    subst hw
    iterate 9
      obtain ⟨rfl, rfl⟩ | h := of_row h
      · exact ⟨rfl, rfl⟩
    cases h
  rw [if_neg hw] at h
  by_cases hd : f3 = 0b011#3
  · rw [if_pos hd] at h
    subst hd
    iterate 9
      obtain ⟨rfl, rfl⟩ | h := of_row h
      · exact ⟨rfl, rfl⟩
    cases h
  · rw [if_neg hd] at h
    cases h

theorem of_decodeBranch {f3 : BitVec 3} {rs1 rs2 : Reg} {off : BitVec 12} {i : Instr}
    (h : decodeBranch f3 rs1 rs2 off = some i) : encode i = encB off rs2 rs1 f3 ∧ i.wf = true := by
  unfold decodeBranch at h
  iterate 6
    obtain ⟨rfl, rfl⟩ | h := of_row h
    · exact ⟨rfl, rfl⟩
  cases h

theorem of_decodeSystem {csr : BitVec 12} {rs1 : Reg} {f3 : BitVec 3} {rd : Reg} {i : Instr}
    (h : decodeSystem csr rs1 f3 rd = some i) : encode i = encI csr rs1 f3 rd 0b1110011 ∧ i.wf = true := by
  unfold decodeSystem at h
  by_cases h0 : f3 = 0b000#3
  · rw [if_pos h0] at h
    subst h0
    iterate 2
      obtain ⟨⟨rfl, rfl, rfl⟩, rfl⟩ | h := of_row h
      · exact ⟨rfl, rfl⟩
    cases h
  · rw [if_neg h0] at h
    iterate 6
      obtain ⟨rfl, rfl⟩ | h := of_row h
      · exact ⟨rfl, rfl⟩
    cases h

theorem of_decode32 {w : BitVec 32} {i : Instr} (h : decode32 w = some i) : encode i = .full w ∧ i.wf = true := by
  have hR := encR_self w
  have hI := encI_self w
  have hU := encU_self w
  unfold decode32 at h
  simp only at h
  split at h
  next hop => obtain ⟨e, hw⟩ := of_decodeRegReg h; rw [e, ← hR, hop]; exact ⟨rfl, hw⟩
  split at h
  next hop => obtain ⟨e, hw⟩ := of_decodeRegReg h; rw [e, ← hR, hop]; exact ⟨rfl, hw⟩
  split at h
  next hop =>
    rw [← hI, hop]
    split at h
    next hf3 => cases h; rw [hf3]; exact ⟨rfl, rfl⟩
    split at h
    next hf3 => cases h; rw [hf3]; exact ⟨rfl, rfl⟩
    cases h
  split at h
  next hop =>
    rw [← hI, hop]
    split at h
    next hf3 => cases h; rw [hf3]; exact ⟨rfl, rfl⟩
    cases h
  split at h
  next hop => cases h; rw [← hU, hop]; exact ⟨rfl, rfl⟩
  split at h
  next hop => obtain ⟨e, hw⟩ := of_decodeAmo h; rw [e, encAmo_self w hop]; exact ⟨rfl, hw⟩
  split at h
  next hop => obtain ⟨e, hw⟩ := of_decodeBranch h; rw [e, encB_self w hop]; exact ⟨rfl, hw⟩
  split at h
  next hop => obtain ⟨e, hw⟩ := of_decodeSystem h; rw [e, ← hI, hop]; exact ⟨rfl, hw⟩
  cases h

/-! ## The rows of the 16-bit opcode map -/

/-- An entry that the source calls illegal for some field values gives its instruction for the others. -/
theorem unlessIllegal_eq_instr {bad : Bool} {i j : Instr} : unlessIllegal bad i = .instr j ↔ bad = false ∧ i = j := by
  cases bad <;> simp [unlessIllegal]

theorem unlessIllegal_eq_illegal {bad : Bool} {i : Instr} : unlessIllegal bad i = .illegal ↔ bad = true := by
  cases bad <;> simp [unlessIllegal]

theorem bne_of_beq_false {k : Nat} {a b : BitVec k} (h : (a == b) = false) : (a != b) = true := by
  simpa using h

theorem of_decodeQ0 {xl : XLen} {w : BitVec 16} {i : Instr} (hq : w.extractLsb' 0 2 = 0b00#2)
    (h : decodeQ0 xl w = .instr i) : encode i = .half w ∧ i.wf = true := by
  have hW := encWordMem_self w hq
  have hD := encDoubleMem_self w hq
  unfold decodeQ0 at h
  simp only at h
  split at h
  next hf3 =>
    obtain ⟨hu, rfl⟩ := unlessIllegal_eq_instr.1 h
    exact ⟨encCIW_self w hf3 hq, bne_of_beq_false hu⟩
  split at h
  next hf3 => cases h; rw [← hD, hf3]; exact ⟨rfl, rfl⟩
  split at h
  next hf3 => cases h; rw [← hW, hf3]; exact ⟨rfl, rfl⟩
  split at h
  next hf3 =>
    cases xl <;> cases h
    · rw [← hW, hf3]; exact ⟨rfl, rfl⟩
    · rw [← hD, hf3]; exact ⟨rfl, rfl⟩
  split at h
  next hf3 => cases h; rw [← hD, hf3]; exact ⟨rfl, rfl⟩
  split at h
  next hf3 => cases h; rw [← hW, hf3]; exact ⟨rfl, rfl⟩
  split at h
  next hf3 =>
    cases xl <;> cases h
    · rw [← hW, hf3]; exact ⟨rfl, rfl⟩
    · rw [← hD, hf3]; exact ⟨rfl, rfl⟩
  cases h

/-- The upper six bits of an arithmetic word with bits 11:10 at ones. -/
theorem upper_of_arith {w : BitVec 16} {b : BitVec 1} (hf3 : w.extractLsb' 13 3 = 0b100#3) (hb : w.extractLsb' 12 1 = b)
    (h11 : w.extractLsb' 10 2 = 0b11#2) : w.extractLsb' 10 6 = 0b100#3 ++ b ++ 0b11#2 := by
  rw [← hf3, ← hb, ← h11, extract_append w (by rfl : 13 = 12 + 1), extract_append w (by rfl : 12 = 10 + 2)]

theorem bitVec2_eq_three {b : BitVec 2} (h0 : b ≠ 0b00#2) (h1 : b ≠ 0b01#2) (h2 : b ≠ 0b10#2) : b = 0b11#2 := by
  revert b; decide

theorem bitVec1_eq_one {b : BitVec 1} (h : b ≠ 0#1) : b = 1#1 := by revert b; decide

theorem of_decodeQ1Arith {w : BitVec 16} {i : Instr} (hq : w.extractLsb' 0 2 = 0b01#2)
    (hf3 : w.extractLsb' 13 3 = 0b100#3) (h : decodeQ1Arith w = .instr i) : encode i = .half w ∧ i.wf = true := by
  have hB := encCBArith_self w hf3 hq
  have hA := encCA_self w hq
  unfold decodeQ1Arith at h
  simp only at h
  split at h
  next hf2 => cases h; rw [← hB, hf2]; exact ⟨rfl, rfl⟩
  split at h
  next hf2 => cases h; rw [← hB, hf2]; exact ⟨rfl, rfl⟩
  split at h
  next hf2 => cases h; rw [← hB, hf2]; exact ⟨rfl, rfl⟩
  next h0 h1 h2 =>
  have h11 := bitVec2_eq_three h0 h1 h2
  split at h
  next hb =>
    rw [← hA, upper_of_arith hf3 hb h11]
    split at h
    next hg => cases h; rw [hg]; exact ⟨rfl, rfl⟩
    split at h
    next hg => cases h; rw [hg]; exact ⟨rfl, rfl⟩
    split at h
    next hg => cases h; rw [hg]; exact ⟨rfl, rfl⟩
    next g0 g1 g2 => cases h; rw [bitVec2_eq_three g0 g1 g2]; exact ⟨rfl, rfl⟩
  next hb =>
    rw [← hA, upper_of_arith hf3 (bitVec1_eq_one hb) h11]
    split at h
    next hg => cases h; rw [hg]; exact ⟨rfl, rfl⟩
    split at h
    next hg => cases h; rw [hg]; exact ⟨rfl, rfl⟩
    cases h

theorem bitVec3_eq_seven {b : BitVec 3} (h0 : b ≠ 0b000#3) (h1 : b ≠ 0b001#3) (h2 : b ≠ 0b010#3) (h3 : b ≠ 0b011#3)
    (h4 : b ≠ 0b100#3) (h5 : b ≠ 0b101#3) (h6 : b ≠ 0b110#3) : b = 0b111#3 := by
  bv_omega

theorem of_decodeQ1 {xl : XLen} {w : BitVec 16} {i : Instr} (hq : w.extractLsb' 0 2 = 0b01#2)
    (h : decodeQ1 xl w = .instr i) : encode i = .half w ∧ i.wf = true := by
  have hCI := encCI_self w
  have hJ := encCJ_self w hq
  have hB := encCBBranch_self w hq
  rw [hq] at hCI
  unfold decodeQ1 at h
  simp only at h
  split at h
  next hf3 => cases h; rw [← hCI, hf3]; exact ⟨rfl, rfl⟩
  next f0 =>
  split at h
  next hf3 =>
    cases xl
    · cases h; rw [← hJ, hf3]; exact ⟨rfl, rfl⟩
    · obtain ⟨hrd, rfl⟩ := unlessIllegal_eq_instr.1 h
      rw [← hCI, hf3]; exact ⟨rfl, bne_of_beq_false hrd⟩
  next f1 =>
  split at h
  next hf3 => cases h; rw [← hCI, hf3]; exact ⟨rfl, rfl⟩
  next f2 =>
  split at h
  next hf3 =>
    split at h
    next hrd =>
      obtain ⟨hu, rfl⟩ := unlessIllegal_eq_instr.1 h
      exact ⟨encAddi16sp_self w hf3 hrd hq, bne_of_beq_false hu⟩
    next hrd =>
      obtain ⟨hu, rfl⟩ := unlessIllegal_eq_instr.1 h
      rw [← hCI, hf3]
      exact ⟨rfl, Bool.and_eq_true _ _ ▸ ⟨bne_iff_ne.2 hrd, bne_of_beq_false hu⟩⟩
  next f3 =>
  split at h
  next hf3 => exact of_decodeQ1Arith hq hf3 h
  next f4 =>
  split at h
  next hf3 => cases h; rw [← hJ, hf3]; exact ⟨rfl, rfl⟩
  next f5 =>
  split at h
  next hf3 => cases h; rw [← hB, hf3]; exact ⟨rfl, rfl⟩
  next f6 => cases h; rw [← hB, bitVec3_eq_seven f0 f1 f2 f3 f4 f5 f6]; exact ⟨rfl, rfl⟩

theorem of_decodeQ2 {xl : XLen} {w : BitVec 16} {i : Instr} (hq : w.extractLsb' 0 2 = 0b10#2)
    (h : decodeQ2 xl w = .instr i) : encode i = .half w ∧ i.wf = true := by
  have hCI := encCI_self w
  have hLw := encLwsp_self w hq
  have hLd := encLdsp_self w hq
  have hSw := encSwsp_self w hq
  have hSd := encSdsp_self w hq
  rw [hq] at hCI
  unfold decodeQ2 at h
  simp only at h
  split at h
  next hf3 => cases h; rw [← hCI, hf3]; exact ⟨rfl, rfl⟩
  next f0 =>
  split at h
  next hf3 => cases h; rw [← hLd, hf3]; exact ⟨rfl, rfl⟩
  next f1 =>
  split at h
  next hf3 =>
    obtain ⟨hrd, rfl⟩ := unlessIllegal_eq_instr.1 h
    rw [← hLw, hf3]; exact ⟨rfl, bne_of_beq_false hrd⟩
  next f2 =>
  split at h
  next hf3 =>
    cases xl
    · cases h; rw [← hLw, hf3]; exact ⟨rfl, rfl⟩
    · obtain ⟨hrd, rfl⟩ := unlessIllegal_eq_instr.1 h
      rw [← hLd, hf3]; exact ⟨rfl, bne_of_beq_false hrd⟩
  next f3 =>
  split at h
  next hf3 =>
    have hCR := encCR_self w hf3 hq
    split at h
    next hb =>
      rw [hb] at hCR
      split at h
      next hrs2 =>
        obtain ⟨hrd, rfl⟩ := unlessIllegal_eq_instr.1 h
        rw [← hCR, hrs2]; exact ⟨rfl, bne_of_beq_false hrd⟩
      next hrs2 => cases h; rw [← hCR]; exact ⟨rfl, bne_iff_ne.2 hrs2⟩
    next hb =>
      rw [bitVec1_eq_one hb] at hCR
      split at h
      next hrs2 =>
        rw [← hCR, hrs2]
        split at h
        next hrd => cases h; rw [hrd]; exact ⟨rfl, rfl⟩
        next hrd => cases h; exact ⟨rfl, bne_iff_ne.2 hrd⟩
      next hrs2 =>
        obtain ⟨hrd, rfl⟩ := unlessIllegal_eq_instr.1 h
        rw [← hCR]; exact ⟨rfl, Bool.and_eq_true _ _ ▸ ⟨bne_of_beq_false hrd, bne_iff_ne.2 hrs2⟩⟩
  next f4 =>
  split at h
  next hf3 => cases h; rw [← hSd, hf3]; exact ⟨rfl, rfl⟩
  next f5 =>
  split at h
  next hf3 => cases h; rw [← hSw, hf3]; exact ⟨rfl, rfl⟩
  next f6 =>
  have f7 := bitVec3_eq_seven f0 f1 f2 f3 f4 f5 f6
  cases xl <;> cases h
  · rw [← hSw, f7]; exact ⟨rfl, rfl⟩
  · rw [← hSd, f7]; exact ⟨rfl, rfl⟩

theorem of_decode16 {xl : XLen} {w : BitVec 16} {i : Instr} (h : decode16 xl w = .instr i) :
    encode i = .half w ∧ i.wf = true := by
  unfold decode16 at h
  simp only at h
  split at h
  next hq => exact of_decodeQ0 hq h
  split at h
  next hq => exact of_decodeQ1 hq h
  split at h
  next hq => exact of_decodeQ2 hq h
  cases h

/-! ## Presence -/

theorem restrict_eq_instr {c : Config} {d : Decoded} {i : Instr} :
    d.restrict c = .instr i ↔ d = .instr i ∧ i.present c = true := by
  cases d with
  | instr j =>
    simp only [Decoded.restrict, Decoded.instr.injEq]
    split
    next hp => rw [Decoded.instr.injEq]; exact ⟨fun e => ⟨e, e ▸ hp⟩, And.left⟩
    next hp => exact ⟨nofun, fun ⟨e, hi⟩ => absurd (e ▸ hi) hp⟩
  | illegal => simp only [Decoded.restrict]; split <;> simp
  | notInSpec => simp [Decoded.restrict]

theorem restrict_eq_illegal {c : Config} {d : Decoded} : d.restrict c = .illegal ↔ d = .illegal ∧ c.ext.c = true := by
  cases d with
  | instr j => simp only [Decoded.restrict]; split <;> simp
  | illegal => simp [Decoded.restrict]
  | notInSpec => simp [Decoded.restrict]

/-- Settles O3: each entry of the opcode map is reached only by the words its layout builds, and an entry with illegal
field values gives an instruction only for the others. -/
theorem encodeOfDecode : Obligations.EncodeOfDecode := by
  intro c w i h
  cases w with
  | half w =>
    obtain ⟨hi, hp⟩ := restrict_eq_instr.1 h
    obtain ⟨he, hw⟩ := of_decode16 hi
    exact ⟨he, hw, hp⟩
  | full w =>
    obtain ⟨hi, hp⟩ := restrict_eq_instr.1 h
    have hs : decode32 w = some i := by
      cases hd : decode32 w with
      | none => rw [hd] at hi; cases hi
      | some j => rw [hd] at hi; cases hi; rfl
    obtain ⟨he, hw⟩ := of_decode32 hs
    exact ⟨he, hw, hp⟩

end Sys2Proof
end

section
/-! PROOFS. The illegal words (30_encoding.md R101): the masks of the statement and the fields of the decoder are the same
cut of a 16-bit word, funct3 | bit 12 | bits 11:7 | bits 6:5 | bits 4:2 | quadrant. -/

namespace Sys2Proof

/-! ## Words by their fields -/

/-- A 16-bit word is its six fields. -/
theorem half_eq_iff (v u : BitVec 16) :
    v = u ↔ v.extractLsb' 13 3 = u.extractLsb' 13 3 ∧ v.extractLsb' 12 1 = u.extractLsb' 12 1 ∧
      v.extractLsb' 7 5 = u.extractLsb' 7 5 ∧ v.extractLsb' 5 2 = u.extractLsb' 5 2 ∧
      v.extractLsb' 2 3 = u.extractLsb' 2 3 ∧ v.extractLsb' 0 2 = u.extractLsb' 0 2 := by
  have hself : ∀ w : BitVec 16, w.extractLsb' 13 3 ++ w.extractLsb' 12 1 ++ w.extractLsb' 7 5 ++ w.extractLsb' 5 2 ++
      w.extractLsb' 2 3 ++ w.extractLsb' 0 2 = w := by
    intro w
    simp only [extract_append w (by rfl : 13 = 12 + 1), extract_append w (by rfl : 12 = 7 + 5),
      extract_append w (by rfl : 7 = 5 + 2), extract_append w (by rfl : 5 = 2 + 3), extract_append w (by rfl : 2 = 0 + 2),
      extract_all]
  constructor
  · rintro rfl; exact ⟨rfl, rfl, rfl, rfl, rfl, rfl⟩
  · rintro ⟨h0, h1, h2, h3, h4, h5⟩
    rw [← hself v, ← hself u, h0, h1, h2, h3, h4, h5]

/-- Under a mask, field by field. -/
theorem mask_eq_iff (v m u : BitVec 16) :
    v &&& m = u ↔ v.extractLsb' 13 3 &&& m.extractLsb' 13 3 = u.extractLsb' 13 3 ∧
      v.extractLsb' 12 1 &&& m.extractLsb' 12 1 = u.extractLsb' 12 1 ∧
      v.extractLsb' 7 5 &&& m.extractLsb' 7 5 = u.extractLsb' 7 5 ∧
      v.extractLsb' 5 2 &&& m.extractLsb' 5 2 = u.extractLsb' 5 2 ∧
      v.extractLsb' 2 3 &&& m.extractLsb' 2 3 = u.extractLsb' 2 3 ∧
      v.extractLsb' 0 2 &&& m.extractLsb' 0 2 = u.extractLsb' 0 2 := by
  rw [half_eq_iff]
  simp only [BitVec.extractLsb'_and]

theorem and_ones1 (b : BitVec 1) : b &&& 1#1 = b := by revert b; decide
theorem and_ones2 (b : BitVec 2) : b &&& 3#2 = b := by revert b; decide
theorem and_ones3 (b : BitVec 3) : b &&& 7#3 = b := by revert b; decide
theorem and_ones5 (b : BitVec 5) : b &&& 31#5 = b := by revert b; decide

/-! ## Immediates that are zero -/

theorem append_eq_zero_iff {m n : Nat} (a : BitVec m) (b : BitVec n) : a ++ b = 0#(m + n) ↔ a = 0#m ∧ b = 0#n := by
  constructor
  · intro h
    have ha := congrArg (BitVec.extractLsb' n m) h
    have hb := congrArg (BitVec.extractLsb' 0 n) h
    simp (disch := omega) only [BitVec.extractLsb'_append_eq_of_add_le, BitVec.extractLsb'_append_eq_of_le,
      Nat.sub_self, extract_all] at ha hb
    exact ⟨by simpa using ha, by simpa using hb⟩
  · rintro ⟨rfl, rfl⟩; simp

theorem cAddi4spnImm_eq_zero (w : BitVec 16) :
    cAddi4spnImm w = 0#8 ↔ w.extractLsb' 12 1 = 0#1 ∧ w.extractLsb' 7 5 = 0#5 ∧ w.extractLsb' 5 2 = 0#2 := by
  have h0 := extract_append w (s := 11) (m := 1) (n := 1) (k := 12) rfl
  have h1 := extract_append w (s := 7) (m := 1) (n := 4) (k := 11) rfl
  have h2 := extract_append w (s := 5) (m := 1) (n := 1) (k := 6) rfl
  unfold cAddi4spnImm
  rw [← h0, ← h1, ← h2]
  rw [append_eq_zero_iff, append_eq_zero_iff, append_eq_zero_iff, append_eq_zero_iff, append_eq_zero_iff,
    append_eq_zero_iff]
  tauto

theorem cImm6_eq_zero (w : BitVec 16) :
    cImm6 w = 0#6 ↔ w.extractLsb' 12 1 = 0#1 ∧ w.extractLsb' 5 2 = 0#2 ∧ w.extractLsb' 2 3 = 0#3 := by
  unfold cImm6
  rw [← extract_append w (s := 2) (m := 2) (n := 3) (k := 5) rfl, append_eq_zero_iff, append_eq_zero_iff]

theorem cAddi16spImm_eq_zero (w : BitVec 16) :
    cAddi16spImm w = 0#6 ↔ w.extractLsb' 12 1 = 0#1 ∧ w.extractLsb' 5 2 = 0#2 ∧ w.extractLsb' 2 3 = 0#3 := by
  unfold cAddi16spImm
  rw [← extract_append w (s := 5) (m := 1) (n := 1) (k := 6) rfl,
    ← extract_append w (s := 2) (m := 2) (n := 1) (k := 3) rfl, append_eq_zero_iff, append_eq_zero_iff,
    append_eq_zero_iff, append_eq_zero_iff, append_eq_zero_iff, append_eq_zero_iff]
  tauto

theorem rs2_eq_zero (w : BitVec 16) :
    w.extractLsb' 2 5 = 0#5 ↔ w.extractLsb' 5 2 = 0#2 ∧ w.extractLsb' 2 3 = 0#3 := by
  rw [← extract_append w (s := 2) (m := 2) (n := 3) (k := 5) rfl, append_eq_zero_iff]

/-! ## The illegal words of each quadrant -/

theorem decodeQ0_illegal (xl : XLen) (w : BitVec 16) :
    decodeQ0 xl w = .illegal ↔ w.extractLsb' 13 3 = 0#3 ∧ cAddi4spnImm w = 0#8 := by
  simp only [decodeQ0]
  split_ifs <;> cases xl <;> simp_all [unlessIllegal_eq_illegal]

theorem decodeQ1Arith_illegal (w : BitVec 16) : decodeQ1Arith w ≠ .illegal := by
  simp only [decodeQ1Arith]
  split_ifs <;> simp

theorem decodeQ1_illegal (xl : XLen) (w : BitVec 16) :
    decodeQ1 xl w = .illegal ↔ (w.extractLsb' 13 3 = 1#3 ∧ xl = .rv64 ∧ w.extractLsb' 7 5 = 0#5) ∨
      (w.extractLsb' 13 3 = 3#3 ∧ w.extractLsb' 7 5 = 2#5 ∧ cAddi16spImm w = 0#6) ∨
      (w.extractLsb' 13 3 = 3#3 ∧ w.extractLsb' 7 5 ≠ 2#5 ∧ cImm6 w = 0#6) := by
  simp only [decodeQ1]
  split_ifs <;> cases xl <;> simp_all [unlessIllegal_eq_illegal, decodeQ1Arith_illegal]

theorem decodeQ2_illegal (xl : XLen) (w : BitVec 16) :
    decodeQ2 xl w = .illegal ↔ w.extractLsb' 7 5 = 0#5 ∧ (w.extractLsb' 13 3 = 2#3 ∨ 
      (w.extractLsb' 13 3 = 3#3 ∧ xl = .rv64) ∨
      (w.extractLsb' 13 3 = 4#3 ∧ (w.extractLsb' 12 1 = 0#1 ↔ w.extractLsb' 2 5 = 0#5))) := by
  simp only [decodeQ2]
  split_ifs <;> cases xl <;> simp_all [unlessIllegal_eq_illegal]

theorem decode16_illegal (xl : XLen) (w : BitVec 16) :
    decode16 xl w = .illegal ↔ (w.extractLsb' 0 2 = 0#2 ∧ decodeQ0 xl w = .illegal) ∨
      (w.extractLsb' 0 2 = 1#2 ∧ decodeQ1 xl w = .illegal) ∨ (w.extractLsb' 0 2 = 2#2 ∧ decodeQ2 xl w = .illegal) := by
  simp only [decode16]
  split_ifs <;> simp_all

/-! ## The illegal words as masks -/

theorem q0_illegal_iff_mask (xl : XLen) (v : BitVec 16) :
    v.extractLsb' 0 2 = 0#2 ∧ decodeQ0 xl v = .illegal ↔ v &&& 0xFFE3 = 0x0000 := by
  rw [decodeQ0_illegal, mask_eq_iff, cAddi4spnImm_eq_zero]
  simp [and_ones1, and_ones2, and_ones3, and_ones5]
  tauto

theorem q1_illegal_iff_mask (xl : XLen) (v : BitVec 16) :
    v.extractLsb' 0 2 = 1#2 ∧ decodeQ1 xl v = .illegal ↔ (xl = .rv64 ∧ v &&& 0xEF83 = 0x2001) ∨ v = 0x6101 ∨
      (v &&& 0xF07F = 0x6001 ∧ v &&& 0x0F80 ≠ 0x0100) := by
  rw [decodeQ1_illegal, half_eq_iff v 0x6101]
  simp [mask_eq_iff, cAddi16spImm_eq_zero, cImm6_eq_zero, and_ones1, and_ones2, and_ones3, and_ones5]
  tauto

theorem q2_illegal_iff_mask (xl : XLen) (v : BitVec 16) :
    v.extractLsb' 0 2 = 2#2 ∧ decodeQ2 xl v = .illegal ↔ v &&& 0xEF83 = 0x4002 ∨
      (xl = .rv64 ∧ v &&& 0xEF83 = 0x6002) ∨ v = 0x8002 ∨ (v &&& 0xFF83 = 0x9002 ∧ v ≠ 0x9002) := by
  have hb : v.extractLsb' 12 1 = 1#1 ↔ ¬ v.extractLsb' 12 1 = 0#1 :=
    ⟨fun h => by rw [h]; decide, fun h => bitVec1_eq_one h⟩
  rw [decodeQ2_illegal, ne_eq, half_eq_iff v 0x8002, half_eq_iff v 0x9002]
  simp [mask_eq_iff, rs2_eq_zero, and_ones1, and_ones2, and_ones3, and_ones5, hb]
  tauto

/-- Settles O4: quadrant by quadrant, the masks are the field values that `unlessIllegal` refuses. -/
theorem illegalWords : Obligations.IllegalWords := by
  intro c w
  cases w with
  | half v =>
    have hd : decode c (.half v) = .illegal ↔ decode16 c.xlen v = .illegal ∧ c.ext.c = true := restrict_eq_illegal
    rw [hd, decode16_illegal, q0_illegal_iff_mask, q1_illegal_iff_mask, q2_illegal_iff_mask, and_comm]
    simp only [InstrWord.half.injEq, exists_eq_left', or_assoc]
  | full v =>
    have hd : decode c (.full v) ≠ .illegal := by
      intro h
      have := (restrict_eq_illegal.1 h).1
      cases hv : decode32 v <;> simp [hv] at this
    simp [hd]

end Sys2Proof
end

section
/-! PROOFS. The step (20_memory.md section 4, 30_encoding.md R108): fetch, its checks in order, and what follows it; the
sample words; instructions that are absent. -/

namespace Sys2Proof

/-! ## A word that decodes tells its own length (20_memory.md R56) -/

theorem low_of_decode32 {w : BitVec 32} {i : Instr} (h : decode32 w = some i) : w.extractLsb' 0 2 = 0b11#2 := by
  have hlow : w.extractLsb' 0 2 = (w.extractLsb' 0 7).extractLsb' 0 2 :=
    (BitVec.extractLsb'_extractLsb'_of_le (by omega)).symm
  rw [hlow]
  unfold decode32 at h
  simp only at h
  iterate 8
    split at h
    next hop => rw [hop]; rfl
  cases h

theorem low_of_decode16 {xl : XLen} {w : BitVec 16} (h : decode16 xl w ≠ .notInSpec) : w.extractLsb' 0 2 ≠ 0b11#2 := by
  intro hq
  exact h (by simp [decode16, hq])

/-- A word that decodes to an instruction is read back from its own bytes. -/
theorem wordOfBytes_of_decode {c : Config} {w : InstrWord} {i : Instr} (h : decode c w = .instr i) :
    wordOfBytes (bytesOfWord w) = some w := by
  rw [← List.append_nil (bytesOfWord w)]
  cases w with
  | half w =>
    obtain ⟨hi, -⟩ := restrict_eq_instr.1 h
    exact Laws.EncodingLength.of_half (low_of_decode16 (by rw [hi]; simp)) []
  | full w =>
    cases hd : decode32 w with
    | none => simp [decode, hd, Decoded.restrict] at h
    | some j => exact Laws.EncodingLength.of_full (low_of_decode32 hd) []

/-- Settles O1: twelve words, evaluated. -/
theorem sampleWordsDecode : Obligations.SampleWordsDecode := by
  unfold Obligations.SampleWordsDecode; decide

end Sys2Proof

namespace Sys2Proof.Machine

/-- Settles O5. -/
theorem primedRegisters : Obligations.PrimedRegisters := by
  unfold Obligations.PrimedRegisters; decide

/-! ## From a fetch to the step -/

theorem step_of_fetch_error {s : State} {e : Stop} (h : fetch s = .error e) : step s = stopOut s e := by
  unfold step; rw [h]

theorem step_of_instr {s : State} {w : InstrWord} {i : Instr} (h : fetch s = .ok w) (hd : decode s.cfg w = .instr i) :
    step s = exec i s := by
  unfold step; rw [h]; simp only [hd]

theorem step_of_illegal {s : State} {w : InstrWord} (h : fetch s = .ok w) (hd : decode s.cfg w = .illegal) :
    step s = raise s (.illegalInstruction w.bits) := by
  unfold step; rw [h]; simp only [hd]; rfl

theorem step_of_notInSpec {s : State} {w : InstrWord} (h : fetch s = .ok w) (hd : decode s.cfg w = .notInSpec) :
    step s = .refused (.notInSpec w) := by
  unfold step; rw [h]; simp only [hd]

/-- Settles O6: the fetch answers the word at pc, since a word that decodes tells its own length. -/
theorem stepRunsDecoded : Obligations.StepRunsDecoded := by
  intro s w i hw hd
  exact step_of_instr (fetch_holds hw (wordOfBytes_of_decode hd)) hd

/-- Settles O7. -/
theorem stepOnOtherWords : Obligations.StepOnOtherWords := by
  intro s w hw hb
  exact ⟨step_of_illegal (fetch_holds hw hb), step_of_notInSpec (fetch_holds hw hb)⟩

/-! ## The checks of one parcel -/

theorem all_inCode_iff {s : State} {a : Word} {n : Nat} (hn : n ≤ 8) :
    (accessBytes s.xl a n).all (Config.inCode s.cfg) = true ↔ InsideText s a n := by
  rw [List.all_eq_true]
  constructor
  · intro h i hi; exact h _ ((mem_accessBytes hn).2 ⟨i, hi, rfl⟩)
  · intro h b hb
    obtain ⟨i, hi, rfl⟩ := (mem_accessBytes hn).1 hb
    exact h i hi

theorem fetchParcel_fault {s : State} {a : Word} (h0 : a.toNat % 2 = 0) (h1 : memAdmit s.cfg a 2 .fetch = false) :
    fetchParcel s a = .error (.trap (.instructionAccessFault a)) := by
  unfold fetchParcel; rw [memRead_fault h0 h1]; rfl

theorem fetchParcel_outside {s : State} {a : Word} (h0 : a.toNat % 2 = 0) (h1 : memAdmit s.cfg a 2 .fetch = true)
    (h2 : ¬ InsideText s a 2) : fetchParcel s a = .error (.refuse .fetchOutsideCode) := by
  unfold fetchParcel
  rw [memRead_ok h0 h1]
  rw [← all_inCode_iff (by omega)] at h2
  simp only [if_neg h2]

/-- The low bits of the parcel at an address tell the length of the instruction there. -/
theorem isLong_peek (s : State) (a : Word) : isLong ((s.peek a 2).setWidth 16) = true ↔ valueAt s a 2 % 4 = 3 := by
  unfold isLong
  rw [beq_iff_eq, ← BitVec.toNat_inj, BitVec.extractLsb'_toNat, BitVec.toNat_setWidth, State.peek_toNat s a (by omega)]
  simp only [Nat.shiftRight_zero, BitVec.toNat_ofNat]
  omega

/-! ## The checks of a fetch -/

theorem fetch_misaligned {s : State} (h : s.readPc.toNat % s.cfg.ialignBytes ≠ 0) :
    fetch s = .error (.trap (.instructionAddressMisaligned s.readPc)) := by
  unfold fetch; rw [if_pos h]

theorem fetch_first_error {s : State} {e : Stop} (h : s.readPc.toNat % s.cfg.ialignBytes = 0)
    (he : fetchParcel s s.readPc = .error e) : fetch s = .error e := by
  unfold fetch; rw [if_neg (by simpa using h), he]

theorem fetch_second_error {s : State} {e : Stop} {lo : BitVec 16} (h : s.readPc.toNat % s.cfg.ialignBytes = 0)
    (hlo : fetchParcel s s.readPc = .ok lo) (hlong : isLong lo = true) (he : fetchParcel s (seqPc s 2) = .error e) :
    fetch s = .error e := by
  unfold fetch
  rw [if_neg (by simpa using h), hlo, secondParcel_eq]
  simp only [hlong, if_true, show xval s.xl (s.readPc.toNat + 2) = seqPc s 2 from rfl, he]

theorem seqPc_even {s : State} (h : s.readPc.toNat % 2 = 0) : (seqPc s 2).toNat % 2 = 0 := by
  have hx := xval_toNat s.xl (s.readPc.toNat + (2 : Nat))
  unfold seqPc
  rcases XLen.bits_cases s.xl with hb | hb <;> rw [hb] at hx <;> omega

/-- Settles O8: each check fails the fetch when those before it have passed. -/
theorem fetchChecks : Obligations.FetchChecks := by
  intro s
  refine ⟨fun h => step_of_fetch_error (fetch_misaligned h), fun h0 => ?_⟩
  have heven := even_of_ialign h0
  refine ⟨fun h1 => step_of_fetch_error (fetch_first_error h0 (fetchParcel_fault heven h1)), fun h1 => ?_⟩
  refine ⟨fun h2 => step_of_fetch_error (fetch_first_error h0 (fetchParcel_outside heven h1 h2)), fun h2 hlong => ?_⟩
  have hlo := fetchParcel_ok heven h1 h2
  have hlong' := (isLong_peek s s.readPc).2 hlong
  have heven' := seqPc_even heven
  refine ⟨fun h3 => ?_, fun h3 h4 => ?_⟩
  · exact step_of_fetch_error (fetch_second_error h0 hlo hlong' (fetchParcel_fault heven' h3))
  · exact step_of_fetch_error (fetch_second_error h0 hlo hlong' (fetchParcel_outside heven' h3 h4))

/-- Settles O9: the meaning of an instruction that may be absent begins with `ifPresent`; the others are never absent. -/
theorem absentInstructionsRefused : Obligations.AbsentInstructionsRefused := by
  intro i s h
  cases i
  case add | addi | and | andi | auipc | beq | bge | bgeu | blt | bltu | bne | csrrc | csrrci | csrrs | csrrsi | csrrw
    | csrrwi | ebreak | ecall => cases h
  all_goals exact ifPresent_absent h _

end Sys2Proof.Machine
end

section
/-! PROOFS. The invariants (10_state.md, 20_memory.md section 7): each write of the machine keeps the data invariant and
program text, so that a step that goes on does, whatever instruction or answer of env it is. -/

namespace Sys2Proof.Machine

/-! ## What a step that goes on can be -/

theorem of_stopOut_next {s t : State} {e : Stop} (h : stopOut s e = .next t) : ∃ x, raise s x = .next t := by
  cases e with
  | trap x => exact ⟨x, h⟩
  | refuse r => cases h

/-- A step that goes on is an instruction's meaning or an answer of env. -/
theorem of_step_next {s t : State} (h : step s = .next t) : (∃ i, exec i s = .next t) ∨ ∃ e, raise s e = .next t := by
  unfold step at h
  split at h
  · exact .inr (of_stopOut_next h)
  · split at h
    · exact .inl ⟨_, h⟩
    · exact .inr ⟨_, h⟩
    · cases h

/-- A step that goes on is the effect of some kind of instruction or an answer of env. -/
theorem of_step_goesOn {s t : State} (h : step s = .next t) : (∃ n k, Effect s t n k) ∨ ∃ e, raise s e = .next t := by
  obtain ⟨i, hi⟩ | he := of_step_next h
  · exact (of_exec_next i hi).imp_left fun he => ⟨_, _, he⟩
  · exact .inr he

/-- Where env stops every exception, an instruction that goes on does so by its own effect. -/
theorem effect_of_exec_next {i : Instr} {s t : State} (henv : s.cfg.env = []) (h : exec i s = .next t) :
    Effect s t (encode i).ilen (Instr.kind i) := by
  obtain he | ⟨e, he⟩ := of_exec_next i h
  · exact he
  · rw [raise_stop (envAnswer_none henv e)] at he
    cases he

/-! ## The data invariant under each write -/

theorem Inv.writePc {s : State} (h : Inv s) (v : Word) : Inv (s.writePc v) :=
  { h with pc := (wrap_wrap _ _).symm }

theorem Inv.advance {s : State} (h : Inv s) (n : Nat) : Inv (s.advance n) := h.writePc _

theorem Inv.tick {s : State} (h : Inv s) (n : Nat) : Inv { s with tick := n } := { h with }

theorem Inv.writeX {s : State} (h : Inv s) (r : Reg) (v : Word) : Inv (s.writeX r v) := by
  by_cases hr : r = 0
  · rw [hr]; exact h
  have e : s.writeX r v = { s with x := s.x.set r.toNat (wrap s.xl v) (by simpa using r.isLt) } := if_neg hr
  have hr0 : r.toNat ≠ 0 := fun h0 => hr (BitVec.eq_of_toNat_eq h0)
  rw [e]
  refine { h with zero := ?_, x := fun i => ?_ }
  · simpa [Vector.getElem_set_ne _ _ hr0] using h.zero
  · simp only [Fin.getElem_fin, Vector.getElem_set]
    split
    · exact (wrap_wrap _ _).symm
    · exact h.x i

theorem Inv.writeF {s : State} (h : Inv s) (r : Reg) (v : Word) : Inv (s.writeF r v) := by
  refine { h with f := fun i => ?_ }
  simp only [State.writeF_f, State.writeF_cfg, Fin.getElem_fin, Vector.getElem_set]
  split
  · exact (wrapF_wrapF _ _).symm
  · exact h.f i

theorem Inv.setCsr {s : State} (h : Inv s) (a : BitVec 12) (v : Word) : Inv (s.setCsr a v) := by
  obtain ⟨hwf, hbelow, hval⟩ := h.csrs
  refine { h with csrs := ⟨sparseWf_write hwf _ _, sparseBelow_write hbelow a.isLt _, fun e he => ?_⟩ }
  obtain rfl | he := mem_sparseWrite he
  · exact (wrap_wrap _ _).symm
  · exact hval e he

theorem Inv.setByte {s : State} (h : Inv s) {a : Nat} (ha : a < 2 ^ s.xl.bits) (b : Byte) : Inv (s.setByte a b) :=
  { h with mem := ⟨Memory.wf_write h.mem.1 a b, sparseBelow_write h.mem.2 ha b⟩ }

theorem Inv.applyWrites {s : State} (h : Inv s) (w : Writes) : Inv (s.applyWrites w) :=
  State.applyWrites_ind s w h (fun _ ht _ _ => ht.writeX _ _) (fun _ ht _ _ => ht.writeF _ _)
    (fun _ ht _ _ => ht.setCsr _ _) (fun _ ht _ _ => ht.setByte (wrap_lt _ _) _)

theorem Inv.continueWith {s : State} (h : Inv s) (a : EnvAnswer) : Inv (s.continueWith a) :=
  (h.applyWrites a.toWrites).writePc a.pc

theorem Inv.csrReach {s u : State} (h : Inv s) (hu : CsrReach s u) : Inv u :=
  hu Inv h (fun _ ht _ _ => ht.applyWrites _) (fun _ ht _ _ => ht.setCsr _ _) (fun _ ht _ => ht.tick _)

theorem Inv.poke {s : State} (h : Inv s) (a : Word) (n : Nat) (v : Word) : Inv (s.poke a n v) := by
  rw [State.poke_eq]
  exact { h with mem := ⟨State.poke_wf h.mem.1 a n v, State.poke_below h.mem.2 a n v⟩ }

theorem Inv.memWrite {s u : State} (h : Inv s) {a : Word} {n : Nat} {v : Word} (hu : memWrite s a n v = .ok u) :
    Inv u := by
  obtain ⟨-, -, -, rfl⟩ := of_memWrite_ok hu
  exact h.poke a n v

theorem Inv.effect {s t : State} (h : Inv s) {n : Nat} {k : Kind} (he : Effect s t n k) : Inv t := by
  cases k with
  | compute | load => obtain ⟨rd, v, rfl⟩ := he; exact (h.writeX rd v).advance n
  | floatLoad => obtain ⟨rd, v, rfl⟩ := he; exact (h.writeF rd v).advance n
  | store => obtain ⟨a, m, v, u, hu, rfl⟩ := he; exact (h.memWrite hu).advance n
  | atomic => obtain ⟨a, m, v, u, rd, w, hu, rfl⟩ := he; exact ((h.memWrite hu).writeX rd w).advance n
  | csr => obtain ⟨u, rd, v, hu, rfl⟩ := he; exact ((h.csrReach hu).writeX rd v).advance n
  | branch =>
    obtain rfl | ⟨target, -, rfl⟩ := he
    · exact h.advance n
    · exact h.writePc target
  | jump =>
    obtain ⟨-, rfl | ⟨rd, v, target, -, rfl⟩⟩ := he
    · exact h.advance n
    · exact (h.writeX rd v).writePc target
  | environment => exact he.elim

/-- Settles O53: the effect of every kind of instruction and every answer of env is made of writes that keep the data
invariant. -/
theorem invKeptByStep : Obligations.InvKeptByStep := by
  intro s t h hstep
  obtain ⟨n, k, he⟩ | ⟨e, he⟩ := of_step_goesOn hstep
  · exact h.effect he
  · obtain ⟨a, -, -, rfl⟩ := of_raise_next he
    exact h.continueWith a

/-! ## Program text and the parameters -/

/-- The parameters and program text are what they were. -/
def KeepsText (s t : State) : Prop := t.cfg = s.cfg ∧ ∀ b, Config.inCode s.cfg b = true → t.byte b = s.byte b

theorem KeepsText.refl (s : State) : KeepsText s s := ⟨rfl, fun _ _ => rfl⟩

theorem KeepsText.writePc {s t : State} (h : KeepsText s t) (v : Word) : KeepsText s (t.writePc v) := h

theorem KeepsText.advance {s t : State} (h : KeepsText s t) (n : Nat) : KeepsText s (t.advance n) := h

theorem KeepsText.writeF {s t : State} (h : KeepsText s t) (r : Reg) (v : Word) : KeepsText s (t.writeF r v) := h

theorem KeepsText.writeX {s t : State} (h : KeepsText s t) (r : Reg) (v : Word) : KeepsText s (t.writeX r v) :=
  ⟨(t.writeX_cfg r v).trans h.1, fun b hb => (t.byte_writeX r v b).trans (h.2 b hb)⟩

theorem KeepsText.of_memWrite {s u : State} {a : Word} {n : Nat} {v : Word} (hu : memWrite s a n v = .ok u) :
    KeepsText s u := by
  obtain ⟨-, -, hcode, rfl⟩ := of_memWrite_ok hu
  refine ⟨s.poke_cfg a n v, fun b hb => s.byte_poke_ne a n v fun hmem => ?_⟩
  exact List.any_eq_false.1 hcode b hmem hb

theorem KeepsText.of_csrReach {s u : State} (h : CsrReach s u) : KeepsText s u := h.keeps.2

theorem KeepsText.of_raise {s t : State} {e : Exception} (h : raise s e = .next t) : KeepsText s t := by
  obtain ⟨a, -, hcode, rfl⟩ := of_raise_next h
  exact ⟨s.continueWith_cfg a, fun b hb => s.continueWith_text a hcode hb⟩

theorem KeepsText.of_effect {s t : State} {n : Nat} {k : Kind} (he : Effect s t n k) : KeepsText s t := by
  cases k with
  | compute | load => obtain ⟨rd, v, rfl⟩ := he; exact ((refl s).writeX rd v).advance n
  | floatLoad => obtain ⟨rd, v, rfl⟩ := he; exact ((refl s).writeF rd v).advance n
  | store => obtain ⟨a, m, v, u, hu, rfl⟩ := he; exact (of_memWrite hu).advance n
  | atomic => obtain ⟨a, m, v, u, rd, w, hu, rfl⟩ := he; exact ((of_memWrite hu).writeX rd w).advance n
  | csr => obtain ⟨u, rd, v, hu, rfl⟩ := he; exact ((of_csrReach hu).writeX rd v).advance n
  | branch =>
    obtain rfl | ⟨target, -, rfl⟩ := he
    · exact (refl s).advance n
    · exact (refl s).writePc target
  | jump =>
    obtain ⟨-, rfl | ⟨rd, v, target, -, rfl⟩⟩ := he
    · exact (refl s).advance n
    · exact ((refl s).writeX rd v).writePc target
  | environment => exact he.elim

/-- Settles O55: a store is checked against code_region, an answer of env or a function of csr_model that reaches it is
refused, and nothing else writes memory or the parameters. -/
theorem programTextConstant : Obligations.ProgramTextConstant := by
  intro s t hstep
  obtain ⟨n, k, he⟩ | ⟨e, he⟩ := of_step_goesOn hstep
  · exact KeepsText.of_effect he
  · exact KeepsText.of_raise he

/-! ## The alignment of pc -/

/-- An instruction of a kind that does not write pc is followed by the next in sequence. -/
theorem Effect.readPc {s t : State} {n : Nat} {k : Kind} (he : Effect s t n k) (hn : n < 2 ^ 64)
    (hb : k ≠ .branch) (hj : k ≠ .jump) : t.readPc = seqPc s n := by
  have hseq : ∀ u : State, u.readPc = s.readPc → u.cfg = s.cfg → (u.advance n).readPc = seqPc s n := by
    intro u hpc hcfg
    rw [State.readPc_advance, u.advance_eq_seqPc hn, seqPc, hpc, State.xl, hcfg]; rfl
  cases k with
  | compute | load => obtain ⟨rd, v, rfl⟩ := he; exact hseq _ (by simp) (by simp)
  | floatLoad => obtain ⟨rd, v, rfl⟩ := he; exact hseq _ (by simp) (by simp)
  | store =>
    obtain ⟨a, m, v, u, hu, rfl⟩ := he
    obtain ⟨-, -, -, rfl⟩ := of_memWrite_ok hu
    exact hseq _ (by simp) (by simp)
  | atomic =>
    obtain ⟨a, m, v, u, rd, w, hu, rfl⟩ := he
    obtain ⟨-, -, -, rfl⟩ := of_memWrite_ok hu
    exact hseq _ (by simp) (by simp)
  | csr =>
    obtain ⟨u, rd, v, hu, rfl⟩ := he
    obtain ⟨hpc, hcfg, -⟩ := hu.keeps
    have hread : u.readPc = s.readPc := by rw [State.readPc, State.readPc, State.xl, hcfg, hpc]
    exact hseq _ (by simpa using hread) (by simpa using hcfg)
  | branch => exact absurd rfl hb
  | jump => exact absurd rfl hj
  | environment => exact he.elim

/-- A multiple of IALIGN/8 stays one modulo 2^XLEN. -/
theorem xval_aligned {c : Config} {z : Int} (h : z % c.ialignBytes = 0) :
    (xval c.xlen z).toNat % c.ialignBytes = 0 := by
  have hx := xval_toNat c.xlen z
  rcases XLen.bits_cases c.xlen with hb | hb <;> rcases ialignBytes_cases c with hc | hc <;> rw [hc] at h ⊢ <;>
    rw [hb] at hx <;> omega

theorem wrap_aligned {c : Config} {v : Word} (h : v.toNat % c.ialignBytes = 0) :
    (wrap c.xlen v).toNat % c.ialignBytes = 0 := by
  rw [wrap_eq_xval]
  exact xval_aligned (by exact_mod_cast h)

theorem seqPc_aligned {s : State} {n : Nat} (h : s.readPc.toNat % s.cfg.ialignBytes = 0)
    (hn : n % s.cfg.ialignBytes = 0) : (seqPc s n).toNat % s.cfg.ialignBytes = 0 := by
  refine xval_aligned (c := s.cfg) ?_
  have : (s.readPc.toNat + n) % s.cfg.ialignBytes = 0 := by rw [Nat.add_mod, h, hn]; simp
  exact_mod_cast this

/-- A 16-bit instruction is present with C only (30_encoding.md R102). -/
theorem ilen_aligned {c : Config} {i : Instr} (hp : i.present c = true) : (encode i).ilen % c.ialignBytes = 0 := by
  have hc : c.ext.c = true → c.ialignBytes = 2 := fun h => by rw [Config.ialignBytes, if_pos h]
  have h4 : 4 % c.ialignBytes = 0 := by rcases ialignBytes_cases c with h | h <;> rw [h]
  have h2 : c.ext.c = true → 2 % c.ialignBytes = 0 := fun h => by rw [hc h]
  cases i
  case cFld | cFsd | cFldsp | cFsdsp | cJal | cLd | cSd | cLdsp | cSdsp | cAddiw | cSubw | cAddw =>
    exact h2 (Bool.and_eq_true _ _ ▸ hp).1
  case cFlw | cFsw | cFlwsp | cFswsp =>
    exact h2 (Bool.and_eq_true _ _ ▸ (Bool.and_eq_true _ _ ▸ hp).1).1
  case cAddi4spn | cLw | cSw | cAddi | cLi | cAddi16sp | cLui | cSrli | cSrai | cAndi | cSub | cXor | cOr | cAnd | cJ
    | cBeqz | cBnez | cSlli | cLwsp | cJr | cMv | cEbreak | cJalr | cAdd | cSwsp => exact h2 hp
  all_goals exact h4

theorem ilen_le (w : InstrWord) : w.ilen < 2 ^ 64 := by cases w <;> simp [InstrWord.ilen]

/-- An instruction that goes on is present. -/
theorem present_of_exec_next {i : Instr} {s t : State} (h : exec i s = .next t) : i.present s.cfg = true := by
  by_contra hp
  rw [absentInstructionsRefused i s (by simpa using hp)] at h
  cases h

theorem Effect.readPc_aligned {s t : State} {n : Nat} {k : Kind} (he : Effect s t n k) (hn : n < 2 ^ 64)
    (hpc : s.readPc.toNat % s.cfg.ialignBytes = 0) (hlen : n % s.cfg.ialignBytes = 0) :
    t.readPc.toNat % s.cfg.ialignBytes = 0 := by
  have hadv : (s.advance n).readPc.toNat % s.cfg.ialignBytes = 0 := by
    rw [State.readPc_advance, s.advance_eq_seqPc hn]
    exact seqPc_aligned hpc hlen
  by_cases hb : k = .branch
  · subst hb
    obtain rfl | ⟨target, ht, rfl⟩ := he
    · exact hadv
    · rw [State.readPc_writePc]; exact wrap_aligned ht
  by_cases hj : k = .jump
  · subst hj
    obtain ⟨hc, rfl | ⟨rd, v, target, ht, rfl⟩⟩ := he
    · exact hadv
    · have h2 : s.cfg.ialignBytes = 2 := by rw [Config.ialignBytes, if_pos hc]
      rw [State.readPc_writePc, State.xl, State.writeX_cfg]
      exact wrap_aligned (by rw [h2] at hpc ⊢; exact ht hpc)
  rw [he.readPc hn hb hj]
  exact seqPc_aligned hpc hlen

theorem raise_readPc_aligned {s t : State} {e : Exception} (h : raise s e = .next t) (henv : EnvAligned s.cfg)
    (hpc : s.readPc.toNat % s.cfg.ialignBytes = 0) : t.readPc.toNat % s.cfg.ialignBytes = 0 := by
  obtain ⟨a, ha, -, rfl⟩ := of_raise_next h
  rw [State.continueWith_readPc]
  exact henv s e a rfl hpc ha

/-- Settles O54: going on by the length of a present instruction keeps pc aligned, a branch checks its target, with C a
jump's target is even, and env's answers are aligned by hypothesis. -/
theorem pcAlignedKeptByStep : Obligations.PcAlignedKeptByStep := by
  intro s t ⟨hpc, henv⟩ hstep
  have hcfg : t.cfg = s.cfg := (programTextConstant s t hstep).1
  refine ⟨?_, by rw [hcfg]; exact henv⟩
  rw [hcfg]
  obtain ⟨i, hi⟩ | ⟨e, he⟩ := of_step_next hstep
  · obtain he | ⟨e, he⟩ := of_exec_next i hi
    · exact he.readPc_aligned (ilen_le _) hpc (ilen_aligned (present_of_exec_next hi))
    · exact raise_readPc_aligned he henv hpc
  · exact raise_readPc_aligned he henv hpc

/-- Settles O50: where env stops, only a branch or a compressed jump or branch writes another pc. -/
theorem sequentialPc : Obligations.SequentialPc := by
  intro i s t henv h hb hj
  exact (effect_of_exec_next henv h).readPc (ilen_le _) hb hj

/-! ## Which kind of instruction writes what -/

theorem Effect.same_csrs {s t : State} {n : Nat} {k : Kind} (he : Effect s t n k) (hk : k ≠ .csr) :
    SameCsrs s t ∧ t.tick = s.tick := by
  cases k with
  | csr => exact absurd rfl hk
  | environment => exact he.elim
  | compute | load => obtain ⟨rd, v, rfl⟩ := he; exact ⟨fun a => by simp, by simp⟩
  | floatLoad => obtain ⟨rd, v, rfl⟩ := he; exact ⟨fun a => by simp, by simp⟩
  | store =>
    obtain ⟨a, m, v, u, hu, rfl⟩ := he
    obtain ⟨-, -, -, rfl⟩ := of_memWrite_ok hu
    exact ⟨fun a => by simp, by simp⟩
  | atomic =>
    obtain ⟨a, m, v, u, rd, w, hu, rfl⟩ := he
    obtain ⟨-, -, -, rfl⟩ := of_memWrite_ok hu
    exact ⟨fun a => by simp, by simp⟩
  | branch => obtain rfl | ⟨target, -, rfl⟩ := he <;> exact ⟨fun a => by simp, by simp⟩
  | jump => obtain ⟨-, rfl | ⟨rd, v, target, -, rfl⟩⟩ := he <;> exact ⟨fun a => by simp, by simp⟩

theorem Effect.same_mem {s t : State} {n : Nat} {k : Kind} (he : Effect s t n k) (ha : k ≠ .atomic) (hs : k ≠ .store)
    (hc : k ≠ .csr) : SameMem s t := by
  cases k with
  | csr => exact absurd rfl hc
  | store => exact absurd rfl hs
  | atomic => exact absurd rfl ha
  | environment => exact he.elim
  | compute | load => obtain ⟨rd, v, rfl⟩ := he; exact fun b => by simp
  | floatLoad => obtain ⟨rd, v, rfl⟩ := he; exact fun b => by simp
  | branch => obtain rfl | ⟨target, -, rfl⟩ := he <;> exact fun b => by simp
  | jump => obtain ⟨-, rfl | ⟨rd, v, target, -, rfl⟩⟩ := he <;> exact fun b => by simp

theorem Effect.same_f {s t : State} {n : Nat} {k : Kind} (he : Effect s t n k) (hf : k ≠ .floatLoad) (hc : k ≠ .csr) :
    SameF s t := by
  cases k with
  | csr => exact absurd rfl hc
  | floatLoad => exact absurd rfl hf
  | environment => exact he.elim
  | compute | load => obtain ⟨rd, v, rfl⟩ := he; exact fun b => by simp
  | store =>
    obtain ⟨a, m, v, u, hu, rfl⟩ := he
    obtain ⟨-, -, -, rfl⟩ := of_memWrite_ok hu
    exact fun b => by simp
  | atomic =>
    obtain ⟨a, m, v, u, rd, w, hu, rfl⟩ := he
    obtain ⟨-, -, -, rfl⟩ := of_memWrite_ok hu
    exact fun b => by simp
  | branch => obtain rfl | ⟨target, -, rfl⟩ := he <;> exact fun b => by simp
  | jump => obtain ⟨-, rfl | ⟨rd, v, target, -, rfl⟩⟩ := he <;> exact fun b => by simp

/-- A CSR instruction in which no function of csr_model takes part changes the CSR file, x[rd] and pc. -/
theorem exec_plainCsr_next {i : Instr} {s t : State} (henv : s.cfg.env = []) (h : exec i s = .next t)
    (hk : Instr.kind i = .csr) (hp : PlainCsr i s) :
    ∃ cs rd v, t = (({ s with csrs := cs } : State).writeX rd v).advance 4 := by
  obtain ⟨rd, a, doRead, doWrite, new, hops⟩ := csrOperands_of_kind s hk
  rw [exec_csrOperands hops] at h
  obtain ⟨v, u, hacc, -, rfl⟩ | hraise := of_csrInstr_next h
  · obtain ⟨cs, rfl⟩ := csrAccess_plain (hp _ _ _ _ _ hops) hacc
    exact ⟨cs, rd, v, rfl⟩
  · rw [raise_stop (envAnswer_none henv _)] at hraise
    cases hraise

/-- Settles O48: only the kind csr reaches the CSR file or the count of accesses. -/
theorem onlyCsrInstructionsReachCsrs : Obligations.OnlyCsrInstructionsReachCsrs := by
  intro i s t henv h hk
  exact (effect_of_exec_next henv h).same_csrs hk

/-- Settles O47: the kinds atomic and store write memory; a plain CSR is not in it. -/
theorem onlyStoresWriteMemory : Obligations.OnlyStoresWriteMemory := by
  intro i s t henv h ha hs hp
  by_cases hk : Instr.kind i = .csr
  · obtain ⟨cs, rd, v, rfl⟩ := exec_plainCsr_next henv h hk hp
    exact fun b => by rw [State.byte_advance, State.byte_writeX]; rfl
  · exact (effect_of_exec_next henv h).same_mem ha hs hk

/-- Settles O49: the kind floatLoad writes an f register; a plain CSR is not in the f file. -/
theorem onlyFloatLoadsWriteF : Obligations.OnlyFloatLoadsWriteF := by
  intro i s t henv h hf hp
  by_cases hk : Instr.kind i = .csr
  · obtain ⟨cs, rd, v, rfl⟩ := exec_plainCsr_next henv h hk hp
    exact fun r => by rw [State.readF_advance, State.readF_writeX]; rfl
  · exact (effect_of_exec_next henv h).same_f hf hk

/-! ## Reset -/

/-- Settles O52. -/
theorem invAtReset : Obligations.InvAtReset := by
  refine ⟨⟨by decide, by decide, by decide, by decide, by decide, by decide, by decide⟩, by decide, ?_⟩
  intro u e a hc _ ha
  rw [envAnswer_none (by rw [hc]; rfl)] at ha
  cases ha

end Sys2Proof.Machine
end

section
/-! PROOFS. State and memory (10_state.md, 20_memory.md section 1): x[0], memories in canonical form, accesses of mixed
widths. -/

namespace Sys2Proof.Machine

/-- Settles O44. -/
theorem zeroRegister : Obligations.ZeroRegister := fun s v => ⟨s.readX_zero, s.writeX_zero v⟩

/-! ## Canonical maps are determined by what they read as -/

section
variable {w : Nat}

/-- The first entry of a canonical map is where it first reads as something else than zero. -/
theorem sparseRead_head {k : Nat} {v : BitVec w} {rest : List (Nat × BitVec w)} : sparseRead ((k, v) :: rest) k = v :=
  if_pos rfl

theorem sparseRead_before {k a : Nat} {v : BitVec w} {rest : List (Nat × BitVec w)}
    (h : sparseWf ((k, v) :: rest) = true) (ha : a < k) : sparseRead ((k, v) :: rest) a = 0 := by
  obtain ⟨-, hrest⟩ := sparseWf_above h k v rest rfl
  rw [sparseRead, if_neg (by omega), sparseRead_of_above (by omega) hrest]

/-- Of two canonical maps that read alike neither begins before the other. -/
theorem sparse_head_le {k k' : Nat} {v v' : BitVec w} {rest rest' : List (Nat × BitVec w)}
    (h : sparseWf ((k, v) :: rest) = true) (h' : sparseWf ((k', v') :: rest') = true)
    (heq : ∀ a, sparseRead ((k, v) :: rest) a = sparseRead ((k', v') :: rest') a) : k' ≤ k := by
  by_contra hlt
  obtain ⟨hv, -⟩ := sparseWf_above h k v rest rfl
  have := heq k
  rw [sparseRead_head, sparseRead_before h' (by omega)] at this
  exact hv this

theorem sparse_ext {m m' : List (Nat × BitVec w)} (h : sparseWf m = true) (h' : sparseWf m' = true)
    (heq : ∀ a, sparseRead m a = sparseRead m' a) : m = m' := by
  induction m generalizing m' with
  | nil =>
    cases m' with
    | nil => rfl
    | cons e rest =>
      obtain ⟨k, v⟩ := e
      obtain ⟨hv, -⟩ := sparseWf_above h' k v rest rfl
      exact absurd ((heq k).trans sparseRead_head).symm hv
  | cons e rest ih =>
    obtain ⟨k, v⟩ := e
    obtain ⟨hv, hrest⟩ := sparseWf_above h k v rest rfl
    cases m' with
    | nil => exact absurd (sparseRead_head.symm.trans (heq k)) hv
    | cons e' rest' =>
      obtain ⟨k', v'⟩ := e'
      obtain ⟨-, hrest'⟩ := sparseWf_above h' k' v' rest' rfl
      obtain rfl : k = k' := le_antisymm (sparse_head_le h' h fun a => (heq a).symm) (sparse_head_le h h' heq)
      obtain rfl : v = v' := sparseRead_head.symm.trans ((heq k).trans sparseRead_head)
      rw [ih (sparseWf_of_above hrest) (sparseWf_of_above hrest') fun a => ?_]
      by_cases ha : k = a
      · rw [sparseRead_of_above (by omega) hrest, sparseRead_of_above (by omega) hrest']
      · simpa only [sparseRead, if_neg ha] using heq a

end

/-- Settles O46: canonical maps that read alike begin at the same address with the same value, and so do their rests. -/
theorem canonicalMemoryUnique : Obligations.CanonicalMemoryUnique := fun _ _ h h' heq => sparse_ext h h' heq

/-! ## The number at an address, from the bytes there -/

/-- Bytes that are consecutive slices of a value, from byte `k` on, are that part of it. -/
theorem littleEndian_slices (v : Word) (n k : Nat) {f : Nat → Byte}
    (hf : ∀ i, i < n → f i = v.extractLsb' (8 * (k + i)) 8) :
    littleEndian ((List.range n).map f) = v.toNat / 2 ^ (8 * k) % 2 ^ (8 * n) := by
  induction n generalizing k f with
  | zero => simp [littleEndian, Nat.mod_one]
  | succ n ih =>
    have htail := ih (k + 1) (f := f ∘ Nat.succ) fun i hi => by
      rw [Function.comp, hf _ (by omega)]; congr 2; omega
    rw [List.range_succ_eq_map, List.map_cons, List.map_map, littleEndian, htail, hf 0 (by omega),
      BitVec.extractLsb'_toNat, Nat.shiftRight_eq_div_pow, Nat.add_zero, Nat.mul_add, Nat.mul_add, Nat.pow_add,
      Nat.pow_add, ← Nat.div_div_eq_div_mul, Nat.mul_comm (2 ^ (8 * n))]
    exact (Nat.mod_mul (x := v.toNat / 2 ^ (8 * k)) (a := 2 ^ 8) (b := 2 ^ (8 * n))).symm

/-- The number that stored bytes are, from byte `k` of the store on. -/
theorem valueAt_of_storedAt {s t : State} {a : Word} {m : Nat} {v : Word} (h : StoredAt s t a m v)
    (hcfg : t.cfg = s.cfg) {b : Word} {n k : Nat} (hk : k + n ≤ m)
    (hb : ∀ i : Nat, xval s.xl (b.toNat + i) = xval s.xl (a.toNat + (k + i : Nat))) :
    valueAt t b n = v.toNat / 2 ^ (8 * k) % 2 ^ (8 * n) := by
  refine littleEndian_slices v n k fun i hi => ?_
  rw [State.xl, hcfg, hb, h.1 (k + i) (by omega)]

theorem xval_second (xl : XLen) (a : Word) (k i : Nat) :
    xval xl ((xval xl (a.toNat + k)).toNat + i) = xval xl (a.toNat + (k + i : Nat)) := by
  rw [xval_xval_add, Nat.cast_add, add_assoc]

/-- Bytes that are the same hold the same number. -/
theorem valueAt_congr {s t : State} {a : Word} {n : Nat} (hcfg : t.cfg = s.cfg)
    (h : ∀ i : Nat, i < n → t.byte (xval s.xl (a.toNat + i)).toNat = s.byte (xval s.xl (a.toNat + i)).toNat) :
    valueAt t a n = valueAt s a n := by
  unfold valueAt
  congr 1
  refine List.map_congr_left fun i hi => ?_
  rw [State.xl, hcfg]
  exact h i (List.mem_range.1 hi)

/-- A doubleword is its two words. -/
theorem valueAt_eight (s : State) (a : Word) :
    valueAt s a 8 = valueAt s a 4 + 2 ^ 32 * valueAt s (xval s.xl (a.toNat + 4)) 4 := by
  have h := xval_second s.xl a 4
  simp only [Nat.cast_ofNat] at h
  simp only [valueAt, List.range, List.range.loop, List.map_cons, List.map_nil, littleEndian, h]
  simp only [Nat.reduceAdd]
  ring

/-- Settles O45: a store leaves the slices of its value byte by byte, and the two words of a doubleword do not overlap. -/
theorem mixedWidths : Obligations.MixedWidths := by
  intro s a hwf
  refine ⟨fun v hv => ?doubleThenWords, fun lo hi hlo hhi => ?wordsThenDouble, fun p ha hp => ?parcel⟩
  case doubleThenWords =>
    have hst := State.storedAt_poke hwf a (n := 8) le_rfl v
    refine ⟨_, memWrite_ok le_rfl hv v, ?_, ?_⟩
    · have := valueAt_of_storedAt hst (s.poke_cfg a 8 v) (b := a) (n := 4) (k := 0) (by omega) fun i => by simp
      simpa using this
    · have := valueAt_of_storedAt hst (s.poke_cfg a 8 v) (n := 4) (k := 4) (by omega) (xval_second s.xl a 4)
      have hlt := v.isLt
      refine this.trans (Nat.mod_eq_of_lt ?_)
      omega
  case wordsThenDouble =>
    have hcfg := s.poke_cfg a 4 lo
    have hst := State.storedAt_poke hwf a (n := 4) (by omega) lo
    have hhi' : StoreOk (s.poke a 4 lo) (xval s.xl (a.toNat + 4)) 4 := by
      unfold StoreOk OutsideText State.xl
      rw [hcfg]
      exact hhi
    have hst' := State.storedAt_poke (State.poke_wf hwf a 4 lo) (xval s.xl (a.toNat + 4)) (n := 4) (by omega) hi
    refine ⟨_, _, memWrite_ok (by omega) hlo lo, memWrite_ok (by omega) hhi' hi, ?_⟩
    have hlow : valueAt ((s.poke a 4 lo).poke (xval s.xl (a.toNat + 4)) 4 hi) a 4 = lo.toNat % 2 ^ 32 := by
      rw [valueAt_congr (State.poke_cfg ..) fun i hi' => hst'.2 _ fun j hj => ?_]
      · simpa using valueAt_of_storedAt hst hcfg (b := a) (n := 4) (k := 0) (by omega) fun i => by simp
      · have hxl : (s.poke a 4 lo).xl = s.xl := by rw [State.xl, hcfg]
        rw [hxl, show (4 : Int) = (4 : Nat) from rfl, xval_second s.xl a 4 j]
        intro heq
        have := xval_add_inj s.xl a.toNat (i := i) (j := 4 + j) (by omega) (by omega) heq
        omega
    have hhigh : valueAt ((s.poke a 4 lo).poke (xval s.xl (a.toNat + 4)) 4 hi) (xval s.xl (a.toNat + 4)) 4 =
        hi.toNat % 2 ^ 32 := by
      simpa using valueAt_of_storedAt hst' (State.poke_cfg ..) (b := xval s.xl (a.toNat + 4)) (n := 4) (k := 0)
        (by omega) fun i => by simp
    have hxl : ((s.poke a 4 lo).poke (xval s.xl (a.toNat + 4)) 4 hi).xl = s.xl := by
      rw [State.xl, State.poke_cfg, hcfg]
    rw [valueAt_eight, hxl, hlow, hhigh]
  case parcel =>
    obtain ⟨-, -, -, rfl⟩ := of_fetchParcel_ok hp
    rw [peek_two, xval_of_lt ha]; rfl

end Sys2Proof.Machine
end

section
/-! PROOFS. The state that writes make (60_exceptions.md R283, 10_state.md R30): the last write to a place counts, whether
env or a function of csr_model makes it; and the three instructions that only raise (47_environment.md). -/

namespace Sys2Proof.Machine

/-! ## The environment instructions -/

/-- Settles O40: the meaning of each is `raise`, whose three answers are env's. -/
theorem environmentInstructions : Obligations.EnvironmentInstructions := by
  intro s i e hi
  have hraise : exec i s = raise s e := by
    obtain ⟨rfl, rfl⟩ | ⟨rfl, rfl⟩ | ⟨rfl, rfl, hc⟩ := hi
    · rfl
    · rfl
    · exact ifPresent_of (i := .cEbreak) hc _
  rw [hraise]
  exact ⟨raise_stop, fun a ha => ⟨raise_continue ha, raise_text ha⟩⟩

/-! ## The last write to a place -/

/-- What one place holds after a list of writes, of which each gives its own place a value: the last value, or what it
held. `P` is what the writes keep and a write needs. -/
theorem foldl_writes {α κ β : Type} [DecidableEq κ] {g : State → α → State} {get : State → β} {key : α → κ}
    {val : α → β} {k : κ} {P : State → Prop} (hP : ∀ t e, P t → P (g t e))
    (hg : ∀ t e, P t → get (g t e) = if k = key e then val e else get t) {s : State} (hs : P s) (l : List α) :
    get (l.foldl g s) = ((l.map fun e => (key e, val e)).reverse.lookup k).getD (get s) := by
  induction l using List.reverseRecOn with
  | nil => rfl
  | append_singleton l e ih =>
    have hl : P (l.foldl g s) := by
      clear ih
      induction l generalizing s with
      | nil => exact hs
      | cons d l ihl => exact ihl (hP _ _ hs)
    rw [List.foldl_append, List.foldl_cons, List.foldl_nil, hg _ _ hl, List.map_append, List.reverse_append, ih]
    by_cases h : k = key e
    · simp [h]
    · have hk : (k == key e) = false := by simpa using h
      simp [h, List.lookup, hk]

/-- Narrowing every value written narrows the value found. -/
theorem lookup_reverse_map {κ α β : Type} [BEq κ] (f : α → β) (k : κ) (l : List (κ × α)) :
    (l.map fun e => (e.1, f e.2)).reverse.lookup k = (l.reverse.lookup k).map f := by
  rw [← List.map_reverse]
  induction l.reverse with
  | nil => rfl
  | cons e l ih =>
    simp only [List.map_cons, List.lookup]
    split
    · rfl
    · exact ih

/-- What a list of writes leaves alone. -/
theorem foldl_keeps {α β : Type} {g : State → α → State} {get : State → β} (hg : ∀ t e, get (g t e) = get t)
    (s : State) (l : List α) : get (l.foldl g s) = get s := by
  induction l generalizing s with
  | nil => rfl
  | cons e l ih => exact (ih _).trans (hg s e)

/-! ## The four lists of writes -/

/-- The writes to x, in order. -/
def State.writeXs (s : State) (l : List (Reg × Word)) : State := l.foldl (fun t e => t.writeX e.1 e.2) s

/-- The writes to f, in order. -/
def State.writeFs (s : State) (l : List (Reg × Word)) : State := l.foldl (fun t e => t.writeF e.1 e.2) s

/-- The writes to the CSR file, in order. -/
def State.setCsrs (s : State) (l : List (BitVec 12 × Word)) : State := l.foldl (fun t e => t.setCsr e.1 e.2) s

/-- The writes to memory, in order. -/
def State.setCells (s : State) (l : List (Word × Byte)) : State :=
  l.foldl (fun t e => t.setByte (wrap t.xl e.1).toNat e.2) s

theorem State.applyWrites_eq (s : State) (w : Writes) :
    s.applyWrites w = (((s.writeXs w.x).writeFs w.f).setCsrs w.csrs).setCells w.mem := rfl

@[simp] theorem State.writeXs_cfg (s : State) (l : List (Reg × Word)) : (s.writeXs l).cfg = s.cfg :=
  foldl_keeps (get := State.cfg) (fun _ _ => State.writeX_cfg ..) s l
@[simp] theorem State.writeXs_csrs (s : State) (l : List (Reg × Word)) : (s.writeXs l).csrs = s.csrs :=
  foldl_keeps (get := State.csrs) (fun _ _ => State.writeX_csrs ..) s l
@[simp] theorem State.writeXs_mem (s : State) (l : List (Reg × Word)) : (s.writeXs l).mem = s.mem :=
  foldl_keeps (get := State.mem) (fun _ _ => State.writeX_mem ..) s l
@[simp] theorem State.readF_writeXs (s : State) (l : List (Reg × Word)) (r : Reg) : (s.writeXs l).readF r = s.readF r :=
  foldl_keeps (get := fun t => t.readF r) (fun _ _ => State.readF_writeX ..) s l
@[simp] theorem State.writeFs_cfg (s : State) (l : List (Reg × Word)) : (s.writeFs l).cfg = s.cfg :=
  foldl_keeps (get := State.cfg) (fun _ _ => State.writeF_cfg ..) s l
@[simp] theorem State.writeFs_csrs (s : State) (l : List (Reg × Word)) : (s.writeFs l).csrs = s.csrs :=
  foldl_keeps (get := State.csrs) (fun _ _ => State.writeF_csrs ..) s l
@[simp] theorem State.writeFs_mem (s : State) (l : List (Reg × Word)) : (s.writeFs l).mem = s.mem :=
  foldl_keeps (get := State.mem) (fun _ _ => State.writeF_mem ..) s l
@[simp] theorem State.readX_writeFs (s : State) (l : List (Reg × Word)) (r : Reg) : (s.writeFs l).readX r = s.readX r :=
  foldl_keeps (get := fun t => t.readX r) (fun _ _ => State.readX_writeF ..) s l
@[simp] theorem State.setCsrs_cfg (s : State) (l : List (BitVec 12 × Word)) : (s.setCsrs l).cfg = s.cfg :=
  foldl_keeps (get := State.cfg) (fun _ _ => State.setCsr_cfg ..) s l
@[simp] theorem State.setCsrs_mem (s : State) (l : List (BitVec 12 × Word)) : (s.setCsrs l).mem = s.mem :=
  foldl_keeps (get := State.mem) (fun _ _ => State.setCsr_mem ..) s l
@[simp] theorem State.readX_setCsrs (s : State) (l : List (BitVec 12 × Word)) (r : Reg) :
    (s.setCsrs l).readX r = s.readX r := foldl_keeps (get := fun t => t.readX r) (fun _ _ => State.readX_setCsr ..) s l
@[simp] theorem State.readF_setCsrs (s : State) (l : List (BitVec 12 × Word)) (r : Reg) :
    (s.setCsrs l).readF r = s.readF r := foldl_keeps (get := fun t => t.readF r) (fun _ _ => State.readF_setCsr ..) s l
@[simp] theorem State.readX_setCells (s : State) (l : List (Word × Byte)) (r : Reg) :
    (s.setCells l).readX r = s.readX r := foldl_keeps (get := fun t => t.readX r) (fun _ _ => State.readX_setByte ..) s l
@[simp] theorem State.readF_setCells (s : State) (l : List (Word × Byte)) (r : Reg) :
    (s.setCells l).readF r = s.readF r := foldl_keeps (get := fun t => t.readF r) (fun _ _ => State.readF_setByte ..) s l
@[simp] theorem State.csr_setCells (s : State) (l : List (Word × Byte)) (a : BitVec 12) :
    (s.setCells l).csr a = s.csr a := foldl_keeps (get := fun t => t.csr a) (fun _ _ => State.csr_setByte ..) s l

theorem State.csr_congr {s t : State} (hc : t.csrs = s.csrs) (hcfg : t.cfg = s.cfg) (a : BitVec 12) :
    t.csr a = s.csr a := by
  unfold State.csr State.xl; rw [hc, hcfg]

theorem State.byte_congr {s t : State} (hm : t.mem = s.mem) (a : Nat) : t.byte a = s.byte a := by
  unfold State.byte; rw [hm]

theorem State.readX_writeXs (s : State) (l : List (Reg × Word)) (r : Reg) :
    (s.writeXs l).readX r = if r = 0 then 0 else ((l.reverse.lookup r).map (wrap s.xl)).getD (s.readX r) := by
  by_cases hr : r = 0
  · rw [hr]; rfl
  rw [if_neg hr, ← lookup_reverse_map]
  refine foldl_writes (get := fun t => t.readX r) (P := fun t => t.cfg = s.cfg) (fun t e ht => by simpa using ht)
    (fun t e ht => ?_) rfl l
  rw [State.readX_writeX, State.xl, ht]
  by_cases h : r = e.1
  · rw [if_pos ⟨h, h ▸ hr⟩, if_pos h]
  · rw [if_neg (fun h' => h h'.1), if_neg h]

theorem State.readF_writeFs (s : State) (l : List (Reg × Word)) (r : Reg) :
    (s.writeFs l).readF r = ((l.reverse.lookup r).map (wrapF s.cfg)).getD (s.readF r) := by
  rw [← lookup_reverse_map]
  exact foldl_writes (g := fun t e => t.writeF e.1 e.2) (get := fun t => t.readF r)
    (P := fun t => t.cfg = s.cfg) (fun t e ht => ht)
    (fun t e ht => by rw [State.readF_writeF, ht]) rfl l

theorem State.csr_setCsrs {s : State} (h : sparseWf s.csrs = true) (l : List (BitVec 12 × Word)) (c : BitVec 12) :
    (s.setCsrs l).csr c = ((l.reverse.lookup c).map (wrap s.xl)).getD (s.csr c) := by
  rw [← lookup_reverse_map]
  exact foldl_writes (g := fun t e => t.setCsr e.1 e.2) (get := fun t => t.csr c)
    (P := fun t => t.cfg = s.cfg ∧ sparseWf t.csrs = true)
    (fun t e ht => ⟨ht.1, State.setCsr_wf ht.2 _ _⟩) (fun t e ht => by rw [State.csr_setCsr ht.2, State.xl, ht.1])
    ⟨rfl, h⟩ l

theorem State.byte_setCells {s : State} (h : Memory.wf s.mem = true) (l : List (Word × Byte)) (b : Word) :
    (s.setCells l).byte (wrap s.xl b).toNat =
      ((l.map fun e => (wrap s.xl e.1, e.2)).reverse.lookup (wrap s.xl b)).getD (s.byte (wrap s.xl b).toNat) := by
  have hP : ∀ (t : State) (e : Word × Byte), (t.cfg = s.cfg ∧ Memory.wf t.mem = true) →
      (t.setByte (wrap t.xl e.1).toNat e.2).cfg = s.cfg ∧ Memory.wf (t.setByte (wrap t.xl e.1).toNat e.2).mem = true :=
    fun t e ht => ⟨ht.1, Memory.wf_write ht.2 _ _⟩
  have hg : ∀ (t : State) (e : Word × Byte), (t.cfg = s.cfg ∧ Memory.wf t.mem = true) →
      (t.setByte (wrap t.xl e.1).toNat e.2).byte (wrap s.xl b).toNat =
        if wrap s.xl b = wrap s.xl e.1 then e.2 else t.byte (wrap s.xl b).toNat := by
    intro t e ⟨hcfg, hwf⟩
    rw [State.xl, State.xl, hcfg]
    by_cases hb : wrap s.cfg.xlen b = wrap s.cfg.xlen e.1
    · rw [if_pos hb, hb, State.byte_setByte_self hwf]
    · rw [if_neg hb, State.byte_setByte_ne t fun heq => hb (BitVec.eq_of_toNat_eq heq)]
  exact foldl_writes (get := fun t => t.byte (wrap s.xl b).toNat) hP hg ⟨rfl, h⟩ l

/-- In canonical form, each place holds the last value that the writes give it. -/
theorem State.afterWrites_applyWrites {s : State} (hm : Memory.wf s.mem = true) (hc : sparseWf s.csrs = true)
    (w : Writes) : AfterWrites s (s.applyWrites w) w := by
  rw [State.applyWrites_eq]
  refine ⟨fun r => ?x, fun r => ?f, fun c => ?csr, fun b => ?mem, s.applyWrites_cfg w⟩
  case x => simpa using s.readX_writeXs w.x r
  case f => simpa using State.readF_writeFs (s.writeXs w.x) w.f r
  case csr =>
    have hcsr := State.csr_setCsrs (s := (s.writeXs w.x).writeFs w.f) (by simpa using hc) w.csrs c
    rw [State.csr_congr (s := s) (t := (s.writeXs w.x).writeFs w.f) (by simp) (by simp)] at hcsr
    simpa [State.xl] using hcsr
  case mem =>
    have hbyte := State.byte_setCells (s := ((s.writeXs w.x).writeFs w.f).setCsrs w.csrs) (by simpa using hm) w.mem b
    rw [State.byte_congr (s := s) (t := ((s.writeXs w.x).writeFs w.f).setCsrs w.csrs) (by simp)] at hbyte
    simpa [State.xl] using hbyte

/-- Settles O41. -/
theorem continueState : Obligations.ContinueState := by
  intro s a hm hc
  exact ⟨s.continueWith_readPc a, State.afterWrites_applyWrites hm hc a.toWrites, s.continueWith_tick a⟩

/-! ## The functions of csr_model -/

theorem csrEffect_ok {s : State} {w : Writes} (h : w.writesCode s.cfg = false) :
    csrEffect s w = .ok { s.applyWrites w with tick := s.tick + 1 } := by
  unfold csrEffect; rw [if_neg (by simp [h])]

theorem csrEffect_text {s : State} {w : Writes} (h : w.writesCode s.cfg = true) :
    csrEffect s w = .error (.refuse .storeToCode) := by
  unfold csrEffect; rw [if_pos h]

theorem csrGet_functions {s : State} {a : BitVec 12} {d : CsrFns} (h : csrDesc s.cfg a = some (.functions d)) :
    csrGet s a = (csrEffect s (fnWrites s.view [csrArg a] d.readEffect)).map
      fun t => (wrap s.xl (fnValue s.view [csrArg a] d.read), t) := by
  unfold csrGet; rw [h]
  simp only
  cases csrEffect s (fnWrites s.view [csrArg a] d.readEffect) <;> rfl

theorem csrSet_functions {s : State} {a : BitVec 12} {d : CsrFns} (h : csrDesc s.cfg a = some (.functions d))
    (v : Word) : csrSet s a v = csrEffect s (fnWrites s.view [csrArg a, wrap s.xl v] d.write) := by
  unfold csrSet; rw [h]

/-- The state after an effect that reaches no program text: its writes, and one access more. -/
theorem csrEffect_afterWrites {s : State} (hm : Memory.wf s.mem = true) (hc : sparseWf s.csrs = true) {w : Writes}
    (h : w.writesCode s.cfg = false) :
    ∃ t, csrEffect s w = .ok t ∧ AfterWrites s t w ∧ t.readPc = s.readPc ∧ t.tick = s.tick + 1 := by
  refine ⟨_, csrEffect_ok h, State.afterWrites_applyWrites hm hc w, ?_, rfl⟩
  simp only [State.readPc, State.xl, State.applyWrites_pc, State.applyWrites_cfg]

/-- Settles O60: a read and a write of such a CSR are one effect each. -/
theorem csrFunctions : Obligations.CsrFunctions := by
  intro s a d v hd hm hc
  rw [csrGet_functions hd, csrSet_functions hd]
  refine ⟨?readable, ?writable, fun h => ?get, fun h => ?set, fun h => ?getText, fun h => ?setText⟩
  case readable => unfold csrReadable; rw [hd]
  case writable => unfold csrWritable; rw [hd]
  case get =>
    obtain ⟨t, ht, hw, hpc, htick⟩ := csrEffect_afterWrites hm hc h
    exact ⟨t, by rw [ht]; rfl, hw, hpc, htick⟩
  case set => exact csrEffect_afterWrites hm hc h
  case getText => rw [csrEffect_text h]; rfl
  case setText => exact csrEffect_text h

end Sys2Proof.Machine
end

section
/-! PROOFS. Exceptions are precise (60_exceptions.md R280 to R283): what an instruction raises does not depend on env, and
where it raises nothing of it has been written. -/

namespace Sys2Proof.Machine

/-- `o` is the outcome in `s` and `o'` the one in the same state with another env: where `o` ends in a trap, the exception
is one of `P`, and `o'` raises it in the state before. -/
def TrapsAs (s : State) (env : List EnvRule) (P : Exception → Prop) (o o' : Out) : Prop :=
  ∀ e, o = .fault (.trap e) → P e ∧ o' = raise (s.withEnv env) e

section
variable {s : State} {env : List EnvRule} {P : Exception → Prop}

/-! ## The shapes of the meanings -/

theorem trapsAs_finish (rd : Reg) (v : Word) (n : Nat) (o' : Out) : TrapsAs s env P (finish s rd v n) o' := nofun

theorem trapsAs_raise {e : Exception} (he : P e) : TrapsAs s env P (raise s e) (raise (s.withEnv env) e) := by
  intro e' h
  obtain ⟨rfl, -⟩ := of_raise_fault h
  exact ⟨he, rfl⟩

@[simp] theorem present_withEnv (i : Instr) (s : State) (env : List EnvRule) :
    i.present (s.withEnv env).cfg = i.present s.cfg := by cases i <;> rfl

theorem trapsAs_ifPresent {i : Instr} {k k' : Out} (h : TrapsAs s env P k k') :
    TrapsAs s env P (ifPresent i s k) (ifPresent i (s.withEnv env) k') := by
  intro e he
  unfold ifPresent at he
  split at he
  next hp =>
    rw [ifPresent_of ((present_withEnv i s env).trans hp)]
    exact h e he
  next => cases he

theorem trapsAs_orStop {α : Type} {r r' : Except Stop α} {k k' : α → Out} (hk : ∀ a, r = .ok a → ∃ t, k a = .next t)
    (hr : ∀ e, r = .error (.trap e) → P e ∧ r' = .error (.trap e)) :
    TrapsAs s env P (orStop s r k) (orStop (s.withEnv env) r' k') := by
  intro e he
  obtain ⟨hP, hr'⟩ := hr e (of_orStop_fault he hk)
  exact ⟨hP, by rw [hr', orStop_trap]⟩

/-! ## Loads, stores and AMOs -/

/-- The checks of an access see nothing of env. -/
theorem memWrite_withEnv_trap {a : Word} {n : Nat} {v : Word} {e : Exception}
    (h : memWrite s a n v = .error (.trap e)) : memWrite (s.withEnv env) a n v = .error (.trap e) := by
  have hcheck : checkAccess (s.withEnv env) .store a n = checkAccess s .store a n := rfl
  unfold memWrite at h ⊢
  rw [hcheck]
  cases hc : checkAccess s .store a n with
  | error x => rw [hc] at h; exact h
  | ok _ =>
    rw [hc] at h
    simp only at h
    split at h <;> cases h

theorem memWrite_trap {a : Word} {n : Nat} {v : Word} {e : Exception} (h : memWrite s a n v = .error (.trap e)) :
    e = .storeAMOAddressMisaligned a ∨ e = .storeAMOAccessFault a := by
  obtain h | h | h := of_memWrite_error h <;> cases h
  · exact .inl rfl
  · exact .inr rfl

theorem memRead_trap {k : AccessKind} {a : Word} {n : Nat} {e : Exception} (h : memRead s k a n = .error (.trap e)) :
    e = misaligned k a ∨ e = accessFault k a := by
  obtain h | h := of_memRead_error h <;> cases h
  · exact .inl rfl
  · exact .inr rfl

/-- The exceptions of a load. -/
def LoadTrap (e : Exception) : Prop := ∃ a, e = .loadAddressMisaligned a ∨ e = .loadAccessFault a

/-- The exceptions of a store or an AMO. -/
def StoreTrap (e : Exception) : Prop := ∃ a, e = .storeAMOAddressMisaligned a ∨ e = .storeAMOAccessFault a

theorem trapsAs_load {a : Word} {n : Nat} {k k' : Word → Out} (hk : ∀ v, ∃ t, k v = .next t) :
    TrapsAs s env LoadTrap (orStop s (memRead s .load a n) k)
      (orStop (s.withEnv env) (memRead (s.withEnv env) .load a n) k') :=
  trapsAs_orStop (fun v _ => hk v) fun _ h => ⟨⟨a, memRead_trap h⟩, h⟩

theorem trapsAs_store {a : Word} {n : Nat} {v : Word} :
    TrapsAs s env StoreTrap (storeBytes s a n v) (storeBytes (s.withEnv env) a n v) :=
  trapsAs_orStop (fun _ _ => ⟨_, rfl⟩) fun _ h => ⟨⟨a, memWrite_trap h⟩, memWrite_withEnv_trap h⟩

theorem amoUpdate_trap {a : Word} {n : Nat} {new : Word → Word} {e : Exception}
    (h : amoUpdate s a n new = .error (.trap e)) :
    StoreTrap e ∧ amoUpdate (s.withEnv env) a n new = .error (.trap e) := by
  have hread : memRead (s.withEnv env) .amo a n = memRead s .amo a n := rfl
  unfold amoUpdate at h ⊢
  rw [hread]
  cases hr : memRead s .amo a n with
  | error x =>
    rw [hr] at h
    cases h
    exact ⟨⟨a, memRead_trap hr⟩, rfl⟩
  | ok v =>
    rw [hr] at h
    simp only at h ⊢
    cases hw : memWrite s a n (new v) with
    | ok t => rw [hw] at h; cases h
    | error x =>
      rw [hw] at h
      cases h
      rw [memWrite_withEnv_trap hw]
      exact ⟨⟨a, memWrite_trap hw⟩, rfl⟩

theorem trapsAs_amo {a : Word} {n : Nat} {new : Word → Word} {k k' : Word × State → Out}
    (hk : ∀ r, ∃ t, k r = .next t) :
    TrapsAs s env StoreTrap (orStop s (amoUpdate s a n new) k)
      (orStop (s.withEnv env) (amoUpdate (s.withEnv env) a n new) k') :=
  trapsAs_orStop (fun r _ => hk r) fun _ h => amoUpdate_trap h

/-! ## Branches and CSR instructions -/

/-- What a branch can raise. -/
def BranchTrap (s : State) (e : Exception) : Prop :=
  (s.readPc.toNat % 2 = 0 → s.cfg.ext.c = false) ∧
    ∃ target, e = .instructionAddressMisaligned target ∧ target.toNat % s.cfg.ialignBytes ≠ 0

theorem trapsAs_branch {rs1 rs2 : Reg} {off : BitVec 12} {cond : (w : Nat) → BitVec w → BitVec w → Bool} :
    TrapsAs s env (BranchTrap s) (branch s rs1 rs2 off cond) (branch (s.withEnv env) rs1 rs2 off cond) := by
  intro e h
  unfold branch at h
  split at h
  next htaken =>
    unfold jumpChecked at h
    split at h
    next halign =>
      obtain ⟨rfl, -⟩ := of_raise_fault h
      refine ⟨⟨fun heven => ?_, _, rfl, halign⟩, (if_pos htaken).trans (if_pos halign)⟩
      by_contra hc
      have h2 : s.cfg.ialignBytes = 2 := if_pos (by simpa using hc)
      rw [h2] at halign
      exact halign (even_target s off heven)
    next => cases h
  next => cases h

theorem trapsAs_csr {i : Instr} {rd : Reg} {a : BitVec 12} {doRead doWrite : Bool} {new new' : State → Word → Word} :
    TrapsAs s env (· = .illegalInstruction (encode i).bits) (csrInstr i s rd a doRead doWrite new)
      (csrInstr i (s.withEnv env) rd a doRead doWrite new') := by
  have hallowed : csrAllowed (s.withEnv env) a doRead doWrite = csrAllowed s a doRead doWrite := rfl
  intro e h
  cases hc : csrAllowed s a doRead doWrite with
  | true =>
    rw [csrInstr_allowed hc] at h
    have hacc := of_orStop_fault h fun _ _ => ⟨_, rfl⟩
    obtain ⟨v, t, hok, -⟩ | herr := csrAccess_cases s a doRead doWrite new
    · rw [hok] at hacc; cases hacc
    · rw [herr] at hacc; cases hacc
  | false =>
    rw [csrInstr_denied hc] at h
    rw [csrInstr_denied (hallowed.trans hc)]
    exact trapsAs_raise (P := (· = _)) rfl e h

theorem trapsAs_shift {rd : Reg} {u : BitVec 6} {sh : XLen → Nat → Word → Word} {o' : Out} :
    TrapsAs s env P (shiftBy s rd u sh) o' := by
  intro e h
  unfold shiftBy at h
  split at h <;> cases h

theorem trapsAs_cBranch {rs1 : CReg} {off : BitVec 8} {cond : (w : Nat) → BitVec w → BitVec w → Bool} {o' : Out} :
    TrapsAs s env P (cBranch s rs1 off cond) o' := by
  intro e h
  unfold cBranch at h
  split at h <;> cases h

theorem trapsAs_next {t : State} {o' : Out} : TrapsAs s env P (.next t) o' := nofun

end

/-! ## Every instruction -/

/-- The exceptions that an instruction can raise, by its kind. -/
def TrapOf (i : Instr) (s : State) (e : Exception) : Kind → Prop
  | .compute | .jump => False
  | .atomic | .store => StoreTrap e
  | .branch => BranchTrap s e
  | .csr => e = .illegalInstruction (encode i).bits
  | .environment => e = .environmentCall ∨ e = .breakpoint s.readPc
  | .load | .floatLoad => LoadTrap e

/-- What an instruction raises is of its kind, and it raises the same under every env. -/
theorem exec_trapsAs (i : Instr) (s : State) (env : List EnvRule) :
    TrapsAs s env (TrapOf i s · (Instr.kind i)) (exec i s) (exec i (s.withEnv env)) := by
  cases i
  case add | addi | and | andi | auipc => exact trapsAs_finish _ _ _ _
  case addiw | addw | div | divu | divuw | divw => exact trapsAs_ifPresent (trapsAs_finish _ _ _ _)
  case amoaddD | amoandD | amomaxD | amomaxuD | amominD | amominuD | amoorD | amoswapD | amoxorD | amoaddW | amoandW
    | amomaxW | amomaxuW | amominW | amominuW | amoorW | amoswapW | amoxorW =>
    exact trapsAs_ifPresent (trapsAs_amo fun _ => ⟨_, rfl⟩)
  case beq | bge | bgeu | blt | bltu | bne => exact trapsAs_branch
  case csrrc | csrrci | csrrs | csrrsi | csrrw | csrrwi => exact trapsAs_csr
  case ebreak => exact trapsAs_raise (.inr rfl)
  case ecall => exact trapsAs_raise (.inl rfl)
  case cEbreak => exact trapsAs_ifPresent (trapsAs_raise (.inr rfl))
  case cFld | cFldsp | cFlw | cFlwsp | cLd | cLdsp | cLw | cLwsp =>
    exact trapsAs_ifPresent (trapsAs_load fun _ => ⟨_, rfl⟩)
  case cFsd | cSw | cFsw | cSd | cFsdsp | cSwsp | cFswsp | cSdsp => exact trapsAs_ifPresent trapsAs_store
  case cAddi4spn | cAddi | cAddiw | cLi | cAddi16sp | cLui | cAndi | cSub | cXor | cOr | cAnd | cSubw | cAddw | cMv
    | cAdd => exact trapsAs_ifPresent (trapsAs_finish _ _ _ _)
  case cSrli | cSrai | cSlli => exact trapsAs_ifPresent trapsAs_shift
  case cBeqz | cBnez => exact trapsAs_ifPresent trapsAs_cBranch
  case cJ | cJr | cJal | cJalr => exact trapsAs_ifPresent trapsAs_next

/-- Settles O43: the exceptions by kind, of every instruction. -/
theorem trapsByKind : Obligations.TrapsByKind := by
  intro i s e h
  have hk := (exec_trapsAs i s [] e h).1
  revert hk
  generalize Instr.kind i = k
  intro hk
  cases k <;> exact hk

/-! ## Every step -/

/-- A fetch sees nothing of env. -/
theorem fetch_withEnv (s : State) (env : List EnvRule) : fetch (s.withEnv env) = fetch s := rfl

theorem decode_withEnv (s : State) (env : List EnvRule) (w : InstrWord) :
    decode (s.withEnv env).cfg w = decode s.cfg w := by
  have hrestrict : ∀ d : Decoded, d.restrict (s.withEnv env).cfg = d.restrict s.cfg := by
    intro d
    cases d with
    | instr i => simp only [Decoded.restrict, present_withEnv]
    | illegal => rfl
    | notInSpec => rfl
  cases w <;> exact hrestrict _

theorem step_trapsAs (s : State) (env : List EnvRule) : TrapsAs s env (fun _ => True) (step s) (step (s.withEnv env)) := by
  intro e h
  refine ⟨trivial, ?_⟩
  cases hf : fetch s with
  | error x =>
    rw [step_of_fetch_error hf] at h
    rw [step_of_fetch_error ((fetch_withEnv s env).trans hf)]
    cases x with
    | trap y => exact (trapsAs_raise (P := fun _ => True) trivial e h).2
    | refuse r => cases h
  | ok w =>
    have hf' := (fetch_withEnv s env).trans hf
    cases hd : decode s.cfg w with
    | instr i =>
      rw [step_of_instr hf hd] at h
      rw [step_of_instr hf' ((decode_withEnv s env w).trans hd)]
      exact (exec_trapsAs i s env e h).2
    | illegal =>
      rw [step_of_illegal hf hd] at h
      rw [step_of_illegal hf' ((decode_withEnv s env w).trans hd)]
      exact (trapsAs_raise (P := fun _ => True) trivial e h).2
    | notInSpec =>
      rw [step_of_notInSpec hf hd] at h
      cases h

/-- Settles O42: the same step under another env raises the same exception in the state before it, so that state is all
that env's answer is made of. -/
theorem preciseTraps : Obligations.PreciseTraps := by
  intro s e h
  have hstep : step s = raise s e := (step_trapsAs s s.cfg.env e h).2
  refine ⟨(of_raise_fault (hstep.symm.trans h)).2, fun env a ha hcode => ?_⟩
  exact ((step_trapsAs s env e h).2).trans (raise_continue ha hcode)

end Sys2Proof.Machine
end

section
/-! PROOFS. The compressed integer computational instructions (43_compressed_1.md, 44_compressed_2.md): each is one
register write and an advance of pc by 2, and its result a number modulo 2^XLEN. -/

namespace Sys2Proof.Machine

/-! ## The results as numbers -/

@[simp] theorem wrap_orX (xl : XLen) (a b : Word) : wrap xl (orX xl a b) = orX xl a b := wrap_onX ..
@[simp] theorem wrap_xorX (xl : XLen) (a b : Word) : wrap xl (xorX xl a b) = xorX xl a b := wrap_onX ..
@[simp] theorem wrap_shlX (xl : XLen) (n : Nat) (a : Word) : wrap xl (shlX xl n a) = shlX xl n a := wrap_onX ..
@[simp] theorem wrap_shrX (xl : XLen) (n : Nat) (a : Word) : wrap xl (shrX xl n a) = shrX xl n a := wrap_onX ..
@[simp] theorem wrap_sarX (xl : XLen) (n : Nat) (a : Word) : wrap xl (sarX xl n a) = sarX xl n a := wrap_onX ..

/-- imm[9:4] of c.addi16sp counts in steps of 16. -/
theorem addX_immAddi16sp (xl : XLen) (a : Word) (imm : BitVec 6) :
    addX xl a (immAddi16sp xl imm) = xval xl (a.toNat + 16 * imm.toInt) := by
  rw [immAddi16sp, addX_sextX, append_zero_toInt, mul_comm]; rfl

theorem immCLui_eq_xval (xl : XLen) (imm : BitVec 6) : immCLui xl imm = xval xl (4096 * imm.toInt) := by
  rw [immCLui, sextX_eq_xval, append_zero_toInt, mul_comm]; rfl

theorem addX_uimm4 (xl : XLen) {k : Nat} (hk : k ≤ 62) (a : Word) (u : BitVec k) :
    addX xl a (uimm4 u) = xval xl (a.toNat + 4 * u.toNat) := by
  rw [addX_eq_xval, uimm4_toNat hk]; push_cast; rfl

theorem addX_uimm8 (xl : XLen) {k : Nat} (hk : k ≤ 61) (a : Word) (u : BitVec k) :
    addX xl a (uimm8 u) = xval xl (a.toNat + 8 * u.toNat) := by
  rw [addX_eq_xval, uimm8_toNat hk]; push_cast; rfl

/-- A 32-bit value in its container, as a number. -/
theorem setWidth64_eq_xval (b : BitVec 32) : b.setWidth 64 = xval .rv32 b.toInt := by
  rw [← sextX_eq_xval]; simp [sextX]

theorem word_eq_xval (b : Word) : b = xval .rv64 b.toInt := by
  rw [← sextX_eq_xval]; simp [sextX]

theorem shlX_eq_xval {xl : XLen} {a : Word} (ha : a.toNat < 2 ^ xl.bits) (n : Nat) :
    shlX xl n a = xval xl (a.toNat * 2 ^ n) := by
  refine eq_xval (onX_lt ..) ?_
  cases xl
  · simp only [XLen.bits] at ha ⊢
    simp only [shlX, onX, BitVec.toNat_setWidth, BitVec.toNat_shiftLeft, Nat.mod_eq_of_lt ha, Nat.shiftLeft_eq]
    push_cast
    omega
  · simp only [XLen.bits, shlX, onX, BitVec.toNat_shiftLeft, Nat.shiftLeft_eq]
    push_cast
    omega

theorem shrX_eq_xval {xl : XLen} {a : Word} (ha : a.toNat < 2 ^ xl.bits) (n : Nat) :
    shrX xl n a = xval xl (a.toNat / 2 ^ n : Nat) := by
  refine eq_xval (onX_lt ..) ?_
  have hle : a.toNat / 2 ^ n ≤ a.toNat := Nat.div_le_self _ _
  cases xl
  · simp only [XLen.bits] at ha ⊢
    simp only [shrX, onX, BitVec.toNat_setWidth, BitVec.toNat_ushiftRight, Nat.mod_eq_of_lt ha,
      Nat.shiftRight_eq_div_pow]
    rw [Nat.mod_eq_of_lt (by omega)]
  · simp only [XLen.bits, shrX, onX, BitVec.toNat_ushiftRight, Nat.shiftRight_eq_div_pow]

theorem sarX_eq_xval {xl : XLen} {a : Word} (ha : a.toNat < 2 ^ xl.bits) (n : Nat) :
    sarX xl n a = xval xl (sgn xl a / 2 ^ n) := by
  cases xl
  · simp only [sarX, onX]
    rw [setWidth64_eq_xval, BitVec.toInt_sshiftRight, toInt_setWidth32 ha, Int.shiftRight_eq_div_pow]
    push_cast; rfl
  · simp only [sarX, onX]
    rw [word_eq_xval (a.sshiftRight n), BitVec.toInt_sshiftRight, toInt_eq_sgn, Int.shiftRight_eq_div_pow]
    push_cast; rfl

/-- A shift by less than XLEN is not refused. -/
theorem shiftBy_of_lt {s : State} {u : BitVec 6} (h : u.toNat < s.xl.bits) (rd : Reg) (sh : XLen → Nat → Word → Word) :
    shiftBy s rd u sh = finish s rd (sh s.xl u.toNat (s.readX rd)) 2 := by
  unfold shiftBy
  rw [if_neg]
  rintro ⟨h32, hle⟩
  rw [h32, XLen.bits] at h
  omega

theorem shiftBy_wide {s : State} {u : BitVec 6} (h32 : s.cfg.xlen = .rv32) (h : 32 ≤ u.toNat) (rd : Reg)
    (sh : XLen → Nat → Word → Word) : shiftBy s rd u sh = .refused .shiftAmountTooWide := if_pos ⟨h32, h⟩

/-- C and XLEN = 64 together are what the instructions of that row need. -/
theorem present_c64 {c : Config} (hc : c.ext.c = true) (h64 : c.xlen = .rv64) : (c.ext.c && c.is64) = true := by
  rw [hc, Config.is64_of_rv64 h64]; rfl

theorem present_c32 {c : Config} (hc : c.ext.c = true) (h32 : c.xlen = .rv32) : (c.ext.c && c.is32) = true := by
  rw [hc, Config.is32, h32]; rfl

/-- The shape of the compressed computations: present, and then one register write. -/
theorem completesX_compressed {i : Instr} {s : State} {rd : Reg} {v w : Word} (hp : i.present s.cfg = true)
    (h : exec i s = ifPresent i s (finish s rd v 2)) (hv : wrap s.xl v = w) : CompletesX i s rd w (seqPc s 2) :=
  completesX_finish (by norm_num) (h.trans (ifPresent_of hp _)) hv

theorem completesX_shift {i : Instr} {s : State} {rd : Reg} {u : BitVec 6} {sh : XLen → Nat → Word → Word} {w : Word}
    (hp : i.present s.cfg = true) (hu : u.toNat < s.xl.bits) (h : exec i s = ifPresent i s (shiftBy s rd u sh))
    (hv : wrap s.xl (sh s.xl u.toNat (s.readX rd)) = w) : CompletesX i s rd w (seqPc s 2) :=
  completesX_compressed hp (h.trans (by rw [shiftBy_of_lt hu])) hv

/-- Settles O19: sums of register and register, or register and scaled immediate (R181 to R184). -/
theorem compressedAdds : Obligations.CompressedAdds := by
  intro s rd rs2 imm rd' u hc
  refine ⟨fun hrd hrs2 => ?decodeAdd, ?add, ?decodeAddi, ?addi, ?addi16sp, ?addi4spn⟩
  case decodeAdd => exact decodeOfEncode s.cfg (.cAdd rd rs2) (by simpa [Instr.wf] using ⟨hrd, hrs2⟩) hc
  case add => exact completesX_compressed hc rfl (by rw [wrap_addX, addX_eq_xval])
  case decodeAddi => exact decodeOfEncode s.cfg (.cAddi rd imm) rfl hc
  case addi => exact completesX_compressed hc rfl (by rw [wrap_addX, addX_immI])
  case addi16sp => exact completesX_compressed hc rfl (by rw [wrap_addX, addX_immAddi16sp]; rfl)
  case addi4spn => exact completesX_compressed hc rfl (by rw [wrap_addX, addX_uimm4 _ (by norm_num)]; rfl)

/-- Settles O20: the low word of the sum or difference (R185, R187, R228). -/
theorem compressedWordAdds : Obligations.CompressedWordAdds := by
  intro s rd imm r q hc h64
  have hp := present_c64 hc h64
  refine ⟨?addiw, ?addw, ?subw⟩
  case addiw => exact completesX_compressed hp rfl (by rw [wrap_sextWord, addX_immI, sextWord_xval])
  case addw => exact completesX_compressed hp rfl (by rw [wrap_sextWord, addX_eq_xval, sextWord_xval])
  case subw => exact completesX_compressed hp rfl (by rw [wrap_sextWord, subX_eq_xval, sextWord_xval])

/-- Settles O21: the bitwise operations at width XLEN are those on the containers, since registers are below 2^XLEN. -/
theorem compressedLogicAndSub : Obligations.CompressedLogicAndSub := by
  intro s r q imm hc
  have hr := s.readX_lt (creg r)
  have hq := s.readX_lt (creg q)
  refine ⟨?and, ?andi, ?or, ?xor, ?sub⟩
  case and => exact completesX_compressed hc rfl (by rw [wrap_andX, andX_eq _ hr])
  case andi => exact completesX_compressed hc rfl (by rw [wrap_andX, andX_eq _ hr, immI_eq_xval])
  case or => exact completesX_compressed hc rfl (by rw [wrap_orX, orX_eq _ hr hq])
  case xor => exact completesX_compressed hc rfl (by rw [wrap_xorX, xorX_eq _ hr hq])
  case sub => exact completesX_compressed hc rfl (by rw [wrap_subX, subX_eq_xval])

/-- Settles O22 (R216, R217, R220). -/
theorem compressedMoves : Obligations.CompressedMoves := by
  intro s rd rs2 imm hc
  refine ⟨?li, ?lui, ?mv⟩
  case li => exact completesX_compressed hc rfl (by rw [immI_eq_xval, wrap_xval])
  case lui => exact completesX_compressed hc rfl (by rw [immCLui_eq_xval, wrap_xval])
  case mv => exact completesX_compressed hc rfl (s.wrap_readX rs2)

/-- Settles O23: below XLEN no amount is refused, and a shift is a multiplication or a division by 2^uimm. -/
theorem compressedShifts : Obligations.CompressedShifts := by
  intro s rd r u hc hu
  refine ⟨?slli, ?srai, ?srli⟩
  case slli => exact completesX_shift hc hu rfl (by rw [wrap_shlX, shlX_eq_xval (s.readX_lt rd)])
  case srai => exact completesX_shift hc hu rfl (by rw [wrap_sarX, sarX_eq_xval (s.readX_lt _)])
  case srli => exact completesX_shift hc hu rfl (by rw [wrap_shrX, shrX_eq_xval (s.readX_lt _)])

/-- Settles O24 (30_encoding.md R103 item 2). -/
theorem wideShiftsRefused : Obligations.WideShiftsRefused := by
  intro s rd r u hc h32 hu
  refine ⟨?slli, ?srai, ?srli⟩
  case slli => exact (ifPresent_of (i := .cSlli rd u) hc _).trans (shiftBy_wide h32 hu _ _)
  case srai => exact (ifPresent_of (i := .cSrai r u) hc _).trans (shiftBy_wide h32 hu _ _)
  case srli => exact (ifPresent_of (i := .cSrli r u) hc _).trans (shiftBy_wide h32 hu _ _)

end Sys2Proof.Machine
end

section
/-! PROOFS. Control transfer: the six branches and their ten pseudo-instructions (42_branches.md), the compressed jumps
and branches (43_compressed_1.md R189, R190; 44_compressed_2.md R210 to R213). -/

namespace Sys2Proof.Machine

/-! ## The shape of a branch -/

/-- The comparison of a condition, at any width. -/
def BranchOp.test : BranchOp → (w : Nat) → BitVec w → BitVec w → Bool
  | .eq => cmpEq
  | .ge => cmpGe
  | .geu => cmpGeu
  | .lt => cmpLt
  | .ltu => cmpLtu
  | .ne => cmpNe

theorem exec_branchOp (op : BranchOp) (rs1 rs2 : Reg) (off : BitVec 12) (s : State) :
    exec (op.instr rs1 rs2 off) s = branch s rs1 rs2 off op.test := by cases op <;> rfl

theorem testX_branchOp (op : BranchOp) (s : State) (rs1 rs2 : Reg) :
    testX s.xl op.test (s.readX rs1) (s.readX rs2) = true ↔ op.holds s.xl (s.readX rs1) (s.readX rs2) := by
  have h1 := s.readX_lt rs1
  have h2 := s.readX_lt rs2
  cases op with
  | eq => exact (Bool.eq_iff_iff.1 (testX_eq _ h1 h2)).trans decide_eq_true_iff
  | ge => exact (Bool.eq_iff_iff.1 (testX_ge _ h1 h2)).trans decide_eq_true_iff
  | geu => exact (Bool.eq_iff_iff.1 (testX_geu _ h1 h2)).trans decide_eq_true_iff
  | lt => exact (Bool.eq_iff_iff.1 (testX_lt _ h1 h2)).trans decide_eq_true_iff
  | ltu => exact (Bool.eq_iff_iff.1 (testX_ltu _ h1 h2)).trans decide_eq_true_iff
  | ne => exact (Bool.eq_iff_iff.1 (testX_ne _ h1 h2)).trans decide_eq_true_iff

theorem branch_taken {s : State} {rs1 rs2 : Reg} {off : BitVec 12} {cond : (w : Nat) → BitVec w → BitVec w → Bool}
    (h : testX s.xl cond (s.readX rs1) (s.readX rs2) = true) :
    branch s rs1 rs2 off cond = jumpChecked s (relPc s (2 * off.toInt)) := by
  unfold branch
  rw [if_pos h, addX_offset]; rfl

theorem branch_not_taken {s : State} {rs1 rs2 : Reg} {off : BitVec 12}
    {cond : (w : Nat) → BitVec w → BitVec w → Bool} (h : ¬ testX s.xl cond (s.readX rs1) (s.readX rs2) = true) :
    branch s rs1 rs2 off cond = .next (s.advance 4) := if_neg h

/-- Writing a target that is an XLEN-bit value. -/
theorem onlyPc_relPc (s : State) (d : Int) : OnlyPc s (s.writePc (relPc s d)) (relPc s d) := by
  have h := onlyPc_writePc s (relPc s d)
  rwa [relPc, wrap_xval] at h

theorem relPc_even {s : State} (h : s.readPc.toNat % 2 = 0) (d : Int) : (relPc s (2 * d)).toNat % 2 = 0 := by
  have hx := xval_toNat s.xl (s.readPc.toNat + 2 * d)
  unfold relPc
  rcases XLen.bits_cases s.xl with hb | hb <;> rw [hb] at hx <;> omega

theorem ialignBytes_of_c {c : Config} (h : c.ext.c = true) : c.ialignBytes = 2 := if_pos h

/-- Settles O18: a branch compares as its condition says, and checks its target where it is taken. -/
theorem branches : Obligations.Branches := by
  intro op rs1 rs2 off s
  rw [CompletesPc, CompletesPc, exec_branchOp, ← testX_branchOp]
  refine ⟨?decode, fun hcond halign => ?taken, fun hcond halign => ?misaligned, fun hcond => ?notTaken,
    fun hc heven => ?aligned⟩
  case decode => cases op <;> exact decode_full_present (decode32_branch ..) rfl
  case taken => exact ⟨_, (branch_taken hcond).trans (jumpChecked_ok halign), onlyPc_relPc s _⟩
  case misaligned => exact (branch_taken hcond).trans (jumpChecked_misaligned halign)
  case notTaken => exact ⟨_, branch_not_taken hcond, onlyPc_advance s (by norm_num)⟩
  case aligned => rw [ialignBytes_of_c hc]; exact relPc_even heven _

/-! ## The pseudo-instructions, each a branch with its own condition (R167 to R176) -/

@[simp] theorem sgn_zero (xl : XLen) : sgn xl 0 = 0 := by cases xl <;> rfl

/-- A branch pseudo-instruction does what one of the six branches does, under the condition of its own entry. -/
theorem pseudo_is_branch {s : State} {p : Pseudo} {off : BitVec 12} {cond : Prop}
    (h : pseudoCondition s p = some (off, cond)) :
    ∃ (op : BranchOp) (rs1 rs2 : Reg), execPseudo p s = exec (op.instr rs1 rs2 off) s ∧
      (cond ↔ op.holds s.xl (s.readX rs1) (s.readX rs2)) := by
  have h0 : s.readX 0 = 0 := s.readX_zero
  cases p with
  | call | csrr | csrc | csrci | csrs | csrsi | csrw | csrwi | fabsD | fabsS => cases h
  | beqz r o => cases h; exact ⟨.eq, r, 0, rfl, by rw [BranchOp.holds, h0]⟩
  | bnez r o => cases h; exact ⟨.ne, r, 0, rfl, by rw [BranchOp.holds, h0]⟩
  | bgez r o => cases h; exact ⟨.ge, r, 0, rfl, by rw [BranchOp.holds, h0, sgn_zero]⟩
  | bgtz r o => cases h; exact ⟨.lt, 0, r, rfl, by rw [BranchOp.holds, h0, sgn_zero]⟩
  | blez r o => cases h; exact ⟨.ge, 0, r, rfl, by rw [BranchOp.holds, h0, sgn_zero]⟩
  | bltz r o => cases h; exact ⟨.lt, r, 0, rfl, by rw [BranchOp.holds, h0, sgn_zero]⟩
  | bgt r q o => cases h; exact ⟨.lt, q, r, rfl, Iff.rfl⟩
  | ble r q o => cases h; exact ⟨.ge, q, r, rfl, Iff.rfl⟩
  | bgtu r q o => cases h; exact ⟨.ltu, q, r, rfl, Iff.rfl⟩
  | bleu r q o => cases h; exact ⟨.geu, q, r, rfl, Iff.rfl⟩

/-- Settles O56, from the branch that the pseudo-instruction is. -/
theorem branchPseudos : Obligations.BranchPseudos := by
  intro s p off cond h
  obtain ⟨op, rs1, rs2, hexec, hcond⟩ := pseudo_is_branch h
  obtain ⟨-, htaken, hmisaligned, hnot, -⟩ := branches op rs1 rs2 off s
  rw [hexec, hcond]
  exact ⟨htaken, hmisaligned, hnot⟩

/-! ## The compressed jumps -/

/-- The end of an instruction that writes one x register and pc. -/
theorem onlyX_writePc (s : State) (rd : Reg) (v target : Word) :
    OnlyX s ((s.writeX rd v).writePc target) rd (wrap s.xl v) (wrap s.xl target) := by
  refine ⟨?_, fun r hr => ?_, ?_, fun r => by simp, fun r => by simp, fun r => by simp, by simp [SameModel]⟩
  · rw [State.readX_writePc, State.readX_writeX_self]
  · rw [State.readX_writePc, State.readX_writeX_ne s hr]
  · rw [State.readPc_writePc, State.xl, State.writeX_cfg]

/-- pc and an x register may be written in either order. -/
theorem writeX_writePc (s : State) (r : Reg) (v t : Word) : (s.writePc t).writeX r v = (s.writeX r v).writePc t := by
  by_cases h : r = 0
  · rw [h]; rfl
  · have hw : ∀ u : State, u.writeX r v = { u with x := u.x.set r.toNat (wrap u.xl v) (by simpa using r.isLt) } :=
      fun _ => if_neg h
    rw [hw, hw]; rfl

/-- The link value pc + 2. -/
theorem addX_two (s : State) : addX s.xl s.readPc 2 = seqPc s 2 := s.advance_eq_seqPc (n := 2) (by norm_num)

@[simp] theorem wrap_seqPc (s : State) (n : Nat) : wrap s.xl (seqPc s n) = seqPc s n := wrap_xval ..

@[simp] theorem wrap_relPc (s : State) (d : Int) : wrap s.xl (relPc s d) = relPc s d := wrap_xval ..

/-- Settles O25 (R210, R211). -/
theorem compressedJumps : Obligations.CompressedJumps := by
  intro s off hc
  have htarget : addX s.xl s.readPc (offset s.xl off) = relPc s (2 * off.toInt) := addX_offset ..
  refine ⟨?j, fun h32 => ?jal⟩
  case j =>
    exact ⟨_, (ifPresent_of (i := .cJ off) hc _).trans (by rw [htarget]), onlyPc_relPc s _⟩
  case jal =>
    have honly := onlyX_writePc s 1 (seqPc s 2) (relPc s (2 * off.toInt))
    rw [wrap_seqPc, wrap_relPc] at honly
    exact ⟨_, (ifPresent_of (i := .cJal off) (present_c32 hc h32) _).trans (by rw [htarget, addX_two]; rfl), honly⟩

/-- The target of c.jr and c.jalr is the register with bit 0 cleared. -/
theorem wrap_clearBit0 (s : State) (r : Reg) :
    wrap s.xl (clearBit0 (s.readX r)) = BitVec.ofNat 64 ((s.readX r).toNat / 2 * 2) := by
  have hlt := s.readX_lt r
  have hclear := clearBit0_toNat (s.readX r)
  rw [(wrap_eq_self_iff _ _).2 (by omega), ← hclear, BitVec.ofNat_toNat, BitVec.setWidth_eq]

/-- Settles O26: x[rs1] is read in the state before, though c.jalr may write the same register. -/
theorem compressedRegisterJumps : Obligations.CompressedRegisterJumps := by
  intro s rs1 hc
  rw [← wrap_clearBit0]
  refine ⟨?jr, ?jalr⟩
  case jr => exact ⟨_, ifPresent_of (i := .cJr rs1) hc _, onlyPc_writePc s _⟩
  case jalr =>
    have honly := onlyX_writePc s 1 (seqPc s 2) (clearBit0 (s.readX rs1))
    rw [wrap_seqPc] at honly
    exact ⟨_, (ifPresent_of (i := .cJalr rs1) hc _).trans (by rw [writeX_writePc, addX_two]; rfl), honly⟩

/-! ## The compressed branches -/

theorem cBranch_taken {s : State} {rs1 : CReg} {off : BitVec 8} {cond : (w : Nat) → BitVec w → BitVec w → Bool}
    (h : testX s.xl cond (s.readX (creg rs1)) 0 = true) :
    cBranch s rs1 off cond = .next (s.writePc (relPc s (2 * off.toInt))) := by
  unfold cBranch
  rw [if_pos h, addX_offset]; rfl

theorem cBranch_not_taken {s : State} {rs1 : CReg} {off : BitVec 8} {cond : (w : Nat) → BitVec w → BitVec w → Bool}
    (h : testX s.xl cond (s.readX (creg rs1)) 0 = false) : cBranch s rs1 off cond = .next (s.advance 2) :=
  if_neg (by rw [h]; exact Bool.false_ne_true)

theorem testX_eq_zero (s : State) (r : Reg) : testX s.xl cmpEq (s.readX r) 0 = decide (s.readX r = 0) :=
  testX_eq _ (s.readX_lt r) (by simp)

theorem testX_ne_zero (s : State) (r : Reg) : testX s.xl cmpNe (s.readX r) 0 = decide (s.readX r ≠ 0) :=
  testX_ne _ (s.readX_lt r) (by simp)

theorem completesPc_taken {i : Instr} {s : State} {rs1 : CReg} {off : BitVec 8}
    {cond : (w : Nat) → BitVec w → BitVec w → Bool} (hp : i.present s.cfg = true)
    (h : exec i s = ifPresent i s (cBranch s rs1 off cond)) (ht : testX s.xl cond (s.readX (creg rs1)) 0 = true) :
    CompletesPc i s (relPc s (2 * off.toInt)) :=
  ⟨_, h.trans ((ifPresent_of hp _).trans (cBranch_taken ht)), onlyPc_relPc s _⟩

theorem completesPc_notTaken {i : Instr} {s : State} {rs1 : CReg} {off : BitVec 8}
    {cond : (w : Nat) → BitVec w → BitVec w → Bool} (hp : i.present s.cfg = true)
    (h : exec i s = ifPresent i s (cBranch s rs1 off cond)) (ht : testX s.xl cond (s.readX (creg rs1)) 0 = false) :
    CompletesPc i s (seqPc s 2) :=
  ⟨_, h.trans ((ifPresent_of hp _).trans (cBranch_not_taken ht)), onlyPc_advance s (by norm_num)⟩

/-- Settles O27 (R189, R190). -/
theorem compressedBranches : Obligations.CompressedBranches := by
  intro s rs1 off hc
  refine ⟨fun h0 => ⟨?beqzTaken, ?bnezNot⟩, fun h0 => ⟨?beqzNot, ?bnezTaken⟩⟩
  case beqzTaken => exact completesPc_taken (i := .cBeqz rs1 off) hc rfl (by rw [testX_eq_zero]; simpa using h0)
  case bnezNot => exact completesPc_notTaken (i := .cBnez rs1 off) hc rfl (by rw [testX_ne_zero]; simpa using h0)
  case beqzNot => exact completesPc_notTaken (i := .cBeqz rs1 off) hc rfl (by rw [testX_eq_zero]; simpa using h0)
  case bnezTaken => exact completesPc_taken (i := .cBnez rs1 off) hc rfl (by rw [testX_ne_zero]; simpa using h0)

end Sys2Proof.Machine
end

section
/-! PROOFS. The compressed instructions whose expansion is in scope (30_encoding.md R105): the same write, and pc by 2. -/

namespace Sys2Proof.Machine

/-! ## Immediates under their expansion -/

theorem immI_signExtend (xl : XLen) (imm : BitVec 6) : immI xl (imm.signExtend 12) = immI xl imm := by
  rw [immI_eq_xval, immI_eq_xval, BitVec.toInt_signExtend_of_le (by norm_num)]

theorem offset_signExtend (s : State) (off : BitVec 8) :
    addX s.xl s.readPc (offset s.xl (off.signExtend 12)) = addX s.xl s.readPc (offset s.xl off) := by
  rw [addX_offset, addX_offset, BitVec.toInt_signExtend_of_le (by norm_num)]

theorem immI_addi16sp (xl : XLen) (imm : BitVec 6) : immI xl ((imm ++ 0#4).signExtend 12) = immAddi16sp xl imm := by
  rw [immI_eq_xval, immAddi16sp, sextX_eq_xval, BitVec.toInt_signExtend_of_le (by norm_num)]

/-- The immediate of c.addi4spn is below 2^11, so the sign extension of addi leaves it alone. -/
theorem immI_addi4spn (xl : XLen) (u : BitVec 8) : immI xl ((u ++ 0#2).setWidth 12) = uimm4 u := by
  have hu := u.isLt
  have happ : (u ++ 0#2).toNat = u.toNat * 2 ^ 2 := append_zero_toNat u 2
  have hnat : ((u ++ 0#2).setWidth 12).toNat = 4 * u.toNat := by
    rw [BitVec.toNat_setWidth, happ]; omega
  have hint : ((u ++ 0#2).setWidth 12).toInt = (uimm4 u).toNat := by
    rw [BitVec.toInt_eq_toNat_cond, hnat, uimm4_toNat (by norm_num), if_pos (by omega)]
  rw [immI_eq_xval, hint]
  refine xval_of_lt ?_
  rw [uimm4_toNat (by norm_num)]
  rcases XLen.bits_cases xl with hb | hb <;> rw [hb] <;> omega

theorem addX_zero_left {xl : XLen} {a : Word} (ha : a.toNat < 2 ^ xl.bits) : addX xl 0 a = a := by
  rw [addX_eq_xval]
  simpa using xval_of_lt ha

theorem immI_lt (xl : XLen) {k : Nat} (imm : BitVec k) : (immI xl imm).toNat < 2 ^ xl.bits := by
  rw [immI_eq_xval]; exact xval_lt ..

/-! ## The shape of an expansion -/

theorem writePc_advance (s : State) (n : Nat) (t : Word) : (s.advance n).writePc t = s.writePc t := rfl

theorem writePc_seqPc (s : State) {n : Nat} (hn : n < 2 ^ 64) : s.writePc (seqPc s n) = s.advance n := by
  rw [State.advance, s.advance_eq_seqPc hn]

theorem seqPc_writeX (s : State) (r : Reg) (v : Word) (n : Nat) : seqPc (s.writeX r v) n = seqPc s n := by
  rw [seqPc, seqPc, State.readPc_writeX, State.xl, State.writeX_cfg]

/-- The same register write, at two lengths. -/
theorem shortOf_finish {s : State} {c i : Instr} {rd : Reg} {v : Word} (hp : c.present s.cfg = true)
    (hc : exec c s = ifPresent c s (finish s rd v 2)) (hi : exec i s = finish s rd v 4) : ShortOf s c i := by
  refine ⟨_, hi, ?_⟩
  rw [hc, ifPresent_of hp, writePc_advance, ← seqPc_writeX s rd v, writePc_seqPc _ (by norm_num)]
  rfl

theorem shortOf_advance {s : State} {c i : Instr} (hc : exec c s = .next (s.advance 2))
    (hi : exec i s = .next (s.advance 4)) : ShortOf s c i :=
  ⟨_, hi, by rw [hc, writePc_advance, writePc_seqPc _ (by norm_num)]⟩

/-- A taken branch with C and an even pc jumps. -/
theorem branch_short_taken {s : State} {r : CReg} {off : BitVec 8} {cond : (w : Nat) → BitVec w → BitVec w → Bool}
    (hc : s.cfg.ext.c = true) (heven : s.readPc.toNat % 2 = 0) (h : testX s.xl cond (s.readX (creg r)) 0 = true) :
    branch s (creg r) 0 (off.signExtend 12) cond = cBranch s r off cond := by
  have htarget : (addX s.xl s.readPc (offset s.xl off)).toNat % s.cfg.ialignBytes = 0 := by
    rw [ialignBytes_of_c hc]; exact even_target s off heven
  have h' : testX s.xl cond (s.readX (creg r)) (s.readX 0) = true := h
  unfold branch cBranch
  rw [if_pos h', if_pos h, offset_signExtend, jumpChecked_ok htarget]

/-- Settles O33: the operands and the immediates of the two forms are the same numbers. -/
theorem compressedAgreesWithExpansion : Obligations.CompressedAgreesWithExpansion := by
  intro s rd rs2 imm r q u off hc
  have hzero : s.readX 0 = 0 := s.readX_zero
  refine ⟨?add, ?mv, ?addi, ?li, ?addi16sp, ?addi4spn, ?and, ?andi, fun h64 => ⟨?addiw, ?addw⟩, fun h0 heven => ?beqzTaken,
    fun h0 => ?beqzNot, fun h0 heven => ?bnezTaken, fun h0 => ?bnezNot, ?ebreak⟩
  case add => exact shortOf_finish hc rfl (exec_add ..)
  case mv => exact shortOf_finish hc rfl (by rw [exec_add, hzero, addX_zero_left (s.readX_lt rs2)])
  case addi => exact shortOf_finish hc rfl (by rw [exec_addi, immI_signExtend])
  case li => exact shortOf_finish hc rfl (by rw [exec_addi, immI_signExtend, hzero, addX_zero_left (immI_lt ..)])
  case addi16sp => exact shortOf_finish hc rfl (by rw [exec_addi, immI_addi16sp]; rfl)
  case addi4spn => exact shortOf_finish hc rfl (by rw [exec_addi, immI_addi4spn]; rfl)
  case and => exact shortOf_finish hc rfl (exec_and ..)
  case andi => exact shortOf_finish hc rfl (by rw [exec_andi, immI_signExtend])
  case addiw => exact shortOf_finish (present_c64 hc h64) rfl (by rw [exec_addiw _ _ _ h64, immI_signExtend])
  case addw => exact shortOf_finish (present_c64 hc h64) rfl (exec_addw _ _ _ h64)
  case beqzTaken =>
    have ht : testX s.xl cmpEq (s.readX (creg r)) 0 = true := by rw [testX_eq_zero]; exact decide_eq_true h0
    exact (ifPresent_of (i := .cBeqz r off) hc _).trans (branch_short_taken hc heven ht).symm
  case beqzNot =>
    have ht : testX s.xl cmpEq (s.readX (creg r)) 0 = false := by rw [testX_eq_zero]; exact decide_eq_false h0
    exact shortOf_advance ((ifPresent_of (i := .cBeqz r off) hc _).trans (cBranch_not_taken ht))
      (branch_not_taken (rs2 := 0) (by rw [hzero, ht]; exact Bool.false_ne_true))
  case bnezTaken =>
    have ht : testX s.xl cmpNe (s.readX (creg r)) 0 = true := by rw [testX_ne_zero]; exact decide_eq_true h0
    exact (ifPresent_of (i := .cBnez r off) hc _).trans (branch_short_taken hc heven ht).symm
  case bnezNot =>
    have ht : testX s.xl cmpNe (s.readX (creg r)) 0 = false := by
      rw [testX_ne_zero]; exact decide_eq_false (not_not.2 h0)
    exact shortOf_advance ((ifPresent_of (i := .cBnez r off) hc _).trans (cBranch_not_taken ht))
      (branch_not_taken (rs2 := 0) (by rw [hzero, ht]; exact Bool.false_ne_true))
  case ebreak => exact ifPresent_of (i := .cEbreak) hc _

end Sys2Proof.Machine
end

section
/-! PROOFS. The compressed loads and stores (43_compressed_1.md R180 item 7, R192 to R199; 44_compressed_2.md section 2):
the address is the rule's own expression, and what happens is the checked access at it. -/

namespace Sys2Proof.Machine

/-! ## Addresses -/

theorem cAddr_uimm4 (s : State) (q : CReg) (u : BitVec 5) :
    cAddr s q (uimm4 u) = xval s.xl ((s.readX (creg q)).toNat + 4 * u.toNat) := addX_uimm4 _ (by norm_num) ..

theorem cAddr_uimm8 (s : State) (q : CReg) (u : BitVec 5) :
    cAddr s q (uimm8 u) = xval s.xl ((s.readX (creg q)).toNat + 8 * u.toNat) := addX_uimm8 _ (by norm_num) ..

theorem spAddr_uimm4 (s : State) (u : BitVec 6) :
    spAddr s (uimm4 u) = xval s.xl ((s.readX 2).toNat + 4 * u.toNat) := addX_uimm4 _ (by norm_num) ..

theorem spAddr_uimm8 (s : State) (u : BitVec 6) :
    spAddr s (uimm8 u) = xval s.xl ((s.readX 2).toNat + 8 * u.toNat) := addX_uimm8 _ (by norm_num) ..

/-! ## Loads -/

theorem orStop_memRead_ok {s : State} {a : Word} {n : Nat} (h : LoadOk s a n) (k : Word → Out) :
    orStop s (memRead s .load a n) k = k (s.peek a n) := by rw [memRead_ok h.1 h.2, orStop_ok]

theorem peek_eq_ofNat (s : State) (a : Word) {n : Nat} (hn : n ≤ 8) : s.peek a n = BitVec.ofNat 64 (valueAt s a n) := by
  rw [← s.peek_toNat a hn, BitVec.ofNat_toNat, BitVec.setWidth_eq]

theorem completesX_loadWord {i : Instr} {s : State} {rd : Reg} {a : Word} (hp : i.present s.cfg = true)
    (h : exec i s = ifPresent i s (loadWord s rd a)) (hok : LoadOk s a 4) :
    CompletesX i s rd (xval s.xl (low32 (valueAt s a 4))) (seqPc s 2) := by
  refine completesX_compressed hp (h.trans (congrArg (ifPresent i s) (orStop_memRead_ok hok _))) ?_
  rw [wrap_sextWord, sextWord_eq_xval, s.peek_toNat a (by norm_num)]

theorem completesX_loadDouble {i : Instr} {s : State} {rd : Reg} {a : Word} (hp : i.present s.cfg = true)
    (h64 : s.cfg.xlen = .rv64) (h : exec i s = ifPresent i s (loadDouble s rd a)) (hok : LoadOk s a 8) :
    CompletesX i s rd (BitVec.ofNat 64 (valueAt s a 8)) (seqPc s 2) := by
  refine completesX_compressed hp (h.trans (congrArg (ifPresent i s) (orStop_memRead_ok hok _))) ?_
  rw [State.xl, h64, ← peek_eq_ofNat s a (by norm_num)]; rfl

/-- Settles O28. -/
theorem compressedLoads : Obligations.CompressedLoads := by
  intro s r q rd u5 u6 a hc
  refine ⟨fun ha hok => ?lw, fun ha hok => ?lwsp, fun h64 ha hok => ?ld, fun h64 ha hok => ?ldsp⟩
  case lw => rw [← cAddr_uimm4] at ha; subst ha; exact completesX_loadWord hc rfl hok
  case lwsp => rw [← spAddr_uimm4] at ha; subst ha; exact completesX_loadWord hc rfl hok
  case ld => rw [← cAddr_uimm8] at ha; subst ha; exact completesX_loadDouble (present_c64 hc h64) h64 rfl hok
  case ldsp => rw [← spAddr_uimm8] at ha; subst ha; exact completesX_loadDouble (present_c64 hc h64) h64 rfl hok

/-! ## Floating-point loads -/

/-- The shape of the floating-point loads: present, and then one register write. -/
theorem completesF_compressed {i : Instr} {s : State} {rd : Reg} {v w : Word} (hp : i.present s.cfg = true)
    (h : exec i s = ifPresent i s (.next ((s.writeF rd v).advance 2))) (hv : wrapF s.cfg v = w) :
    CompletesF i s rd w (seqPc s 2) := by
  subst hv
  exact ⟨_, h.trans (ifPresent_of hp _), onlyF_finish s rd v (by norm_num)⟩

theorem wrapF_of_d {c : Config} (h : c.ext.d = true) (v : Word) : wrapF c v = v := if_pos h

theorem boxed_toNat (v : BitVec 32) : (BitVec.allOnes 32 ++ v).toNat = (2 ^ 32 - 1) * 2 ^ 32 + v.toNat := by
  rw [BitVec.toNat_append, BitVec.toNat_allOnes, ← Nat.shiftLeft_add_eq_or_of_lt v.isLt, Nat.shiftLeft_eq]

/-- A single in an f register, boxed where FLEN = 64 (10_state.md R33). -/
theorem wrapF_boxF {c : Config} (hf : c.ext.f = true) (v : BitVec 32) :
    wrapF c (boxF c v) = BitVec.ofNat 64 (if c.ext.d then (2 ^ 32 - 1) * 2 ^ 32 + v.toNat else v.toNat) := by
  have hv := v.isLt
  cases hd : c.ext.d with
  | true =>
    rw [wrapF_of_d hd, boxF, if_pos hd, if_pos rfl, ← boxed_toNat, BitVec.ofNat_toNat, BitVec.setWidth_eq]
  | false =>
    simp only [wrapF, boxF, hd, hf, Bool.false_eq_true, if_false, if_true]
    apply BitVec.eq_of_toNat_eq
    simp only [BitVec.toNat_setWidth, BitVec.toNat_ofNat]
    omega

theorem completesF_loadFDouble {i : Instr} {s : State} {rd : Reg} {a : Word} (hp : i.present s.cfg = true)
    (hd : s.cfg.ext.d = true) (h : exec i s = ifPresent i s (loadFDouble s rd a)) (hok : LoadOk s a 8) :
    CompletesF i s rd (BitVec.ofNat 64 (valueAt s a 8)) (seqPc s 2) := by
  refine completesF_compressed hp (h.trans (congrArg (ifPresent i s) (orStop_memRead_ok hok _))) ?_
  rw [wrapF_of_d hd, peek_eq_ofNat s a (by norm_num)]

theorem completesF_loadFWord {i : Instr} {s : State} {rd : Reg} {a : Word} (hp : i.present s.cfg = true)
    (hf : s.cfg.ext.f = true) (h : exec i s = ifPresent i s (loadFWord s rd a)) (hok : LoadOk s a 4) :
    CompletesF i s rd (BitVec.ofNat 64
      (if s.cfg.ext.d then (2 ^ 32 - 1) * 2 ^ 32 + valueAt s a 4 else valueAt s a 4)) (seqPc s 2) := by
  refine completesF_compressed hp (h.trans (congrArg (ifPresent i s) (orStop_memRead_ok hok _))) ?_
  have hlt : valueAt s a 4 < 2 ^ 32 := valueAt_lt s a 4
  rw [wrapF_boxF hf, BitVec.toNat_setWidth, s.peek_toNat a (by norm_num), Nat.mod_eq_of_lt hlt]

theorem present_cd {c : Config} (hc : c.ext.c = true) (hd : c.ext.d = true) : (c.ext.c && c.ext.d) = true := by
  rw [hc, hd]; rfl

theorem present_cf32 {c : Config} (hc : c.ext.c = true) (hf : c.ext.f = true) (h32 : c.xlen = .rv32) :
    (c.ext.c && c.ext.f && c.is32) = true := by
  rw [hc, hf, Config.is32, h32]; rfl

/-- Settles O29: with D the 64 bits of the load, with F at XLEN = 32 the boxed single. -/
theorem compressedFloatLoads : Obligations.CompressedFloatLoads := by
  intro s r q rd u5 u6 a hc
  refine ⟨fun hd ha hok => ?fld, fun hd ha hok => ?fldsp, fun hf h32 ha hok => ?flw, fun hf h32 ha hok => ?flwsp⟩
  case fld => rw [← cAddr_uimm8] at ha; subst ha; exact completesF_loadFDouble (present_cd hc hd) hd rfl hok
  case fldsp => rw [← spAddr_uimm8] at ha; subst ha; exact completesF_loadFDouble (present_cd hc hd) hd rfl hok
  case flw => rw [← cAddr_uimm4] at ha; subst ha; exact completesF_loadFWord (present_cf32 hc hf h32) hf rfl hok
  case flwsp => rw [← spAddr_uimm4] at ha; subst ha; exact completesF_loadFWord (present_cf32 hc hf h32) hf rfl hok

/-! ## Stores -/

theorem completesStore_store {i : Instr} {s : State} {a v : Word} {n : Nat} (hp : i.present s.cfg = true)
    (h : exec i s = ifPresent i s (storeBytes s a n v)) (hwf : Memory.wf s.mem = true) (hn : n ≤ 8)
    (hok : StoreOk s a n) : CompletesStore i s a n v (seqPc s 2) := by
  refine ⟨_, h.trans ((ifPresent_of hp _).trans ?_), onlyStore_poke hwf a hn v (by norm_num)⟩
  rw [storeBytes, memWrite_ok hn hok v, orStop_ok]

/-- Settles O30. -/
theorem compressedStores : Obligations.CompressedStores := by
  intro s r q rs2 u5 u6 a hc hwf
  refine ⟨fun ha hok => ?sw, fun ha hok => ?swsp, fun h64 ha hok => ?sd, fun h64 ha hok => ?sdsp⟩
  case sw => rw [← cAddr_uimm4] at ha; subst ha; exact completesStore_store hc rfl hwf (by norm_num) hok
  case swsp => rw [← spAddr_uimm4] at ha; subst ha; exact completesStore_store hc rfl hwf (by norm_num) hok
  case sd => rw [← cAddr_uimm8] at ha; subst ha; exact completesStore_store (present_c64 hc h64) rfl hwf le_rfl hok
  case sdsp => rw [← spAddr_uimm8] at ha; subst ha; exact completesStore_store (present_c64 hc h64) rfl hwf le_rfl hok

/-- Settles O31. -/
theorem compressedFloatStores : Obligations.CompressedFloatStores := by
  intro s r q rs2 u5 u6 a hc hwf
  refine ⟨fun hd ha hok => ?fsd, fun hd ha hok => ?fsdsp, fun hf h32 ha hok => ?fsw, fun hf h32 ha hok => ?fswsp⟩
  case fsd => rw [← cAddr_uimm8] at ha; subst ha; exact completesStore_store (present_cd hc hd) rfl hwf le_rfl hok
  case fsdsp => rw [← spAddr_uimm8] at ha; subst ha; exact completesStore_store (present_cd hc hd) rfl hwf le_rfl hok
  case fsw =>
    rw [← cAddr_uimm4] at ha; subst ha; exact completesStore_store (present_cf32 hc hf h32) rfl hwf (by norm_num) hok
  case fswsp =>
    rw [← spAddr_uimm4] at ha; subst ha; exact completesStore_store (present_cf32 hc hf h32) rfl hwf (by norm_num) hok

/-! ## Accesses that may not take place -/

/-- A compressed load is the checked read at its operand, and what follows it. -/
theorem exec_load {i : Instr} {s : State} {a : Word} {n : Nat} (hp : i.present s.cfg = true)
    (hk : Instr.kind i = .load ∨ Instr.kind i = .floatLoad) (hm : memOperand i s = some (a, n)) :
    ∃ k, exec i s = orStop s (memRead s .load a n) k := by
  cases i
  case cLw r q u => cases hm; rw [← cAddr_uimm4]; exact ⟨_, ifPresent_of (i := .cLw r q u) hp _⟩
  case cLd r q u => cases hm; rw [← cAddr_uimm8]; exact ⟨_, ifPresent_of (i := .cLd r q u) hp _⟩
  case cFlw r q u => cases hm; rw [← cAddr_uimm4]; exact ⟨_, ifPresent_of (i := .cFlw r q u) hp _⟩
  case cFld r q u => cases hm; rw [← cAddr_uimm8]; exact ⟨_, ifPresent_of (i := .cFld r q u) hp _⟩
  case cLwsp rd u => cases hm; rw [← spAddr_uimm4]; exact ⟨_, ifPresent_of (i := .cLwsp rd u) hp _⟩
  case cLdsp rd u => cases hm; rw [← spAddr_uimm8]; exact ⟨_, ifPresent_of (i := .cLdsp rd u) hp _⟩
  case cFlwsp rd u => cases hm; rw [← spAddr_uimm4]; exact ⟨_, ifPresent_of (i := .cFlwsp rd u) hp _⟩
  case cFldsp rd u => cases hm; rw [← spAddr_uimm8]; exact ⟨_, ifPresent_of (i := .cFldsp rd u) hp _⟩
  all_goals exact absurd hk (by simp [Instr.kind])

/-- A compressed store is the checked write at its operand, and the advance of pc. -/
theorem exec_store {i : Instr} {s : State} {a : Word} {n : Nat} (hp : i.present s.cfg = true)
    (hk : Instr.kind i = .store) (hm : memOperand i s = some (a, n)) :
    n ≤ 8 ∧ ∃ v, exec i s = storeBytes s a n v := by
  cases i
  case cSw r q u => cases hm; rw [← cAddr_uimm4]; exact ⟨by norm_num, _, ifPresent_of (i := .cSw r q u) hp _⟩
  case cSd r q u => cases hm; rw [← cAddr_uimm8]; exact ⟨le_rfl, _, ifPresent_of (i := .cSd r q u) hp _⟩
  case cFsw r q u => cases hm; rw [← cAddr_uimm4]; exact ⟨by norm_num, _, ifPresent_of (i := .cFsw r q u) hp _⟩
  case cFsd r q u => cases hm; rw [← cAddr_uimm8]; exact ⟨le_rfl, _, ifPresent_of (i := .cFsd r q u) hp _⟩
  case cSwsp r u => cases hm; rw [← spAddr_uimm4]; exact ⟨by norm_num, _, ifPresent_of (i := .cSwsp r u) hp _⟩
  case cSdsp r u => cases hm; rw [← spAddr_uimm8]; exact ⟨le_rfl, _, ifPresent_of (i := .cSdsp r u) hp _⟩
  case cFswsp r u => cases hm; rw [← spAddr_uimm4]; exact ⟨by norm_num, _, ifPresent_of (i := .cFswsp r u) hp _⟩
  case cFsdsp r u => cases hm; rw [← spAddr_uimm8]; exact ⟨le_rfl, _, ifPresent_of (i := .cFsdsp r u) hp _⟩
  all_goals cases hk

/-- Settles O32: each check of the access ends the instruction when those before it have passed. -/
theorem loadAndStoreTraps : Obligations.LoadAndStoreTraps := by
  intro s i a n hp hm
  refine ⟨fun hk => ?load, fun hk => ?store⟩
  case load =>
    obtain ⟨k, hexec⟩ := exec_load hp hk hm
    rw [hexec]
    refine ⟨fun h0 => ?_, fun h0 h1 => ?_⟩
    · rw [memRead_misaligned h0]; rfl
    · rw [memRead_fault h0 h1]; rfl
  case store =>
    obtain ⟨hn, v, hexec⟩ := exec_store hp hk hm
    rw [hexec, storeBytes]
    refine ⟨fun h0 => ?_, fun h0 h1 => ?_, fun h0 h1 h2 => ?_⟩
    · rw [memWrite_misaligned h0, orStop_trap]
    · rw [memWrite_fault h0 h1, orStop_trap]
    · rw [memWrite_text hn h0 h1 h2, orStop_refuse]

end Sys2Proof.Machine
end

section
/-! PROOFS. The atomic memory operations (41_atomics.md): one read and one write at x[rs1], the operation of R130 on
numbers, and the old value in x[rd]. -/

namespace Sys2Proof.Machine

/-! ## The nine operations as functions on numbers (R130) -/

/-- The operation of the model, at any width. -/
def AmoOp.fn : AmoOp → (w : Nat) → BitVec w → BitVec w → BitVec w
  | .add => amoAdd
  | .and => amoAnd
  | .or => amoOr
  | .xor => amoXor
  | .swap => amoSwap
  | .max => amoMax
  | .maxu => amoMaxu
  | .min => amoMin
  | .minu => amoMinu

theorem signed_toNat {w : Nat} (hw : 0 < w) (b : BitVec w) : signed w b.toNat = b.toInt := by
  have hpow : 2 ^ w = 2 * 2 ^ (w - 1) := by rw [← pow_succ', Nat.sub_add_cancel hw]
  rw [signed, BitVec.toInt_eq_toNat_cond]
  by_cases h : b.toNat < 2 ^ (w - 1)
  · rw [if_pos h, if_pos (by omega)]
  · rw [if_neg h, if_neg (by omega)]; push_cast; rfl

/-- A choice between two values is the choice between their numbers. -/
theorem toNat_ite {w : Nat} {c : Bool} {p : Prop} [Decidable p] (h : c = true ↔ p) (a b : BitVec w) :
    (if c then a else b).toNat = if p then a.toNat else b.toNat := by
  by_cases hp : p
  · rw [if_pos hp, if_pos (h.2 hp)]
  · rw [if_neg hp, if_neg (fun hc => hp (h.1 hc))]

theorem AmoOp.fn_toNat (op : AmoOp) {w : Nat} (hw : 0 < w) (t b : BitVec w) :
    (op.fn w t b).toNat = op.apply w t.toNat b.toNat := by
  cases op with
  | add => exact BitVec.toNat_add ..
  | and => exact BitVec.toNat_and ..
  | or => exact BitVec.toNat_or ..
  | xor => exact BitVec.toNat_xor ..
  | swap => rfl
  | max =>
    exact toNat_ite (by rw [signed_toNat hw, signed_toNat hw]; exact decide_eq_true_iff) t b
  | maxu => exact toNat_ite decide_eq_true_iff t b
  | min =>
    exact toNat_ite (by rw [signed_toNat hw, signed_toNat hw]; exact decide_eq_true_iff) t b
  | minu => exact toNat_ite decide_eq_true_iff t b

/-! ## The meaning of the eighteen instructions -/

theorem exec_amoWord (op : AmoOp) {aq rl : Bool} {rs2 rs1 rd : Reg} {s : State} (h : s.cfg.ext.a = true) :
    exec (op.word aq rl rs2 rs1 rd) s = amo32 s rs2 rs1 rd op.fn := by
  have hp : (op.word aq rl rs2 rs1 rd).present s.cfg = true := by cases op <;> exact h
  rw [← ifPresent_of hp (amo32 s rs2 rs1 rd op.fn)]
  cases op <;> rfl

theorem exec_amoDouble (op : AmoOp) {aq rl : Bool} {rs2 rs1 rd : Reg} {s : State} (h : s.cfg.ext.a = true)
    (h64 : s.cfg.xlen = .rv64) : exec (op.double aq rl rs2 rs1 rd) s = amo64 s rs2 rs1 rd op.fn := by
  have ha64 : (s.cfg.ext.a && s.cfg.is64) = true := by rw [h, Config.is64_of_rv64 h64]; rfl
  have hp : (op.double aq rl rs2 rs1 rd).present s.cfg = true := by cases op <;> exact ha64
  rw [← ifPresent_of hp (amo64 s rs2 rs1 rd op.fn)]
  cases op <;> rfl

theorem decode_amoWord (op : AmoOp) {aq rl : Bool} {rs2 rs1 rd : Reg} {c : Config} (h : c.ext.a = true) :
    decode c (.full (op.funct5 ++ bit1 aq ++ bit1 rl ++ rs2 ++ rs1 ++ 0b010#3 ++ rd ++ 0b0101111#7)) =
      .instr (op.word aq rl rs2 rs1 rd) := by
  cases op <;> exact decode_full_present (decode32_amo ..) h

theorem decode_amoDouble (op : AmoOp) {aq rl : Bool} {rs2 rs1 rd : Reg} {c : Config} (h : c.ext.a = true)
    (h64 : c.xlen = .rv64) :
    decode c (.full (op.funct5 ++ bit1 aq ++ bit1 rl ++ rs2 ++ rs1 ++ 0b011#3 ++ rd ++ 0b0101111#7)) =
      .instr (op.double aq rl rs2 rs1 rd) := by
  have hp : (c.ext.a && c.is64) = true := by rw [h, Config.is64_of_rv64 h64]; rfl
  cases op <;> exact decode_full_present (decode32_amo ..) hp

/-! ## The read and the write -/

theorem amoUpdate_ok {s : State} {a : Word} {n : Nat} (hn : n ≤ 8) (h : AmoOk s a n) (new : Word → Word) :
    amoUpdate s a n new = .ok (s.peek a n, s.poke a n (new (s.peek a n))) := by
  obtain ⟨hstore, hamo⟩ := h
  unfold amoUpdate
  rw [memRead_ok hstore.1 hamo]
  simp only [memWrite_ok hn hstore]

theorem amoUpdate_misaligned {s : State} {a : Word} {n : Nat} (h : a.toNat % n ≠ 0) (new : Word → Word) :
    amoUpdate s a n new = .error (.trap (.storeAMOAddressMisaligned a)) := by
  unfold amoUpdate; rw [memRead_misaligned h]; rfl

theorem amoUpdate_fault {s : State} {a : Word} {n : Nat} (h0 : a.toNat % n = 0)
    (h1 : memAdmit s.cfg a n .amo = false ∨ memAdmit s.cfg a n .store = false) (new : Word → Word) :
    amoUpdate s a n new = .error (.trap (.storeAMOAccessFault a)) := by
  unfold amoUpdate
  cases hamo : memAdmit s.cfg a n .amo with
  | false => rw [memRead_fault h0 hamo]; rfl
  | true =>
    have hstore : memAdmit s.cfg a n .store = false := h1.resolve_left (by simp [hamo])
    rw [memRead_ok h0 hamo]
    simp only [memWrite_fault h0 hstore]

theorem amoUpdate_text {s : State} {a : Word} {n : Nat} (hn : n ≤ 8) (h0 : a.toNat % n = 0)
    (h1 : memAdmit s.cfg a n .amo = true) (h2 : memAdmit s.cfg a n .store = true) (h3 : ¬ OutsideText s a n)
    (new : Word → Word) : amoUpdate s a n new = .error (.refuse .storeToCode) := by
  unfold amoUpdate
  rw [memRead_ok h0 h1]
  simp only [memWrite_text hn h0 h2 h3]

/-- The end of an AMO. -/
theorem onlyXStore_poke {s : State} (h : Memory.wf s.mem = true) (rd : Reg) (v a : Word) {n : Nat} (hn : n ≤ 8)
    (w : Word) {k : Nat} (hk : k < 2 ^ 64) :
    OnlyXStore s (((s.poke a n w).writeX rd v).advance k) rd (wrap s.xl v) a n w (seqPc s k) := by
  obtain ⟨hbytes, hframe⟩ := State.storedAt_poke h a hn w
  refine ⟨?_, fun r hr => ?_, ⟨fun i hi => ?_, fun b hb => ?_⟩, ?_, fun r => by simp, fun c => by simp, by simp [SameModel]⟩
  · rw [State.readX_advance, State.readX_writeX_self, State.xl, State.poke_cfg]
  · rw [State.readX_advance, State.readX_writeX_ne _ hr, State.readX_poke]
  · rw [State.byte_advance, State.byte_writeX, hbytes i hi]
  · rw [State.byte_advance, State.byte_writeX, hframe b hb]
  · rw [State.readPc_advance, State.advance_eq_seqPc _ hk, seqPc_writeX, seqPc, seqPc, State.readPc_poke, State.xl,
      State.poke_cfg]

/-- Settles O14: the write is the operation on the low words, as numbers; the copy to x[rd] comes after it. -/
theorem amoWord : Obligations.AmoWord := by
  intro op aq rl rs2 rs1 rd s ha
  refine ⟨decode_amoWord op ha, fun hwf hok => ?_⟩
  have hold : ((s.peek (s.readX rs1) 4).setWidth 32).toNat = valueAt s (s.readX rs1) 4 := by
    have hlt : valueAt s (s.readX rs1) 4 < 2 ^ 32 := valueAt_lt s _ 4
    rw [BitVec.toNat_setWidth, s.peek_toNat _ (by norm_num), Nat.mod_eq_of_lt hlt]
  have hnew : (op.fn 32 ((s.peek (s.readX rs1) 4).setWidth 32) ((s.readX rs2).setWidth 32)).setWidth 64 =
      BitVec.ofNat 64 (op.apply 32 (valueAt s (s.readX rs1) 4) ((s.readX rs2).toNat % 2 ^ 32)) := by
    refine (BitVec.ofNat_toNat 64 _).symm.trans (congrArg (BitVec.ofNat 64) ?_)
    rw [op.fn_toNat (by norm_num), hold, BitVec.toNat_setWidth]
  have hrd : wrap s.xl (sextWord s.xl (s.peek (s.readX rs1) 4)) =
      xval s.xl (low32 (valueAt s (s.readX rs1) 4)) := by
    rw [wrap_sextWord, sextWord_eq_xval, s.peek_toNat _ (by norm_num)]
  have honly := onlyXStore_poke hwf rd (sextWord s.xl (s.peek (s.readX rs1) 4)) (s.readX rs1) (n := 4) (by norm_num)
    (BitVec.ofNat 64 (op.apply 32 (valueAt s (s.readX rs1) 4) ((s.readX rs2).toNat % 2 ^ 32))) (k := 4) (by norm_num)
  rw [hrd] at honly
  refine ⟨_, ?_, honly⟩
  rw [exec_amoWord op ha, amo32, amoUpdate_ok (by norm_num) hok, orStop_ok, hnew]

/-- Settles O15. -/
theorem amoDouble : Obligations.AmoDouble := by
  intro op aq rl rs2 rs1 rd s ha h64
  refine ⟨decode_amoDouble op ha h64, fun hwf hok => ?_⟩
  have hold := s.peek_toNat (s.readX rs1) (n := 8) le_rfl
  have hnew : op.fn 64 (s.peek (s.readX rs1) 8) (s.readX rs2) =
      BitVec.ofNat 64 (op.apply 64 (valueAt s (s.readX rs1) 8) (s.readX rs2).toNat) := by
    rw [← hold, ← op.fn_toNat (by norm_num), BitVec.ofNat_toNat, BitVec.setWidth_eq]
  have hrd : wrap s.xl (s.peek (s.readX rs1) 8) = BitVec.ofNat 64 (valueAt s (s.readX rs1) 8) := by
    rw [State.xl, h64, ← peek_eq_ofNat s _ le_rfl]; rfl
  have honly := onlyXStore_poke hwf rd (s.peek (s.readX rs1) 8) (s.readX rs1) (n := 8) le_rfl
    (BitVec.ofNat 64 (op.apply 64 (valueAt s (s.readX rs1) 8) (s.readX rs2).toNat)) (k := 4) (by norm_num)
  rw [hrd] at honly
  refine ⟨_, ?_, honly⟩
  rw [exec_amoDouble op ha h64, amo64, amoUpdate_ok le_rfl hok, orStop_ok, hnew]

/-- Settles O16: the read's checks, then the write's, in the order of R150. -/
theorem amoTraps : Obligations.AmoTraps := by
  intro op aq rl rs2 rs1 rd s i n ha hi
  obtain ⟨hn, new, k, hexec⟩ : n ≤ 8 ∧ ∃ new k, exec i s = orStop s (amoUpdate s (s.readX rs1) n new) k := by
    obtain ⟨rfl, rfl⟩ | ⟨rfl, rfl, h64⟩ := hi
    · exact ⟨by norm_num, _, _, exec_amoWord op ha⟩
    · exact ⟨le_rfl, _, _, exec_amoDouble op ha h64⟩
  rw [hexec]
  refine ⟨fun h0 => ?_, fun h0 h1 => ?_, fun h0 h1 h2 h3 => ?_⟩
  · rw [amoUpdate_misaligned h0, orStop_trap]
  · rw [amoUpdate_fault h0 h1, orStop_trap]
  · rw [amoUpdate_text hn h0 h1 h2 h3, orStop_refuse]

/-- Settles O17: the meanings of R133 and R132 do not name aq and rl. -/
theorem aqRlNoEffect : Obligations.AqRlNoEffect := by
  intro op aq rl aq' rl' rs2 rs1 rd s ha
  refine ⟨?_, fun h64 => ?_⟩
  · rw [exec_amoWord op ha, exec_amoWord op ha]
  · rw [exec_amoDouble op ha h64, exec_amoDouble op ha h64]

end Sys2Proof.Machine
end

section
/-! PROOFS. The CSR instructions (45_call_and_csr.md): the six as one shape over their operands, on any CSR, on a CSR that
is plain storage, and in the seven pseudo-instructions. -/

namespace Sys2Proof.Machine

/-! ## The rights -/

theorem csrAllowed_iff {s : State} {a : BitVec 12} {doRead doWrite : Bool} :
    csrAllowed s a doRead doWrite = true ↔ (csrDesc s.cfg a).isSome = true ∧ (doRead = true → csrReadable s a = true) ∧
      (doWrite = true → csrWritable s a = true) := by
  cases doRead <;> cases doWrite <;> simp [csrAllowed, and_assoc]

/-- Settles O37: all checks come first, in the state before the instruction. -/
theorem csrIllegal : Obligations.CsrIllegal := by
  intro s i rd a doRead doWrite new hops hdenied
  rw [exec_csrOperands hops]
  refine csrInstr_denied ?_
  rw [Bool.eq_false_iff, ne_eq, csrAllowed_iff]
  rintro ⟨hexists, hread, hwrite⟩
  obtain h | ⟨hr, h⟩ | ⟨hw, h⟩ := hdenied
  · simp [hexists] at h
  · simp [hread hr] at h
  · simp [hwrite hw] at h

/-! ## The accesses -/

/-- The value of a read is an XLEN-bit value. -/
theorem wrap_of_csrGet {s t : State} {a : BitVec 12} {v : Word} (h : csrGet s a = .ok (v, t)) : wrap s.xl v = v := by
  unfold csrGet at h
  split at h
  · split at h <;> cases h
    exact wrap_wrap _ _
  · cases h; exact s.wrap_csr a
  · cases h; exact s.wrap_csr a

theorem csrAccess_read_refused {s : State} {a : BitVec 12} {doWrite : Bool} {new : State → Word → Word} {e : Stop}
    (h : csrGet s a = .error e) : csrAccess s a true doWrite new = .error e := by
  unfold csrAccess
  rw [if_pos rfl, h]

theorem csrAccess_write_refused {s got : State} {a : BitVec 12} {doRead : Bool} {new : State → Word → Word} {v : Word}
    {e : Stop} (hr : if doRead then csrGet s a = .ok (v, got) else v = 0 ∧ got = s)
    (hw : csrSet got a (new got v) = .error e) : csrAccess s a doRead true new = .error e := by
  have hread : (if doRead then csrGet s a else .ok (0, s)) = .ok (v, got) := by
    cases doRead with
    | true => exact hr
    | false => obtain ⟨rfl, rfl⟩ := hr; rfl
  unfold csrAccess
  rw [hread]
  simp only [if_true, hw]

/-- Settles O36: the accesses leave pc and the parameters alone, and the copy to x[rd] comes after them. -/
theorem csrAccesses : Obligations.CsrAccesses := by
  intro s i rd a doRead doWrite new hops hexists hread hwrite
  rw [exec_csrOperands hops, csrInstr_allowed (csrAllowed_iff.2 ⟨hexists, hread, hwrite⟩)]
  refine ⟨fun v got u hr hw => ?completes, fun h => ?refused⟩
  case completes =>
    have hacc := csrAccess_ok hr hw
    have hreach : CsrReach s u := by
      obtain ⟨v', u', hok, hu⟩ | herr := csrAccess_cases s a doRead doWrite new
      · rw [hacc] at hok; cases hok; exact hu
      · rw [hacc] at herr; cases herr
    obtain ⟨hpc, hcfg, -⟩ := hreach.keeps
    have hv : wrap u.xl v = v := by
      rw [State.xl, hcfg]
      cases doRead with
      | true => exact wrap_of_csrGet hr
      | false => obtain ⟨rfl, -⟩ := hr; exact wrap_zero _
    obtain ⟨hrd, hx, hreadPc, hf, hcsrs, hmem, hmodel⟩ := onlyX_finish u rd v (n := 4) (by norm_num)
    rw [hv] at hrd
    refine ⟨_, by rw [hacc, orStop_ok], hrd, hx, ?_, hf, hcsrs, hmem, hmodel.1.trans hcfg, hmodel.2⟩
    rw [hreadPc, seqPc, seqPc, State.readPc, State.readPc, State.xl, hcfg, hpc]
  case refused =>
    obtain ⟨rfl, hget⟩ | ⟨v, got, hr, rfl, hset⟩ := h
    · rw [csrAccess_read_refused hget, orStop_refuse]
    · rw [csrAccess_write_refused hr hset, orStop_refuse]

/-! ## A CSR that is plain storage -/

/-- The end of a CSR instruction that writes: `v'` is what is copied, `v` what x[rd] then holds if it is not x[0]. -/
theorem onlyCsrX_write {s : State} (h : sparseWf s.csrs = true) (a : BitVec 12) (n : Word) {rd : Reg} {v v' : Word}
    (hv : rd ≠ 0 → wrap s.xl v' = v) :
    OnlyCsrX s (((s.setCsr a n).writeX rd v').advance 4) a (wrap s.xl n) rd v (seqPc s 4) := by
  refine ⟨?_, fun b hb => ?_, ?_, fun r hr => ?_, ?_, fun r => by simp, fun b => by simp, by simp [SameModel]⟩
  · rw [State.csr_advance, State.csr_writeX, State.csr_setCsr h, if_pos rfl]
  · rw [State.csr_advance, State.csr_writeX, State.csr_setCsr h, if_neg hb]
  · rw [State.readX_advance, State.readX_writeX_self]
    by_cases hrd : rd = 0
    · rw [if_pos hrd, if_pos hrd]
    · rw [if_neg hrd, if_neg hrd]; exact hv hrd
  · rw [State.readX_advance, State.readX_writeX_ne _ hr, State.readX_setCsr]
  · rw [State.readPc_advance, State.advance_eq_seqPc _ (by norm_num), seqPc_writeX]; rfl

/-- The end of a CSR instruction that does not write. -/
theorem onlyCsrX_noWrite (s : State) (a : BitVec 12) {rd : Reg} {v v' : Word} (hv : rd ≠ 0 → wrap s.xl v' = v) :
    OnlyCsrX s ((s.writeX rd v').advance 4) a (s.csr a) rd v (seqPc s 4) := by
  obtain ⟨hrd, hx, hpc, hf, hcsrs, hmem, hmodel⟩ := onlyX_finish s rd v' (n := 4) (by norm_num)
  refine ⟨hcsrs a, fun b _ => hcsrs b, hrd.trans ?_, hx, hpc, hf, hmem, hmodel⟩
  by_cases h0 : rd = 0
  · rw [if_pos h0, if_pos h0]
  · rw [if_neg h0, if_neg h0]; exact hv h0

/-- A CSR instruction on plain storage with the rights it needs: the CSR ends at `n`, x[rd] at its old value. -/
theorem exec_csr_storage {i : Instr} {s : State} {rd : Reg} {a : BitVec 12} {doRead doWrite r w : Bool}
    {new : State → Word → Word} {m n : Word} (hwf : sparseWf s.csrs = true)
    (hops : csrOperands i s = some (rd, a, doRead, doWrite, new)) (hd : csrDesc s.cfg a = some (.storage r w m))
    (hr : doRead = true → r = true) (hw : doWrite = true → w = true) (hrd : rd ≠ 0 → doRead = true)
    (hn : doWrite = true →
      wrap s.xl ((s.csr a &&& ~~~m) ||| (new s (if doRead then s.csr a else 0) &&& m)) = n)
    (h0 : doWrite = false → s.csr a = n) :
    ∃ t, exec i s = .next t ∧ OnlyCsrX s t a n rd (s.csr a) (seqPc s 4) := by
  have hallowed : csrAllowed s a doRead doWrite = true := by
    rw [csrAllowed_storage hd]
    cases doRead <;> cases doWrite <;> simp_all
  have hget : if doRead then csrGet s a = .ok (if doRead then s.csr a else 0, s)
      else (if doRead then s.csr a else 0) = 0 ∧ s = s := by
    cases doRead with
    | true => exact csrGet_storage hd
    | false => exact ⟨rfl, rfl⟩
  have hv : rd ≠ 0 → wrap s.xl (if doRead then s.csr a else 0) = s.csr a := fun h => by
    rw [hrd h]; exact s.wrap_csr a
  rw [exec_csrOperands hops, csrInstr_allowed hallowed]
  cases doWrite with
  | true =>
    have hacc := csrAccess_ok (doWrite := true) (new := new) hget (csrSet_storage hd _)
    refine ⟨_, by rw [hacc, orStop_ok], ?_⟩
    rw [← hn rfl]
    exact onlyCsrX_write hwf a _ hv
  | false =>
    have hacc := csrAccess_ok (doWrite := false) (new := new) hget rfl
    refine ⟨_, by rw [hacc, orStop_ok], ?_⟩
    rw [← h0 rfl]
    exact onlyCsrX_noWrite s a hv

/-- Settles O34: the operand is written under the mask of writable bits, whether or not the CSR is read. -/
theorem csrReadWrite : Obligations.CsrReadWrite := by
  intro s rd rs1 zimm a r w m hwf hd hr hw
  refine ⟨?csrrw, ?csrrwi⟩
  case csrrw =>
    exact exec_csr_storage (i := .csrrw rd a rs1) hwf rfl hd (fun h => hr (of_decide_eq_true h)) (fun _ => hw)
      (fun h => decide_eq_true h) (fun _ => rfl) nofun
  case csrrwi =>
    exact exec_csr_storage (i := .csrrwi rd a zimm) hwf rfl hd (fun h => hr (of_decide_eq_true h)) (fun _ => hw)
      (fun h => decide_eq_true h) (fun _ => rfl) nofun

/-! ## Setting and clearing bits under the mask of writable bits -/

theorem set_bit_under_mask : ∀ c x m : Bool, ((c && !m) || ((c || x) && m)) = (c || (x && m)) := by decide

theorem clear_bit_under_mask : ∀ c x m : Bool, ((c && !m) || ((c && !x) && m)) = (c && !(x && m)) := by decide

theorem set_under_mask (c x m : Word) : (c &&& ~~~m) ||| ((c ||| x) &&& m) = c ||| (x &&& m) := by
  ext i hi
  simp only [BitVec.getElem_or, BitVec.getElem_and, BitVec.getElem_not]
  exact set_bit_under_mask _ _ _

theorem clear_under_mask (c x m : Word) : (c &&& ~~~m) ||| ((c &&& ~~~x) &&& m) = c &&& ~~~(x &&& m) := by
  ext i hi
  simp only [BitVec.getElem_or, BitVec.getElem_and, BitVec.getElem_not]
  exact clear_bit_under_mask _ _ _

theorem wrap_set_bits {xl : XLen} {c x : Word} (m : Word) (hc : c.toNat < 2 ^ xl.bits) (hx : x.toNat < 2 ^ xl.bits) :
    wrap xl ((c &&& ~~~m) ||| (orX xl c x &&& m)) = c ||| (x &&& m) := by
  rw [orX_eq xl hc hx, set_under_mask, wrap_eq_self_iff, BitVec.toNat_or, BitVec.toNat_and]
  exact Nat.or_lt_two_pow hc (lt_of_le_of_lt Nat.and_le_left hx)

theorem wrap_clear_bits {xl : XLen} {c : Word} (x m : Word) (hc : c.toNat < 2 ^ xl.bits) :
    wrap xl ((c &&& ~~~m) ||| (andNotX xl c x &&& m)) = c &&& ~~~(x &&& m) := by
  rw [andNotX_eq xl hc, clear_under_mask, wrap_eq_self_iff, BitVec.toNat_and]
  exact lt_of_le_of_lt Nat.and_le_left hc

theorem zimm_lt (xl : XLen) (zimm : BitVec 5) : ((zimm.setWidth 64 : Word)).toNat < 2 ^ xl.bits := by
  have h := zimm.isLt
  rw [BitVec.toNat_setWidth]
  rcases XLen.bits_cases xl with hb | hb <;> rw [hb] <;> omega

theorem set_no_bits (c m : Word) : c ||| ((0 : Word) &&& m) = c := by simp

theorem clear_no_bits (c m : Word) : c &&& ~~~((0 : Word) &&& m) = c := by
  change c &&& ~~~(0#64 &&& m) = c
  rw [BitVec.zero_and, BitVec.not_zero, BitVec.and_allOnes]

/-- A read-and-set on plain storage with the operand `x`; nothing is written where the operand's test fails. -/
theorem exec_csr_set {i : Instr} {s : State} {rd : Reg} {a : BitVec 12} {doWrite w : Bool} {new : State → Word → Word}
    {m x : Word} (hwf : sparseWf s.csrs = true) (hops : csrOperands i s = some (rd, a, true, doWrite, new))
    (hd : csrDesc s.cfg a = some (.storage true w m)) (hw : doWrite = true → w = true)
    (hnew : new s (s.csr a) = orX s.xl (s.csr a) x) (hx : x.toNat < 2 ^ s.xl.bits) (h0 : doWrite = false → x = 0) :
    ∃ t, exec i s = .next t ∧ OnlyCsrX s t a (s.csr a ||| (x &&& m)) rd (s.csr a) (seqPc s 4) := by
  refine exec_csr_storage hwf hops hd (fun _ => rfl) hw (fun _ => rfl) (fun _ => ?_) (fun h => ?_)
  · rw [if_pos rfl, hnew]
    exact wrap_set_bits m (s.csr_lt a) hx
  · rw [h0 h, set_no_bits]

theorem exec_csr_clear {i : Instr} {s : State} {rd : Reg} {a : BitVec 12} {doWrite w : Bool} {new : State → Word → Word}
    {m x : Word} (hwf : sparseWf s.csrs = true) (hops : csrOperands i s = some (rd, a, true, doWrite, new))
    (hd : csrDesc s.cfg a = some (.storage true w m)) (hw : doWrite = true → w = true)
    (hnew : new s (s.csr a) = andNotX s.xl (s.csr a) x) (h0 : doWrite = false → x = 0) :
    ∃ t, exec i s = .next t ∧ OnlyCsrX s t a (s.csr a &&& ~~~(x &&& m)) rd (s.csr a) (seqPc s 4) := by
  refine exec_csr_storage hwf hops hd (fun _ => rfl) hw (fun _ => rfl) (fun _ => ?_) (fun h => ?_)
  · rw [if_pos rfl, hnew]
    exact wrap_clear_bits x m (s.csr_lt a)
  · rw [h0 h, clear_no_bits]

/-- Settles O35: with rs1 = x0 or zimm = 0 the operand is zero, so that not writing is what the formula says. -/
theorem csrSetClear : Obligations.CsrSetClear := by
  intro s rd rs1 zimm a w m hwf hd
  have hrs1 : decide (rs1 ≠ 0) = false → s.readX rs1 = 0 := fun h => by
    rw [not_not.1 (of_decide_eq_false h)]; exact s.readX_zero
  have hzimm : decide (zimm ≠ 0) = false → (zimm.setWidth 64 : Word) = 0 := fun h => by
    rw [not_not.1 (of_decide_eq_false h)]; rfl
  refine ⟨fun hw => ⟨?csrrs, ?csrrc⟩, fun hw => ⟨?csrrsi, ?csrrci⟩⟩
  case csrrs =>
    exact exec_csr_set (i := .csrrs rd a rs1) hwf rfl hd (fun h => hw (of_decide_eq_true h)) rfl (s.readX_lt rs1) hrs1
  case csrrc =>
    exact exec_csr_clear (i := .csrrc rd a rs1) hwf rfl hd (fun h => hw (of_decide_eq_true h)) rfl hrs1
  case csrrsi =>
    exact exec_csr_set (i := .csrrsi rd a zimm) hwf rfl hd (fun h => hw (of_decide_eq_true h)) rfl (zimm_lt ..) hzimm
  case csrrci =>
    exact exec_csr_clear (i := .csrrci rd a zimm) hwf rfl hd (fun h => hw (of_decide_eq_true h)) rfl hzimm

/-! ## The pseudo-instructions (R242 to R244, R251 to R254) -/

/-- With rd = x0 the value copied does not matter. -/
theorem OnlyCsrX.of_zero {s t : State} {a : BitVec 12} {n v pc : Word} (h : OnlyCsrX s t a n 0 v pc) :
    OnlyCsrX s t a n 0 0 pc := h

/-- A CSR instruction that leaves the CSR at its value writes x[rd] only. -/
theorem OnlyCsrX.onlyX {s t : State} {a : BitVec 12} {rd : Reg} {v pc : Word} (h : OnlyCsrX s t a (s.csr a) rd v pc) :
    OnlyX s t rd v pc := by
  obtain ⟨hcsr, hcsrs, hrd, hx, hpc, hf, hmem, hmodel⟩ := h
  refine ⟨hrd, hx, hpc, hf, fun b => ?_, hmem, hmodel⟩
  by_cases hb : b = a
  · rw [hb]; exact hcsr
  · exact hcsrs b hb

/-- With every bit writable the operand is what is written. -/
theorem wrap_all_writable {xl : XLen} {c x : Word} (hx : x.toNat < 2 ^ xl.bits) :
    wrap xl ((c &&& ~~~BitVec.allOnes 64) ||| (x &&& BitVec.allOnes 64)) = x := by
  rw [BitVec.not_allOnes, BitVec.and_zero, BitVec.zero_or, BitVec.and_allOnes]
  exact (wrap_eq_self_iff xl x).2 hx

/-- Settles O57: each is one of the six with x0 or a zero test, on storage in which every bit is writable. -/
theorem csrPseudos : Obligations.CsrPseudos := by
  intro s rd rs1 zimm a hwf hd
  have set := csrSetClear s rd 0 0 a true _ hwf hd
  have setClear := csrSetClear s 0 rs1 zimm a true _ hwf hd
  have write := csrReadWrite s 0 rs1 zimm a true true _ hwf hd (fun _ => rfl) rfl
  simp only [BitVec.and_allOnes] at set setClear
  rw [wrap_all_writable (s.readX_lt rs1), wrap_all_writable (zimm_lt ..)] at write
  obtain ⟨⟨hs, hc⟩, hsi, hci⟩ := And.intro (setClear.1 fun _ => trivial) (setClear.2 fun _ => trivial)
  refine ⟨?csrr, ?csrw, ?csrwi, ?csrs, ?csrsi, ?csrc, ?csrci⟩
  case csrr =>
    obtain ⟨t, hexec, honly⟩ := (set.1 fun _ => trivial).1
    have hzero : s.csr a ||| s.readX 0 = s.csr a :=
      (congrArg (s.csr a ||| ·) s.readX_zero).trans BitVec.or_zero
    rw [hzero] at honly
    exact ⟨t, hexec, honly.onlyX⟩
  case csrw => exact write.1.imp fun _ h => ⟨h.1, h.2.of_zero⟩
  case csrwi => exact write.2.imp fun _ h => ⟨h.1, h.2.of_zero⟩
  case csrs => exact hs.imp fun _ h => ⟨h.1, h.2.of_zero⟩
  case csrsi => exact hsi.imp fun _ h => ⟨h.1, h.2.of_zero⟩
  case csrc => exact hc.imp fun _ h => ⟨h.1, h.2.of_zero⟩
  case csrci => exact hci.imp fun _ h => ⟨h.1, h.2.of_zero⟩

end Sys2Proof.Machine
end

section
/-! PROOFS. The divide instructions (46_divide.md): the quotient functions at every width as integers, and the four
instructions from them. -/

namespace Sys2Proof.Machine

/-! ## The quotients at every width -/

theorem eq_intMin_iff {n : Nat} (hn : 0 < n) (a : BitVec n) : a = BitVec.intMin n ↔ a.toInt = -2 ^ (n - 1) := by
  rw [← BitVec.toInt_inj, BitVec.toInt_intMin_of_pos hn]

theorem eq_allOnes_iff {n : Nat} (hn : 0 < n) (b : BitVec n) : b = BitVec.allOnes n ↔ b.toInt = -1 := by
  rw [← BitVec.toInt_inj, BitVec.toInt_allOnes, if_pos hn]

theorem eq_zero_iff_toInt {n : Nat} (b : BitVec n) : b = 0 ↔ b.toInt = 0 := by
  rw [← BitVec.toInt_inj]; simp

theorem eq_zero_iff_toNat {n : Nat} (b : BitVec n) : b = 0 ↔ b.toNat = 0 := by
  rw [← BitVec.toNat_inj]; simp

theorem toInt_emod {n : Nat} (a : BitVec n) : a.toInt % 2 ^ n = a.toNat := by
  have h : (a.toInt : Int) % ((2 ^ n : Nat) : Int) = (a.toNat : Int) % ((2 ^ n : Nat) : Int) := by
    rw [BitVec.toInt_eq_toNat_bmod, Int.bmod_emod]
  push_cast at h
  rw [h]
  exact Int.emod_eq_of_lt (by omega) (by exact_mod_cast a.isLt)

theorem divs_eq_ofInt (d : DivSpec) {n : Nat} (hn : 0 < n) (a b : BitVec n) :
    divs d n a b = BitVec.ofInt n (quotSBy n (d.results n) a.toInt b.toInt) := by
  have hres := divResult_eq a a.toInt (toInt_emod a)
  unfold divs quotSBy
  simp only [eq_zero_iff_toInt, eq_intMin_iff hn, eq_allOnes_iff hn, hres]
  split
  · rfl
  · split <;> rfl

theorem divu_eq_ofInt (d : DivSpec) {n : Nat} (a b : BitVec n) :
    divu d n a b = BitVec.ofInt n (quotUBy n (d.results n) a.toNat b.toNat) := by
  have hres := divResult_eq a a.toNat (Int.emod_eq_of_lt (by omega) (by exact_mod_cast a.isLt))
  unfold divu quotUBy
  simp only [eq_zero_iff_toNat, hres]
  split
  · rfl
  · rw [BitVec.ofInt_natCast]

/-! ## The results of the standard div_spec -/

theorem results_standard (n : Nat) : DivSpec.standard.results n = DivResults.standard := by
  unfold DivSpec.results
  split <;> rfl

theorem quotSBy_standard (n : Nat) (a b : Int) : quotSBy n DivResults.standard a b = quotS n a b := by
  unfold quotSBy quotS
  split
  · rfl
  · split
    next h => exact h.1
    · rfl

/-- All ones is -1 modulo 2^n. -/
theorem quotUBy_standard (n a b : Nat) :
    quotUBy n DivResults.standard a b % 2 ^ n = (quotU n a b : Int) % 2 ^ n := by
  unfold quotUBy quotU
  split
  · have h : ((2 ^ n - 1 : Nat) : Int) = -1 + 2 ^ n := by rw [Nat.cast_sub Nat.one_le_two_pow]; push_cast; ring
    rw [h, Int.add_emod_right]; rfl
  · rfl

/-! ## The divisions on XLEN bits -/

theorem setWidth64_ofInt (z : Int) : (BitVec.ofInt 32 z).setWidth 64 = xval .rv32 z := by
  rw [setWidth64_eq_xval]
  exact xval_congr (by rw [BitVec.toInt_ofInt]; exact Int.bmod_emod ..)

theorem ofInt_eq_xval (z : Int) : BitVec.ofInt 64 z = xval .rv64 z := by
  rw [word_eq_xval (BitVec.ofInt 64 z)]
  exact xval_congr (by rw [BitVec.toInt_ofInt]; exact Int.bmod_emod ..)

theorem onX_divs {xl : XLen} (d : DivSpec) {a b : Word} (ha : a.toNat < 2 ^ xl.bits) (hb : b.toNat < 2 ^ xl.bits) :
    onX xl (divs d) a b = xval xl (quotSBy xl.bits (d.results xl.bits) (sgn xl a) (sgn xl b)) := by
  cases xl with
  | rv32 =>
    simp only [onX]
    rw [divs_eq_ofInt d (by norm_num), setWidth64_ofInt, toInt_setWidth32 ha, toInt_setWidth32 hb]; rfl
  | rv64 =>
    simp only [onX]
    rw [divs_eq_ofInt d (by norm_num), ofInt_eq_xval, toInt_eq_sgn, toInt_eq_sgn]; rfl

theorem onX_divu {xl : XLen} (d : DivSpec) {a b : Word} (ha : a.toNat < 2 ^ xl.bits) (hb : b.toNat < 2 ^ xl.bits) :
    onX xl (divu d) a b = xval xl (quotUBy xl.bits (d.results xl.bits) a.toNat b.toNat) := by
  cases xl with
  | rv32 =>
    simp only [onX, XLen.bits] at ha hb ⊢
    rw [divu_eq_ofInt, setWidth64_ofInt, BitVec.toNat_setWidth, BitVec.toNat_setWidth, Nat.mod_eq_of_lt ha,
      Nat.mod_eq_of_lt hb]
  | rv64 =>
    simp only [onX]
    rw [divu_eq_ofInt, ofInt_eq_xval]; rfl

/-- The sign-extended quotient of two low words. -/
theorem sextX_divs (xl : XLen) (d : DivSpec) (a b : Word) : sextX xl (divs d 32 (a.setWidth 32) (b.setWidth 32)) =
    xval xl (low32 (quotSBy 32 (d.results 32) (low32 a.toNat) (low32 b.toNat))) := by
  rw [sextX_eq_xval, divs_eq_ofInt d (by norm_num), low32_eq, low32_eq]; rfl

theorem sextX_divu (xl : XLen) (d : DivSpec) (a b : Word) : sextX xl (divu d 32 (a.setWidth 32) (b.setWidth 32)) =
    xval xl (low32 (quotUBy 32 (d.results 32) (a.toNat % 2 ^ 32) (b.toNat % 2 ^ 32))) := by
  rw [sextX_eq_xval, divu_eq_ofInt, BitVec.toNat_setWidth, BitVec.toNat_setWidth]; rfl

/-! ## The instructions -/

/-- The shape of the divisions: present, and then one register write. -/
theorem completesX_full {i : Instr} {s : State} {rd : Reg} {v w : Word} (hp : i.present s.cfg = true)
    (h : exec i s = ifPresent i s (finish s rd v 4)) (hv : wrap s.xl v = w) : CompletesX i s rd w (seqPc s 4) :=
  completesX_finish (by norm_num) (h.trans (ifPresent_of hp _)) hv

/-- Settles O38: the standard results are the quotient functions of R260, read as integers. -/
theorem divide : Obligations.Divide := by
  intro s rd rs1 rs2 hm
  have ha := s.readX_lt rs1
  have hb := s.readX_lt rs2
  have hdiv : CompletesX (.div rd rs1 rs2) s rd (xval s.xl (quotSBy s.xl.bits (s.cfg.divSpec.results s.xl.bits)
      (sgn s.xl (s.readX rs1)) (sgn s.xl (s.readX rs2)))) (seqPc s 4) :=
    completesX_full hm rfl (by rw [onX_divs _ ha hb, wrap_xval])
  have hdivu : CompletesX (.divu rd rs1 rs2) s rd (xval s.xl (quotUBy s.xl.bits (s.cfg.divSpec.results s.xl.bits)
      (s.readX rs1).toNat (s.readX rs2).toNat)) (seqPc s 4) :=
    completesX_full hm rfl (by rw [onX_divu _ ha hb, wrap_xval])
  refine ⟨decode_full_present (decode32_op ..) hm, decode_full_present (decode32_op ..) hm, hdiv, hdivu, fun hstd => ?_⟩
  rw [hstd, results_standard] at hdiv hdivu
  rw [quotSBy_standard] at hdiv
  rw [xval_congr (quotUBy_standard ..)] at hdivu
  exact ⟨hdiv, hdivu⟩

/-- Settles O39: the same on the low words. -/
theorem divideWord : Obligations.DivideWord := by
  intro s rd rs1 rs2 hm h64
  have hp : (s.cfg.ext.m && s.cfg.is64) = true := by rw [hm, Config.is64_of_rv64 h64]; rfl
  have hdivw : CompletesX (.divw rd rs1 rs2) s rd (xval s.xl (low32 (quotSBy 32 (s.cfg.divSpec.results 32)
      (low32 (s.readX rs1).toNat) (low32 (s.readX rs2).toNat)))) (seqPc s 4) :=
    completesX_full hp rfl (by rw [sextX_divs, wrap_xval])
  have hdivuw : CompletesX (.divuw rd rs1 rs2) s rd (xval s.xl (low32 (quotUBy 32 (s.cfg.divSpec.results 32)
      ((s.readX rs1).toNat % 2 ^ 32) ((s.readX rs2).toNat % 2 ^ 32)))) (seqPc s 4) :=
    completesX_full hp rfl (by rw [sextX_divu, wrap_xval])
  refine ⟨decode_full_present (decode32_op32 ..) hp, decode_full_present (decode32_op32 ..) hp, hdivw, hdivuw,
    fun hstd => ?_⟩
  rw [hstd, results_standard] at hdivw hdivuw
  rw [quotSBy_standard] at hdivw
  rw [low32_congr (quotUBy_standard ..)] at hdivuw
  exact ⟨hdivw, hdivuw⟩

end Sys2Proof.Machine
end

section
/-! PROOFS. The pseudo-instructions with an effect of their own: call (45_call_and_csr.md R240) and fabs (48_fp_pseudo.md). -/

namespace Sys2Proof.Machine

/-! ## The reach of a call -/

/-- The upper part is rounded, so that the signed lower part makes up the difference: `o` is the offset modulo 2^XLEN and
`d` its two's-complement reading. -/
theorem hi_lo_sum {xl : XLen} {o : Word} {d : Int} (ho : o.toNat < 2 ^ xl.bits)
    (hd : d % 2 ^ xl.bits = (o.toNat : Int) % 2 ^ xl.bits)
    (hreach : xl = .rv64 → -2 ^ 31 - 2048 ≤ d ∧ d < 2 ^ 31 - 2048) :
    (((addX xl o 0x800).extractLsb' 12 20).toInt * 4096 + (o.extractLsb' 0 12).toInt) % 2 ^ xl.bits =
      (o.toNat : Int) % 2 ^ xl.bits := by
  have hsum := xval_toNat xl (o.toNat + 2048)
  have h800 : (addX xl o 0x800) = xval xl (o.toNat + 2048) := addX_eq_xval xl o 0x800
  rw [h800]
  simp only [BitVec.toInt_eq_toNat_cond, BitVec.extractLsb'_toNat, Nat.shiftRight_eq_div_pow]
  cases xl with
  | rv32 =>
    simp only [XLen.bits] at *
    split <;> split <;> omega
  | rv64 =>
    have hreach := hreach rfl
    simp only [XLen.bits] at *
    split <;> split <;> omega

theorem callReaches_of {s : State} {symbol : Word}
    (hreach : s.cfg.xlen = .rv64 → -2 ^ 31 - 2048 ≤ (symbol.toNat : Int) - s.readPc.toNat ∧
      (symbol.toNat : Int) - s.readPc.toNat < 2 ^ 31 - 2048) : callReaches s symbol = true := by
  have hoff : callOffset s symbol = xval s.xl (symbol.toNat - s.readPc.toNat) := subX_eq_xval ..
  have hlt : (callOffset s symbol).toNat < 2 ^ s.xl.bits := by rw [hoff]; exact xval_lt ..
  have hmod : ((symbol.toNat : Int) - s.readPc.toNat) % 2 ^ s.xl.bits =
      ((callOffset s symbol).toNat : Int) % 2 ^ s.xl.bits := by
    rw [hoff, xval_toNat, Int.emod_emod_of_dvd _ (dvd_refl _)]
  have hsum := hi_lo_sum hlt hmod hreach
  have hhi : immU s.xl (callHi s symbol) = xval s.xl ((callHi s symbol).toInt * 4096) := by
    rw [immU, sextX_eq_xval, append_zero_toInt]; norm_num
  unfold callReaches
  rw [beq_iff_eq, addX_immI, hhi, xval_xval_add]
  exact (xval_congr hsum).trans (xval_of_lt hlt)

/-- Settles O58: the pair reaches the symbol, and its effect is one register write and a jump. -/
theorem callEffect : Obligations.CallEffect := by
  intro s rd symbol hrd hsymbol haligned hreach
  have hexec : execPseudo (.call rd symbol) s = .next ((s.writeX rd (addX s.xl s.readPc 8)).writePc symbol) := by
    change execCall rd symbol s = _
    rw [execCall, if_pos ⟨hrd, callReaches_of hreach⟩, if_neg (not_not.2 haligned)]
  refine ⟨_, hexec, ?_⟩
  have honly := onlyX_writePc s rd (addX s.xl s.readPc 8) symbol
  have hlink : addX s.xl s.readPc 8 = seqPc s 8 := s.advance_eq_seqPc (n := 8) (by norm_num)
  rw [(wrap_eq_self_iff _ _).2 hsymbol, hlink, wrap_seqPc] at honly
  rwa [hlink]

/-! ## Absolute values (R275, R276) -/

theorem absDouble_eq (v : Word) : absDouble v = BitVec.ofNat 64 (v.toNat % 2 ^ 63) := by
  apply BitVec.eq_of_toNat_eq
  rw [absDouble, BitVec.toNat_append, BitVec.toNat_setWidth, BitVec.toNat_ofNat]
  simp only [BitVec.toNat_ofNat, Nat.zero_mod, Nat.zero_shiftLeft, Nat.zero_or]
  omega

theorem absSingle_toNat (v : BitVec 32) : (absSingle v).toNat = v.toNat % 2 ^ 31 := by
  rw [absSingle, BitVec.toNat_append, BitVec.toNat_setWidth]
  simp

/-- Without D an f register holds a single as it is. -/
theorem unboxF_single {c : Config} (hd : c.ext.d = false) (v : Word) : unboxF c v = v.setWidth 32 := by
  rw [unboxF, hd]; rfl

theorem upper_allOnes_iff (v : Word) : v.extractLsb' 32 32 = BitVec.allOnes 32 ↔ v.toNat / 2 ^ 32 = 2 ^ 32 - 1 := by
  have hv := v.isLt
  rw [← BitVec.toNat_inj, BitVec.extractLsb'_toNat, BitVec.toNat_allOnes, Nat.shiftRight_eq_div_pow]
  omega

/-- With D it is the low word of a boxed value, and the canonical NaN of any other. -/
theorem unboxF_boxed {c : Config} (hd : c.ext.d = true) (v : Word) :
    unboxF c v = if v.toNat / 2 ^ 32 = 2 ^ 32 - 1 then v.setWidth 32 else 0x7FC00000 := by
  rw [unboxF, hd]
  by_cases h : v.toNat / 2 ^ 32 = 2 ^ 32 - 1
  · rw [if_pos h, (upper_allOnes_iff v).2 h]; rfl
  · rw [if_neg h, if_pos]
    rw [Bool.true_and, bne_iff_ne]
    exact fun e => h ((upper_allOnes_iff v).1 e)

theorem absSingle_unboxF {c : Config} (v : Word) :
    (absSingle (unboxF c v)).toNat =
      if c.ext.d = true ∧ v.toNat / 2 ^ 32 ≠ 2 ^ 32 - 1 then 0x7FC00000 else v.toNat % 2 ^ 31 := by
  have hlow : (v.setWidth 32).toNat % 2 ^ 31 = v.toNat % 2 ^ 31 := by rw [BitVec.toNat_setWidth]; omega
  rw [absSingle_toNat]
  cases hd : c.ext.d with
  | false => rw [unboxF_single hd, hlow, if_neg (fun h => Bool.false_ne_true h.1)]
  | true =>
    rw [unboxF_boxed hd]
    by_cases h : v.toNat / 2 ^ 32 = 2 ^ 32 - 1
    · rw [if_pos h, hlow, if_neg (fun h' => h'.2 h)]
    · rw [if_neg h, if_pos ⟨rfl, h⟩]; rfl

/-- Settles O59. -/
theorem fabsEffect : Obligations.FabsEffect := by
  intro s rd rs1
  have hsingle : s.cfg.ext.f = true → execPseudo (.fabsS rd rs1) s =
      .next ((s.writeF rd (boxF s.cfg (absSingle (unboxF s.cfg (s.readF rs1))))).advance 4) := fun hf => if_pos hf
  refine ⟨fun hd => ?fabsD, fun hf hd => ?single, fun hf hd => ?boxed⟩
  case fabsD =>
    have honly := onlyF_finish s rd (absDouble (s.readF rs1)) (n := 4) (by norm_num)
    rw [wrapF_of_d hd] at honly
    rw [← absDouble_eq]
    exact ⟨_, if_pos hd, honly⟩
  case single =>
    have honly := onlyF_finish s rd (boxF s.cfg (absSingle (unboxF s.cfg (s.readF rs1)))) (n := 4) (by norm_num)
    rw [wrapF_boxF hf, absSingle_unboxF, hd] at honly
    exact ⟨_, hsingle hf, honly⟩
  case boxed =>
    have honly := onlyF_finish s rd (boxF s.cfg (absSingle (unboxF s.cfg (s.readF rs1)))) (n := 4) (by norm_num)
    rw [wrapF_boxF hf, absSingle_unboxF, hd, if_pos rfl] at honly
    simp only [true_and, ne_eq, ite_not] at honly
    exact ⟨_, hsingle hf, honly⟩

end Sys2Proof.Machine
end
